-- ==== Sys2Proof/Word.lean ====
section
/-! DEFINITION. Sys2Proof/Word.lean: the bit-vector widths JHD uses (00_scope.md R6, R8). -/

namespace Sys2Proof

/-- An 8-bit value: a byte of the entropy-coded segment, a count, a symbol, a sample. -/
abbrev Byte := BitVec 8

/-- A 16-bit value: a coefficient, a DC predictor, a quantization entry. -/
abbrev Half := BitVec 16

/-- A 32-bit value: a command word, a window register, a dequantized value. -/
abbrev Word := BitVec 32

end Sys2Proof
end

