-- ==== Sys2Proof/Syntax.lean ====
section
/-! DEFINITION. Sys2Proof/Syntax.lean: the thirteen commands of the opcode map (30_encoding.md R89), one constructor
per row of spec/opcode_table.json, with the fields of R82 to R88 as operands. -/

namespace Sys2Proof

/-- The precision a quantization table is committed at (R85 PREC, R34 QTP). -/
inductive Precision where
  /-- PREC = 0 -/
  | eight
  /-- PREC = 1 -/
  | sixteen
  deriving DecidableEq, Repr

/-- A command (R89). Slots are `2·dest + class` (R83); `n` of BS_READ is the raw five-bit field N (R86). -/
inductive Instr where
  | nop
  | htBuild (slot : Fin 8)
  | qtSet (qt : Fin 4) (prec : Precision)
  | bsInit
  | bsRead (n : Fin 32)
  | bsAlign
  | bsPeek
  | hufDecode (slot : Fin 8)
  | duDecode (pred dct act : Fin 4) (dcOnly : Bool)
  | predReset
  | bsRestart
  | dequant (qt : Fin 4)
  | idct
  deriving DecidableEq, Repr

end Sys2Proof
end

