-- ==== Sys2Proof/WellFormed.lean ====
section
/-! DEFINITION. Sys2Proof/WellFormed.lean: which commands have a legal word. The only condition beyond a field's own
width is BS_READ's bit count (30_encoding.md R86, R90). -/

namespace Sys2Proof

/-- The command has a legal word: `1 ≤ N ≤ 16` for BS_READ (R86), nothing more for the others. -/
def Instr.wellFormed : Instr → Bool
  | .nop => true
  | .htBuild _ => true
  | .qtSet _ _ => true
  | .bsInit => true
  | .bsRead n => decide (1 ≤ n.val) && decide (n.val ≤ 16)
  | .bsAlign => true
  | .bsPeek => true
  | .hufDecode _ => true
  | .duDecode _ _ _ _ => true
  | .predReset => true
  | .bsRestart => true
  | .dequant _ => true
  | .idct => true

end Sys2Proof
end

