-- ==== Sys2Proof/Decode.lean ====
section
/-! DEFINITION. Sys2Proof/Decode.lean: a command word to a command and back (30_encoding.md R80 to R91). The decoder is
total on 32-bit words and rejects an illegal word by name (R90); the encoder follows the word column of R92. -/

namespace Sys2Proof

/-- A field of a command word as an operand with `n` values (R88): bits `lo` up, `n` a power of two. -/
def finField (w : Word) (lo n : Nat) [NeZero n] : Fin n := Fin.ofNat n (w.toNat >>> lo)

/-- PREC, bit 12 (R85). -/
def precField (w : Word) : Precision := if w.getLsbD 12 then .sixteen else .eight

/-- OPC, bits 7:0 of every command word (R81). -/
def opcodeOf (w : Word) : Byte := w.setWidth 8

/-- One row of the opcode map (R89): the row is selected by `w & mask = match`, and `build` reads its fields. -/
structure OpcodeRow where
  mask : Word
  value : Word
  build : Word → Instr

/-- The opcode map of R89, in the table's order. -/
def opcodeMap : List OpcodeRow :=
  [ ⟨0xFFFFFFFF#32, 0x00000000#32, fun _ => .nop⟩,
    ⟨0xFFFFF8FF#32, 0x00000010#32, fun w => .htBuild (finField w 8 8)⟩,
    ⟨0xFFFFECFF#32, 0x00000011#32, fun w => .qtSet (finField w 8 4) (precField w)⟩,
    ⟨0xFFFFFFFF#32, 0x00000020#32, fun _ => .bsInit⟩,
    ⟨0xFFFFE0FF#32, 0x00000021#32, fun w => .bsRead (finField w 8 32)⟩,
    ⟨0xFFFFFFFF#32, 0x00000022#32, fun _ => .bsAlign⟩,
    ⟨0xFFFFFFFF#32, 0x00000023#32, fun _ => .bsPeek⟩,
    ⟨0xFFFFF8FF#32, 0x00000030#32, fun w => .hufDecode (finField w 8 8)⟩,
    ⟨0xFFECCCFF#32, 0x00000031#32, fun w =>
      .duDecode (finField w 8 4) (finField w 12 4) (finField w 16 4) (w.getLsbD 20)⟩,
    ⟨0xFFFFFFFF#32, 0x00000032#32, fun _ => .predReset⟩,
    ⟨0xFFFFFFFF#32, 0x00000033#32, fun _ => .bsRestart⟩,
    ⟨0xFFFFFCFF#32, 0x00000040#32, fun w => .dequant (finField w 8 4)⟩,
    ⟨0xFFFFFFFF#32, 0x00000041#32, fun _ => .idct⟩ ]

/-- Why a word is illegal (R90). All three raise IllegalCommand (60_exceptions.md R221). -/
inductive DecodeError where
  /-- OPC is not in the map. -/
  | unassignedOpcode
  /-- A must-be-zero bit of the format is 1. -/
  | mustBeZero
  /-- BS_READ with N = 0 or N > 16. -/
  | badCount
  deriving DecidableEq, Repr

/-- The command a word selects (R89), or why it is illegal (R90, 40_command_cycle.md R103). -/
def decode (w : Word) : Except DecodeError Instr :=
  match opcodeMap.find? (fun r => w &&& r.mask == r.value) with
  | some r => if (r.build w).wellFormed then .ok (r.build w) else .error .badCount
  | none =>
    if opcodeMap.any (fun r => w &&& 0xFF#32 == r.value) then .error .mustBeZero else .error .unassignedOpcode

/-- PREC as a number, 0 for 8 bits and 1 for 16 (R85). -/
def Precision.bit : Precision → Nat
  | .eight => 0
  | .sixteen => 1

/-- The word of a command (R92). -/
def encode : Instr → Word
  | .nop => 0x00#32
  | .htBuild s => BitVec.ofNat 32 (0x10 + s.val * 2 ^ 8)
  | .qtSet t p => BitVec.ofNat 32 (0x11 + t.val * 2 ^ 8 + p.bit * 2 ^ 12)
  | .bsInit => 0x20#32
  | .bsRead n => BitVec.ofNat 32 (0x21 + n.val * 2 ^ 8)
  | .bsAlign => 0x22#32
  | .bsPeek => 0x23#32
  | .hufDecode s => BitVec.ofNat 32 (0x30 + s.val * 2 ^ 8)
  | .duDecode p d a dcOnly =>
    BitVec.ofNat 32 (0x31 + p.val * 2 ^ 8 + d.val * 2 ^ 12 + a.val * 2 ^ 16 + dcOnly.toNat * 2 ^ 20)
  | .predReset => 0x32#32
  | .bsRestart => 0x33#32
  | .dequant t => BitVec.ofNat 32 (0x40 + t.val * 2 ^ 8)
  | .idct => 0x41#32

/-- The command word the opcode table's bits `w` stand for: `nbits` of them, every bit above zero. A command is one
32-bit word and is not laid out in bytes (R80). -/
def tableWord (nbits w : Nat) : Word := BitVec.ofNat 32 (w % 2 ^ nbits)

/-- The command the decoder reads from the opcode table's bits `w`, or none where it refuses. -/
def decodeTableWord (nbits w : Nat) : Option Instr :=
  match decode (tableWord nbits w) with
  | .ok i => some i
  | .error _ => none

end Sys2Proof
end

