-- ==== Sys2Proof/Config.lean ====
section
/-! DEFINITION. Sys2Proof/Config.lean: what the configuration fixes (00_scope.md R6) and the free values
(93_implementation_defined.md). An opaque constant has no body, so a statement about it holds whatever its value. -/

namespace Sys2Proof

/-- ECS_BUF_BYTES when unstated (R6, 92 D12, 93 item 15). -/
def Config.ecsBufDefault : Nat := 65536

/-- The constant of the ID register, ASCII "JHD0" (10_state.md R21). -/
def Config.idWord : Word := 0x4A484430#32

/-! Storage contents after a reset (10_state.md R46, 70 R241): one unknown value per cell, for each reset `d`.
[log 4] -/

/-- CMDLATCH after reset `d` (R36). -/
opaque Config.resetCmdLatch (d : Nat) : Word
/-- HTC[s][i + 1] after reset `d` (R37). -/
opaque Config.resetHtc (d s i : Nat) : Byte
/-- HTS[s][j] after reset `d` (R37). -/
opaque Config.resetHts (d s j : Nat) : Byte
/-- QTE[t][k] after reset `d` (R38). -/
opaque Config.resetQte (d t k : Nat) : Half
/-- DU[k] after reset `d` (R39). -/
opaque Config.resetDu (d k : Nat) : Half
/-- BLK[n] after reset `d` (R40). -/
opaque Config.resetBlk (d n : Nat) : Word
/-- SAMPLE[n] after reset `d` (R41). -/
opaque Config.resetSample (d n : Nat) : Byte
/-- The ECS buffer after reset `d` (R42): byte `a` is the base-256 digit `a` of this number, so that it stands for
any contents whatever. -/
opaque Config.resetEcs (d : Nat) : Nat

/-! What a stream fault leaves (60_exceptions.md R227): any value of the field's width, for each draw `d`. [log 7] -/

/-- BS_POS after a stream fault. -/
opaque Config.faultPos (d : Nat) : Word
/-- BS_BUF.CUR after a stream fault. -/
opaque Config.faultCur (d : Nat) : Byte
/-- BS_BUF.NBITS after a stream fault. -/
opaque Config.faultNbits (d : Nat) : BitVec 4
/-- BITCNT after a stream fault. -/
opaque Config.faultBitcnt (d : Nat) : Word
/-- DU[k] after a DU_DECODE stream fault. -/
opaque Config.faultDu (d k : Nat) : Half
/-- The used PRED[P] after a DU_DECODE stream fault. -/
opaque Config.faultPred (d : Nat) : Half

/-- What a host read returns while BUSY = 1, but for STATUS.BUSY (20_memory.md R68), for each draw `d`. [log 8] -/
opaque Config.busyRead (d : Nat) : Word

/-- What an IDCT_CORE does where 44_idct.md R181 leaves it free: output `n` for the block `f`, an unbounded integer.
`idctCore` narrows it to R181's bounds. [log 10] -/
opaque Config.idctFree (f : Vector Word 64) (n : Nat) : Int

end Sys2Proof
end

