-- ==== Sys2Proof/Machine/State.lean ====
section
/-! DEFINITION. Sys2Proof/Machine/State.lean: the state of one JHD instance (10_state.md R20), the model's own three
fields beside it, why a step can stop, and the state after reset (R46). -/

namespace Sys2Proof.Machine

/-- Why the machine stops. A fault of the spec (60_exceptions.md R220) is recorded state and no stop: see `FaultKind`. -/
inductive Fault where
  /-- Raised by a stream command that would read the ECS buffer at an offset the buffer does not have (20_memory.md
  R64 gives only 0 .. ECS_BUF_BYTES - 1). No state that keeps `State.Inv` raises it. Safe. [log 11] -/
  | ecsOutsideBuffer
  deriving DecidableEq, Repr

/-- Why a step has no meaning. All but the first are host accesses that the spec says a model refuses. -/
inductive Refusal where
  /-- An instruction of the opcode table with no meaning yet: raised by no arm of this model. Safe. -/
  | notModelled (mnemonic : String)
  /-- A host access of a width other than 32 bits (R61; 93 item 7). Safe. -/
  | hostWidth
  /-- A host access at an offset that is no multiple of 4 (R61; 93 item 7). Safe. -/
  | hostUnaligned
  /-- A host access at or above 0x10000 + ECS_BUF_BYTES: the platform's (R67; 93 item 8). Safe. -/
  | hostOutsideWindow
  /-- A host write while STATUS.BUSY = 1 (R68, R244; 93 item 6). Safe. -/
  | hostWriteWhileBusy
  deriving DecidableEq, Repr

/-- The fault kinds of 60_exceptions.md R221. -/
inductive FaultKind where
  | illegalCommand
  | tableMissing
  | malformedTable
  | malformedBitStream
  | invalidSize
  | overrun
  | truncated
  | missingRestart
  | badWindow
  deriving DecidableEq, Repr

/-- What happens to the block from outside, and the engine's turn. A list of these is the schedule of a run: 70
R252's host program, with the points at which the engine step falls (40 R101) and at which the platform resets the
block (70 R240). [log 1] -/
inductive Event where
  /-- HostRead(off) of `width` bits (R61). -/
  | read (width off : Nat)
  /-- HostWrite(off, v) of `width` bits (R61). -/
  | write (width off : Nat) (v : Word)
  /-- The platform's reset (R240). -/
  | reset
  /-- The engine takes its step, if it is enabled (R101). -/
  | engine
  deriving DecidableEq, Repr

/-- The bit source's state (41_bitsource.md R110): BS_POS, BS_END, BS_BUF.CUR, BS_BUF.NBITS and BITCNT. -/
structure BitSource where
  pos : Word
  stop : Word
  cur : Byte
  nbits : BitVec 4
  bitcnt : Word
  deriving DecidableEq, Repr

/-- The ECS buffer (R42): the bytes written since the last reset over the contents that reset left. Byte `a` of
`init` in base 256 is what an unlisted address `a` reads as. `lastWord` is the model argument ECS_BUF_BYTES (R6) as the
index of the buffer's last word: each of its values is a multiple of 4 in [4, 2^24], and no step changes it. [log 3] -/
structure Memory where
  cells : List Host.Cell
  init : Nat
  lastWord : BitVec 22
  deriving DecidableEq, Repr

/-- The state of the block (R20), and `pending`, `reply` and `draws`, which are the model's own. The registers' names
are those of 10_state.md. ID is constant (R21) and CMD a port (R23): neither holds state. -/
structure State where
  /-- CTRL.EXT (R22) -/
  ext : Bool
  /-- CMDLATCH (R36) -/
  cmdLatch : Word
  /-- STATUS.BUSY (R24) -/
  busy : Bool
  /-- STATUS.FAULT (R24) -/
  fault : Bool
  /-- STATUS.SEQWARN (R24) -/
  seqwarn : Bool
  /-- STATUS.EOS (R24) -/
  eos : Bool
  /-- STATUS.FCODE (R24) -/
  fcode : Byte
  /-- RESULT (R25) -/
  result : Word
  /-- FINFO bits 7:0; bits 31:8 read 0 (R26) -/
  finfo : Byte
  /-- FPOS (R27) -/
  fpos : Word
  /-- ECS_START (R28) -/
  ecsStart : Word
  /-- ECS_LEN (R29) -/
  ecsLen : Word
  /-- BS_POS, BS_END, BS_BUF, BITCNT (R30 to R32) -/
  bs : BitSource
  /-- RST_K (R33) -/
  rstK : Word
  /-- HTV[0..7] (R34) -/
  htv : Vector Bool 8
  /-- QTV[0..3] (R34) -/
  qtv : Vector Bool 4
  /-- QTP[0..3] (R34) -/
  qtp : Vector Precision 4
  /-- PRED[0..3], two's complement (R35) -/
  pred : Vector Half 4
  /-- HTC[s][i], at index i - 1 (R37) -/
  htc : Vector (Vector Byte 16) 8
  /-- HTS[s][j] (R37) -/
  hts : Vector (Vector Byte 256) 8
  /-- QTE[t][k] (R38) -/
  qte : Vector (Vector Half 64) 4
  /-- DU[k], two's complement (R39) -/
  du : Vector Half 64
  /-- BLK[n], two's complement (R40) -/
  blk : Vector Word 64
  /-- SAMPLE[n] (R41) -/
  sample : Vector Byte 64
  /-- ECS[a] (R42) -/
  ecs : Memory
  /-- What is still to happen: the schedule. The model's own. [log 1] -/
  pending : List Event
  /-- The word the last HostRead returned. The model's own. [log 9] -/
  reply : Word
  /-- How many free values have been drawn. The model's own. [log 7] -/
  draws : Nat
  deriving DecidableEq, Repr

/-- The state right after a reset whose storage contents are draw `d` (R46): every register at the value of R46's
table, every storage cell and CMDLATCH at a free value. The size of the ECS buffer and the model's own fields are
given. -/
def State.afterReset (lastWord : BitVec 22) (d : Nat) (pending : List Event) (reply : Word) (draws : Nat) : State where
  ext := false
  cmdLatch := Config.resetCmdLatch d
  busy := false
  fault := false
  seqwarn := false
  eos := false
  fcode := 0#8
  result := 0#32
  finfo := 0#8
  fpos := 0#32
  ecsStart := 0#32
  ecsLen := 0#32
  bs := ⟨0#32, 0#32, 0#8, 0#4, 0#32⟩
  rstK := 0#32
  htv := Vector.replicate 8 false
  qtv := Vector.replicate 4 false
  qtp := Vector.replicate 4 .eight
  pred := Vector.replicate 4 0#16
  htc := Vector.ofFn fun s => Vector.ofFn fun i => Config.resetHtc d s.val i.val
  hts := Vector.ofFn fun s => Vector.ofFn fun j => Config.resetHts d s.val j.val
  qte := Vector.ofFn fun t => Vector.ofFn fun k => Config.resetQte d t.val k.val
  du := Vector.ofFn fun k => Config.resetDu d k.val
  blk := Vector.ofFn fun n => Config.resetBlk d n.val
  sample := Vector.ofFn fun n => Config.resetSample d n.val
  ecs := ⟨[], Config.resetEcs d, lastWord⟩
  pending := pending
  reply := reply
  draws := draws

/-- The machine right after power-on reset where ECS_BUF_BYTES is stated to be `size`, a multiple of 4 in [4, 2^24]
(R6): contents of draw 0, nothing scheduled. [log 1, 3, 4, 9] -/
def State.resetSized (size : Nat) : State := State.afterReset (BitVec.ofNat 22 (size / 4 - 1)) 0 [] 0#32 1

/-- The machine right after power-on reset where no size is stated (R6): a buffer of 65536 bytes. -/
def State.reset : State := State.resetSized Config.ecsBufDefault

end Sys2Proof.Machine
end

