-- ==== Sys2Proof/Machine/Flags.lean ====
section
/-! DEFINITION. Sys2Proof/Machine/Flags.lean: the fault codes (60_exceptions.md R221) and the registers that are made of
flags and fields: STATUS (10_state.md R24), BS_BUF (R31), TBL_VALID (R34). -/

namespace Sys2Proof.Machine

/-- FCODE of a fault kind (R221). -/
def FaultKind.code : FaultKind → Byte
  | .illegalCommand => 0x01#8
  | .tableMissing => 0x02#8
  | .malformedTable => 0x03#8
  | .malformedBitStream => 0x04#8
  | .invalidSize => 0x05#8
  | .overrun => 0x06#8
  | .truncated => 0x07#8
  | .missingRestart => 0x08#8
  | .badWindow => 0x09#8

/-- A word from flags: bit `k` is flag `k` of the list, the first being bit 0. -/
def flagBits : List Bool → Nat
  | [] => 0
  | b :: bs => b.toNat + 2 * flagBits bs

/-- STATUS (R24): BUSY bit 0, FAULT bit 1, SEQWARN bit 2, EOS bit 3, FCODE bits 15:8, the rest 0. -/
def statusWord (s : State) : Word :=
  BitVec.ofNat 32 (flagBits [s.busy, s.fault, s.seqwarn, s.eos] + s.fcode.toNat * 2 ^ 8)

/-- BS_BUF (R31): CUR bits 7:0, NBITS bits 11:8, the rest 0. -/
def bsBufWord (s : State) : Word :=
  BitVec.ofNat 32 (s.bs.cur.toNat + s.bs.nbits.toNat * 2 ^ 8)

/-- QTP as a bit: 1 for 16-bit precision (R34). -/
def precIsSixteen : Precision → Bool
  | .eight => false
  | .sixteen => true

/-- TBL_VALID (R34): HTV bits 7:0, QTV bits 11:8, QTP bits 15:12, the rest 0. -/
def tblValidWord (s : State) : Word :=
  BitVec.ofNat 32 (flagBits (s.htv.toList ++ s.qtv.toList ++ s.qtp.toList.map precIsSixteen))

end Sys2Proof.Machine
end

