-- ==== Sys2Proof/Machine/Ops.lean ====
section
/-! DEFINITION. Sys2Proof/Machine/Ops.lean: the named operations over the ECS buffer and the state: reading and writing a
byte, taking a fault (60_exceptions.md R226, R227) and returning from one (R230), issuing and completing a command
(40_command_cycle.md R100, R101), and the reset event (70 R240). -/

namespace Sys2Proof.Machine

/-! ### The ECS buffer -/

/-- ECS_BUF_BYTES (00_scope.md R6): the buffer has the offsets 0 .. size - 1 (20_memory.md R60). [log 3] -/
def Memory.size (m : Memory) : Nat := 4 * m.lastWord.toNat + 4

/-- What an unlisted address reads as: the content of the cell after the last reset (10_state.md R46). [log 4] -/
def Memory.unlisted (m : Memory) (a : Nat) : Byte := BitVec.ofNat 8 (m.init >>> (8 * a))

/-- Canonical form of the cells from address `lo` up: addresses strictly rising, inside the buffer, no entry equal to
what an unlisted address reads as. -/
def Memory.cellsWf (m : Memory) : Nat → List Host.Cell → Bool
  | _, [] => true
  | lo, (a, b) :: rest =>
    decide (lo ≤ a) && decide (a < m.size) && (b != m.unlisted a) && m.cellsWf (a + 1) rest

/-- The memory is in canonical form. -/
def Memory.wf (m : Memory) : Bool := m.cellsWf 0 m.cells

/-- The listed byte at an address of a rising list. -/
def findCell : List Host.Cell → Nat → Option Byte
  | [], _ => none
  | (k, b) :: rest, a => if a < k then none else if a = k then some b else findCell rest a

/-- ECS[a] (R42). -/
def Memory.read (m : Memory) (a : Nat) : Byte := (findCell m.cells a).getD (m.unlisted a)

/-- List `b` at `a` before `rest`, unless it is what an unlisted address reads as. -/
def putCell (m : Memory) (a : Nat) (b : Byte) (rest : List Host.Cell) : List Host.Cell :=
  if b = m.unlisted a then rest else (a, b) :: rest

/-- The cells after a write of `b` at `a`. -/
def storeCell (m : Memory) (a : Nat) (b : Byte) : List Host.Cell → List Host.Cell
  | [] => putCell m a b []
  | (k, c) :: rest =>
    if a < k then putCell m a b ((k, c) :: rest)
    else if a = k then putCell m a b rest
    else (k, c) :: storeCell m a b rest

/-- ECS[a] <- b (20_memory.md R66). -/
def Memory.write (m : Memory) (a : Nat) (b : Byte) : Memory := { m with cells := storeCell m a b m.cells }

/-! ### Faults -/

/-- `raise F` (R226): record the first fault, with OPC of the latched word and the BS_POS `s0` of the command's start. -/
def raise (k : FaultKind) (s0 : Word) (s : State) : State :=
  if s.fault then s
  else { s with fault := true, fcode := k.code, finfo := opcodeOf s.cmdLatch, fpos := s0 }

/-- A stream fault of a command begun in `s` (R227): the record, and free values in BS_POS, BS_BUF and BITCNT. [log 7] -/
def streamFault (k : FaultKind) (s : State) : State :=
  { raise k s.bs.pos s with
    bs := ⟨Config.faultPos s.draws, s.bs.stop, Config.faultCur s.draws, Config.faultNbits s.draws,
      Config.faultBitcnt s.draws⟩,
    draws := s.draws + 1 }

/-- A stream fault of a DU_DECODE with predictor `p` begun in `s` (R227): free values in DU and PRED[p] too. [log 7] -/
def duFault (k : FaultKind) (p : Fin 4) (s : State) : State :=
  { streamFault k s with
    du := Vector.ofFn fun i => Config.faultDu s.draws i.val,
    pred := s.pred.set p.val (Config.faultPred s.draws) }

/-- The return from a fault (R230): FAULT, FCODE, FINFO and FPOS to 0. -/
def clearFault (s : State) : State :=
  { s with fault := false, fcode := 0#8, finfo := 0#8, fpos := 0#32 }

/-! ### Predictors -/

/-- PRED[0..3] <- 0 (45_scan_decode.md R196). -/
def clearPreds (s : State) : State := { s with pred := Vector.replicate 4 0#16 }

/-! ### The command handshake and reset -/

/-- A write of `w` to CMD while BUSY = 0 (R100). -/
def issue (w : Word) (s : State) : State := { s with cmdLatch := w, busy := true }

/-- The end of the engine step: STATUS.BUSY <- 0 (R101). -/
def complete (s : State) : State := { s with busy := false }

/-- The platform's reset (R240): a fresh draw of the storage contents; a command in flight is abandoned. The buffer's
size is no state of the block (R20), the schedule and the host's last reply are not the block's: they stay. -/
def resetBlock (s : State) : State := State.afterReset s.ecs.lastWord s.draws s.pending s.reply (s.draws + 1)

end Sys2Proof.Machine
end

