-- ==== Sys2Proof/Machine/Stream.lean ====
section
/-! DEFINITION. Sys2Proof/Machine/Stream.lean: the bit source's functions scanAt, readBit and readBits (41_bitsource.md R111 to
R113) over the ECS buffer. -/

namespace Sys2Proof.Machine

/-- Why a stream function ends early: it raises a fault of the spec, or the model stops because the engine would
read outside the ECS buffer. [log 11] -/
inductive StreamStop where
  | raise (k : FaultKind)
  | outside
  deriving DecidableEq, Repr

/-- What scanAt finds (R111): Data(b, q), Marker(x, m, q) or End. -/
inductive Scan where
  | data (b : Byte) (q : Nat)
  | marker (x : Byte) (m q : Nat)
  | endOfWindow
  deriving DecidableEq, Repr

/-- MemRead(a, 1) (20_memory.md R64): one byte of the ECS buffer, which has offsets 0 .. ECS_BUF_BYTES - 1 only. -/
def memRead (m : Memory) (a : Nat) : Except StreamStop Byte :=
  if a < m.size then .ok (m.read a) else .error .outside

/-- scanAt (R111) at offset `p` when `left` bytes of the window are left there, that is `left = BS_END - p`. -/
def scanFrom (m : Memory) : Nat → Nat → Except StreamStop Scan
  | 0, _ => .ok .endOfWindow
  | left + 1, p =>
    match memRead m p with
    | .error e => .error e
    | .ok b =>
      if b ≠ 0xFF#8 then .ok (.data b (p + 1))
      else if left = 0 then .ok .endOfWindow
      else
        match memRead m (p + 1) with
        | .error e => .error e
        | .ok n =>
          if n = 0x00#8 then .ok (.data 0xFF#8 (p + 2))
          else if n = 0xFF#8 then scanFrom m left (p + 1)
          else .ok (.marker n p (p + 2))

/-- scanAt(BS_POS) (R111): the window is the bytes from BS_POS up to BS_END. -/
def scanAtPos (m : Memory) (b : BitSource) : Except StreamStop Scan :=
  scanFrom m (b.stop.toNat - b.pos.toNat) b.pos.toNat

/-- The bit source with a byte in its buffer: as it is when NBITS > 0, after a byte fetch when NBITS = 0 (R112). -/
def fetchByte (m : Memory) (b : BitSource) : Except StreamStop BitSource :=
  if b.nbits ≠ 0#4 then .ok b
  else
    match scanAtPos m b with
    | .error e => .error e
    | .ok (.data x q) => .ok { b with cur := x, nbits := 8#4, pos := BitVec.ofNat 32 q }
    | .ok (.marker _ _ _) => .error (.raise .truncated)
    | .ok .endOfWindow => .error (.raise .truncated)

/-- Deliver CUR[NBITS - 1] (R112). -/
def takeBit (b : BitSource) : Bool × BitSource :=
  (b.cur.getLsbD (b.nbits.toNat - 1), { b with nbits := b.nbits - 1#4, bitcnt := b.bitcnt + 1#32 })

/-- readBit() (R112). -/
def readBit (m : Memory) (b : BitSource) : Except StreamStop (Bool × BitSource) :=
  match fetchByte m b with
  | .error e => .error e
  | .ok b => .ok (takeBit b)

/-- readBits(n) (R113) with `v` the value read so far. -/
def readBitsFrom (m : Memory) : Nat → Nat → BitSource → Except StreamStop (Nat × BitSource)
  | 0, v, b => .ok (v, b)
  | n + 1, v, b =>
    match readBit m b with
    | .error e => .error e
    | .ok (bit, b') => readBitsFrom m n (2 * v + bit.toNat) b'

/-- readBits(n) (R113). -/
def readBits (m : Memory) (n : Nat) (b : BitSource) : Except StreamStop (Nat × BitSource) := readBitsFrom m n 0 b

/-- The end of a BS_READ or HUF_DECODE begun in `s` whose stream functions ended early (R227). -/
def endStream (e : StreamStop) (s : State) : Host.Outcome State Fault Refusal :=
  match e with
  | .raise k => .next (streamFault k s)
  | .outside => .fault .ecsOutsideBuffer

end Sys2Proof.Machine
end

