-- ==== Sys2Proof/Machine/BitCommands.lean ====
section
/-! DEFINITION. Sys2Proof/Machine/BitCommands.lean: BS_INIT, BS_READ, BS_ALIGN and BS_PEEK (41_bitsource.md R114 to R117). -/

namespace Sys2Proof.Machine

/-- ECS_START and ECS_LEN give a window inside the buffer; the sums are of unbounded integers (R114). -/
def windowFits (s : State) : Bool :=
  decide (s.ecsStart.toNat ≤ s.ecs.size) &&
    decide (s.ecsLen.toNat ≤ s.ecs.size - s.ecsStart.toNat)

/-- What BS_INIT clears whatever the window (R114), with `bs` the new bit source. -/
def initialised (bs : BitSource) (s : State) : State :=
  { clearPreds (clearFault s) with seqwarn := false, eos := false, rstK := 0#32, bs := bs }

/-- BS_INIT (R114). -/
def execBsInit (s : State) : Host.Outcome State Fault Refusal :=
  .next (if windowFits s then
      initialised ⟨s.ecsStart, s.ecsStart + s.ecsLen, 0#8, 0#4, 0#32⟩ s
    else
      raise .badWindow s.bs.pos (initialised ⟨0#32, 0#32, 0#8, 0#4, 0#32⟩ s))

/-- BS_READ N (R115). A count outside 1..16 has only illegal words, which raise IllegalCommand (R90). [log 15] -/
def execBsRead (n : Fin 32) (s : State) : Host.Outcome State Fault Refusal :=
  if 1 ≤ n.val ∧ n.val ≤ 16 then
    match readBits s.ecs n.val s.bs with
    | .ok (v, b) => .next { s with bs := b, result := BitVec.ofNat 32 v }
    | .error e => endStream e s
  else .next (raise .illegalCommand s.bs.pos s)

/-- BS_ALIGN (R116): NBITS <- 0. -/
def execBsAlign (s : State) : Host.Outcome State Fault Refusal :=
  .next { s with bs := { s.bs with nbits := 0#4 } }

/-- RESULT of BS_PEEK (R117). -/
def peekResult : Scan → Word
  | .marker x _ _ => 0x100#32 ||| x.setWidth 32
  | .endOfWindow => 0x200#32
  | .data _ _ => 0x000#32

/-- BS_PEEK (R117). -/
def execBsPeek (s : State) : Host.Outcome State Fault Refusal :=
  match scanAtPos s.ecs s.bs with
  | .ok r => .next { s with result := peekResult r }
  | .error e => endStream e s

end Sys2Proof.Machine
end

