-- ==== Sys2Proof/Machine/Canon.lean ====
section
/-! DEFINITION. Sys2Proof/Machine/Canon.lean: the canonical code of a Huffman slot, when a slot is malformed, and the
one-symbol walk (42_huffman.md R141, R142, R145). -/

namespace Sys2Proof.Machine

/-- One symbol position of canon(s): LEN, CODE and SYM (R141). -/
structure CodeEntry where
  len : Nat
  code : Nat
  sym : Byte
  deriving DecidableEq, Repr

/-- A slot's HTS symbol at position `k` (10_state.md R37). A well-formed slot has no position at or above 256 (R142);
there 0 stands. [log 12] -/
def symAt (syms : Vector Byte 256) (k : Nat) : Byte := syms.getD k 0#8

/-- `n` codes of length `len` from code value `code` and symbol position `k` on (R141's inner loop). -/
def codesOfLen (syms : Vector Byte 256) (len : Nat) : Nat → Nat → Nat → List CodeEntry
  | 0, _, _ => []
  | n + 1, code, k => ⟨len, code, symAt syms k⟩ :: codesOfLen syms len n (code + 1) (k + 1)

/-- The codes of length `len` and longer, given their counts (R141's outer loop). -/
def canonFrom (syms : Vector Byte 256) : List Byte → Nat → Nat → Nat → List CodeEntry
  | [], _, _, _ => []
  | c :: cs, len, code, k =>
    codesOfLen syms len c.toNat code k ++ canonFrom syms cs (len + 1) (2 * (code + c.toNat)) (k + c.toNat)

/-- canon(s) (R141), for the slot with counts L[1..16] and symbols `syms`. -/
def canon (counts : Vector Byte 16) (syms : Vector Byte 256) : List CodeEntry :=
  canonFrom syms counts.toList 1 0 0

/-- N, the sum of the counts (R141, R142). -/
def countSum : List Byte → Nat
  | [] => 0
  | c :: cs => c.toNat + countSum cs

/-- The sum of L[i] · 2^(16 - i) over the counts from the one whose weight 2^(16 - i) is `2 ^ e` down (R142). -/
def kraftFrom : Nat → List Byte → Nat
  | _, [] => 0
  | e, c :: cs => c.toNat * 2 ^ e + kraftFrom (e - 1) cs

/-- KRAFT(s) (R142). -/
def kraft (counts : Vector Byte 16) : Nat := kraftFrom 15 counts.toList

/-- The slot's contents are malformed (R142). -/
def malformedTable (counts : Vector Byte 16) : Bool :=
  decide (256 < countSum counts.toList) || decide (65536 < kraft counts)

/-- Some code continues the prefix `c` of length `l` (R145's second test). -/
def continues (table : List CodeEntry) (l c : Nat) : Bool :=
  table.any fun e => decide (l < e.len) && decide (e.code >>> (e.len - l) = c)

/-- The code that is `c` with length `l`, if there is one (R145's first test). -/
def leafAt (table : List CodeEntry) (l c : Nat) : Option CodeEntry :=
  table.find? fun e => decide (e.len = l) && decide (e.code = c)

/-- hufWalk (R145) after `l` bits with prefix `c`, taking at most `fuel` bits. Sixteen suffice, since no LEN exceeds
16: the walk has ended before `fuel` runs out. [log 12] -/
def walkFrom (m : Memory) (table : List CodeEntry) : Nat → Nat → Nat → BitSource → Except StreamStop (Byte × BitSource)
  | 0, _, _, _ => .error (.raise .malformedBitStream)
  | fuel + 1, l, c, b =>
    match readBit m b with
    | .error e => .error e
    | .ok (bit, b') =>
      match leafAt table (l + 1) (2 * c + bit.toNat) with
      | some e => .ok (e.sym, b')
      | none =>
        if continues table (l + 1) (2 * c + bit.toNat) then walkFrom m table fuel (l + 1) (2 * c + bit.toNat) b'
        else .error (.raise .malformedBitStream)

/-- hufWalk(s) (R145). -/
def hufWalk (m : Memory) (table : List CodeEntry) (b : BitSource) : Except StreamStop (Byte × BitSource) :=
  walkFrom m table 16 0 0 b

/-- canon of a slot of the state (R141). -/
def slotCode (s : State) (slot : Fin 8) : List CodeEntry := canon s.htc[slot] s.hts[slot]

end Sys2Proof.Machine
end

