-- ==== Sys2Proof/Machine/HuffmanCommands.lean ====
section
/-! DEFINITION. Sys2Proof/Machine/HuffmanCommands.lean: HT_BUILD and HUF_DECODE (42_huffman.md R143, R146). -/

namespace Sys2Proof.Machine

/-- HTV[slot] <- v (10_state.md R34). -/
def setHtv (slot : Fin 8) (v : Bool) (s : State) : State := { s with htv := s.htv.set slot.val v }

/-- HT_BUILD S (R143). -/
def execHtBuild (slot : Fin 8) (s : State) : Host.Outcome State Fault Refusal :=
  .next (if malformedTable s.htc[slot] then raise .malformedTable s.bs.pos (setHtv slot false s)
    else setHtv slot true s)

/-- HUF_DECODE S (R146). -/
def execHufDecode (slot : Fin 8) (s : State) : Host.Outcome State Fault Refusal :=
  if s.htv[slot] = false then .next (raise .tableMissing s.bs.pos s)
  else
    match hufWalk s.ecs (slotCode s slot) s.bs with
    | .ok (sym, b) => .next { s with bs := b, result := sym.setWidth 32 }
    | .error e => endStream e s

end Sys2Proof.Machine
end

