-- ==== Sys2Proof/Machine/IdctRef.lean ====
section
/-! DEFINITION. Sys2Proof/Machine/IdctRef.lean: the reference inverse DCT IDCT_REF (44_idct.md R182), in exact integer
arithmetic, and IDCT_CORE (R181). Every C(u)·cos((2x+1)uπ/16) is a cos(kπ/16), so that 16·s(y, x) is an integer
combination of the numbers 2·cos(kπ/16). These are the integer combinations of the eight products of √2,
√(2+√2) and √(2+√(2+√2)), held here as a tower of three square roots. [log 10] -/

namespace Sys2Proof.Machine

/-- a + b·√2 -/
structure Surd2 where
  a : Int
  b : Int
  deriving DecidableEq, Repr

/-- a + b·√(2+√2) -/
structure Surd4 where
  a : Surd2
  b : Surd2
  deriving DecidableEq, Repr

/-- a + b·√(2+√(2+√2)), where √(2+√(2+√2)) = 2·cos(π/16) -/
structure Surd8 where
  a : Surd4
  b : Surd4
  deriving DecidableEq, Repr

/-! ### Ring operations, and multiplication by the root of each level -/

def addSurd2 (x y : Surd2) : Surd2 := ⟨x.a + y.a, x.b + y.b⟩
def subSurd2 (x y : Surd2) : Surd2 := ⟨x.a - y.a, x.b - y.b⟩
def mulSurd2 (x y : Surd2) : Surd2 := ⟨x.a * y.a + 2 * (x.b * y.b), x.a * y.b + x.b * y.a⟩
def scaleSurd2 (k : Int) (x : Surd2) : Surd2 := ⟨k * x.a, k * x.b⟩

/-- (2 + √2)·x -/
def radicandSurd2 (x : Surd2) : Surd2 := ⟨2 * x.a + 2 * x.b, 2 * x.b + x.a⟩

def addSurd4 (x y : Surd4) : Surd4 := ⟨addSurd2 x.a y.a, addSurd2 x.b y.b⟩
def subSurd4 (x y : Surd4) : Surd4 := ⟨subSurd2 x.a y.a, subSurd2 x.b y.b⟩
def mulSurd4 (x y : Surd4) : Surd4 :=
  ⟨addSurd2 (mulSurd2 x.a y.a) (radicandSurd2 (mulSurd2 x.b y.b)),
   addSurd2 (mulSurd2 x.a y.b) (mulSurd2 x.b y.a)⟩
def scaleSurd4 (k : Int) (x : Surd4) : Surd4 := ⟨scaleSurd2 k x.a, scaleSurd2 k x.b⟩

/-- (2 + √(2+√2))·x -/
def radicandSurd4 (x : Surd4) : Surd4 :=
  ⟨addSurd2 (scaleSurd2 2 x.a) (radicandSurd2 x.b), addSurd2 (scaleSurd2 2 x.b) x.a⟩

def addSurd8 (x y : Surd8) : Surd8 := ⟨addSurd4 x.a y.a, addSurd4 x.b y.b⟩
def subSurd8 (x y : Surd8) : Surd8 := ⟨subSurd4 x.a y.a, subSurd4 x.b y.b⟩
def scaleSurd8 (k : Int) (x : Surd8) : Surd8 := ⟨scaleSurd4 k x.a, scaleSurd4 k x.b⟩

/-- The integer `k`. -/
def intSurd8 (k : Int) : Surd8 := ⟨⟨⟨k, 0⟩, ⟨0, 0⟩⟩, ⟨⟨0, 0⟩, ⟨0, 0⟩⟩⟩

/-- 2·cos(π/16)·x -/
def rootTimes (x : Surd8) : Surd8 := ⟨radicandSurd4 x.b, x.a⟩

/-! ### Order -/

/-- 0 ≤ a + b·√2: by the signs of a and b, and where they differ by their squares. -/
def nonnegSurd2 (x : Surd2) : Bool :=
  if 0 ≤ x.a then
    if 0 ≤ x.b then true else decide (2 * (x.b * x.b) ≤ x.a * x.a)
  else
    if 0 ≤ x.b then decide (x.a * x.a ≤ 2 * (x.b * x.b)) else false

/-- 0 ≤ a + b·√(2+√2), the same way over the level below. -/
def nonnegSurd4 (x : Surd4) : Bool :=
  let aa := mulSurd2 x.a x.a
  let bb := radicandSurd2 (mulSurd2 x.b x.b)
  if nonnegSurd2 x.a then
    if nonnegSurd2 x.b then true else nonnegSurd2 (subSurd2 aa bb)
  else
    if nonnegSurd2 x.b then nonnegSurd2 (subSurd2 bb aa) else false

/-- 0 ≤ a + b·√(2+√(2+√2)), the same way over the level below. -/
def nonnegSurd8 (x : Surd8) : Bool :=
  let aa := mulSurd4 x.a x.a
  let bb := radicandSurd4 (mulSurd4 x.b x.b)
  if nonnegSurd4 x.a then
    if nonnegSurd4 x.b then true else nonnegSurd4 (subSurd4 aa bb)
  else
    if nonnegSurd4 x.b then nonnegSurd4 (subSurd4 bb aa) else false

/-- The greatest integer not above `z`, when `lo ≤ z < lo + 2 ^ n`: one halving for each bit. -/
def floorFrom (z : Surd8) : Nat → Int → Int
  | 0, lo => lo
  | n + 1, lo =>
    if nonnegSurd8 (subSurd8 z (intSurd8 (lo + 2 ^ n))) then floorFrom z n (lo + 2 ^ n) else floorFrom z n lo

/-- The greatest integer not above `z`, for -2^42 ≤ z < 2^42. A block of 64 values of 32 bits gives |z| ≤ 2^39 + 8. -/
def floorSurd8 (z : Surd8) : Int := floorFrom z 43 (-(2 ^ 42))

/-! ### The transform -/

/-- (2·cos(kπ/16), 2·cos((k+1)π/16)), by 2·cos((k+2)t) = 2·cos(t)·2·cos((k+1)t) - 2·cos(kt). -/
def twoCosPair : Nat → Surd8 × Surd8
  | 0 => (intSurd8 2, ⟨⟨⟨0, 0⟩, ⟨0, 0⟩⟩, ⟨⟨1, 0⟩, ⟨0, 0⟩⟩⟩)
  | k + 1 => let p := twoCosPair k; (p.2, subSurd8 (rootTimes p.2) p.1)

/-- 2·cos(kπ/16), which has period 32 in k. -/
def twoCos (k : Nat) : Surd8 := (twoCosPair (k % 32)).1

/-- The k with C(u)·cos((2x+1)uπ/16) = cos(kπ/16): C(0) = 1/√2 = cos(4π/16). -/
def basisAngle (x u : Nat) : Nat := if u = 0 then 4 else (2 * x + 1) * u

/-- 16·F·(1/4)·C(u)·C(v)·cos((2x+1)uπ/16)·cos((2y+1)vπ/16), by the product formula for two cosines. -/
def idctTerm (f : Int) (y x v u : Nat) : Surd8 :=
  let j := basisAngle x u
  let k := basisAngle y v
  scaleSurd8 f (addSurd8 (twoCos (j + k)) (twoCos (if j ≤ k then k - j else j - k)))

/-- The sum of the terms of R182's double sum at the natural indices from `n` on, `fs` being the F values there. -/
def idctSum (y x : Nat) : Nat → List Word → Surd8
  | _, [] => intSurd8 0
  | n, f :: fs =>
    if f = 0#32 then idctSum y x (n + 1) fs
    else addSurd8 (idctTerm f.toInt y x (n / 8) (n % 8)) (idctSum y x (n + 1) fs)

/-- IDCT_REF(F)[8y + x] (R182): floor(s + 1/2) = floor((16·s + 8) / 16). -/
def idctRef (f : Vector Word 64) (n : Nat) : Int :=
  floorSurd8 (addSurd8 (idctSum (n / 8) (n % 8) 0 f.toList) (intSurd8 8)) / 16

/-- clamp(v, lo, hi) (00_scope.md R8). -/
def clampInt (v lo hi : Int) : Int := min (max v lo) hi

/-- Every |F[i]| ≤ 1024, where R181's accuracy bound holds. -/
def withinAccuracy (f : Vector Word 64) : Bool :=
  f.toList.all fun v => decide (-1024 ≤ v.toInt) && decide (v.toInt ≤ 1024)

/-- IDCT_CORE(F)[n] (R181): any function that gives 0 for the zero block (property 2), is within 1 of IDCT_REF where
every |F[i]| ≤ 1024 (property 3), and any integers elsewhere. Every conforming instance is this one for some
`Config.idctFree`. [log 10] -/
def idctCore (f : Vector Word 64) (n : Nat) : Int :=
  if f.toList.all (· == 0#32) then 0
  else if withinAccuracy f then idctRef f n + clampInt (Config.idctFree f n) (-1) 1
  else Config.idctFree f n

end Sys2Proof.Machine
end

