-- ==== Sys2Proof/Machine/IdctCommand.lean ====
section
/-! DEFINITION. Sys2Proof/Machine/IdctCommand.lean: IDCT, with the level shift and the clamp (44_idct.md R180, R183). -/

namespace Sys2Proof.Machine

/-- clamp(y + 128, 0, 255) as a sample (R183). -/
def sampleOf (y : Int) : Byte := BitVec.ofInt 8 (clampInt (y + 128) 0 255)

/-- IDCT (R180). -/
def execIdct (s : State) : Host.Outcome State Fault Refusal :=
  .next { s with sample := Vector.ofFn fun n => sampleOf (idctCore s.blk n.val) }

end Sys2Proof.Machine
end

