-- ==== Sys2Proof/Machine/Operands.lean ====
section
/-! DEFINITION. Sys2Proof/Machine/Operands.lean: the operand forms: Huffman slots (30_encoding.md R88), size limits and EXTEND
(45_scan_decode.md R190, R191), and the zig-zag tables (43_quant_zigzag.md R160, R161). -/

namespace Sys2Proof.Machine

/-- The DC slot of destination `d`: 2·d + 0 (R88). -/
def dcSlot (d : Fin 4) : Fin 8 := ⟨2 * d.val, by omega⟩

/-- The AC slot of destination `a`: 2·a + 1 (R88). -/
def acSlot (a : Fin 4) : Fin 8 := ⟨2 * a.val + 1, by omega⟩

/-- dcLim (R191). -/
def dcLim (ext : Bool) : Nat := if ext then 15 else 11

/-- acLim (R191). -/
def acLim (ext : Bool) : Nat := if ext then 14 else 10

/-- EXTEND(v, s) (R190). -/
def extend (v s : Nat) : Int :=
  if s = 0 then 0
  else if 2 ^ (s - 1) ≤ v then v
  else (v : Int) - (2 ^ s - 1)

/-- ZZ in flat order (R160): the zig-zag position of natural index 8r + c. -/
def zzTable : List Nat :=
  [0, 1, 5, 6, 14, 15, 27, 28] ++ [2, 4, 7, 13, 16, 26, 29, 42] ++ [3, 8, 12, 17, 25, 30, 41, 43] ++
  [9, 11, 18, 24, 31, 40, 44, 53] ++ [10, 19, 23, 32, 39, 45, 52, 54] ++ [20, 22, 33, 38, 46, 51, 55, 60] ++
  [21, 34, 37, 47, 50, 56, 59, 61] ++ [35, 36, 48, 49, 57, 58, 62, 63]

/-- NAT (R161): the natural index of a zig-zag position. -/
def natTable : List Nat :=
  [0, 1, 8, 16, 9, 2, 3, 10] ++ [17, 24, 32, 25, 18, 11, 4, 5] ++ [12, 19, 26, 33, 40, 48, 41, 34] ++
  [27, 20, 13, 6, 7, 14, 21, 28] ++ [35, 42, 49, 56, 57, 50, 43, 36] ++ [29, 22, 15, 23, 30, 37, 44, 51] ++
  [58, 59, 52, 45, 38, 31, 39, 46] ++ [53, 60, 61, 54, 47, 55, 62, 63]

/-- ZZ[n] for natural index n = 8r + c (R160). -/
def zz (n : Fin 64) : Fin 64 := Fin.ofNat 64 (zzTable.getD n.val 0)

/-- NAT[k] for zig-zag position k (R161). -/
def natIndex (k : Fin 64) : Fin 64 := Fin.ofNat 64 (natTable.getD k.val 0)

end Sys2Proof.Machine
end

