-- ==== Sys2Proof/Machine/QuantCommands.lean ====
section
/-! DEFINITION. Sys2Proof/Machine/QuantCommands.lean: QT_SET and DEQUANT (43_quant_zigzag.md R163, R164). -/

namespace Sys2Proof.Machine

/-- A table's entries as QT_SET leaves them: bits 7:0 only at 8-bit precision (R163). -/
def committed (p : Precision) (q : Vector Half 64) : Vector Half 64 :=
  match p with
  | .eight => q.map (· &&& 0xFF#16)
  | .sixteen => q

/-- QT_SET T, PREC (R163). -/
def execQtSet (qt : Fin 4) (prec : Precision) (s : State) : Host.Outcome State Fault Refusal :=
  .next { s with
    qte := s.qte.set qt.val (committed prec s.qte[qt]),
    qtp := s.qtp.set qt.val prec,
    qtv := s.qtv.set qt.val true }

/-- sext_32(DU[k]) · zext_32(QTE[T][k]) (R164). -/
def scaled (d q : Half) : Word := BitVec.ofInt 32 (d.toInt * q.toNat)

/-- BLK after DEQUANT (R164): natural index n takes the coefficient and the entry at zig-zag position ZZ[n]. -/
def dequantized (du q : Vector Half 64) : Vector Word 64 :=
  Vector.ofFn fun n => scaled du[zz n] q[zz n]

/-- DEQUANT T (R164). -/
def execDequant (qt : Fin 4) (s : State) : Host.Outcome State Fault Refusal :=
  .next (if s.qtv[qt] then { s with blk := dequantized s.du s.qte[qt] } else raise .tableMissing s.bs.pos s)

end Sys2Proof.Machine
end

