-- ==== Sys2Proof/Machine/ScanCommands.lean ====
section
/-! DEFINITION. Sys2Proof/Machine/ScanCommands.lean: DU_DECODE, PRED_RESET and BS_RESTART (45_scan_decode.md R192, R196, R197). -/

namespace Sys2Proof.Machine

/-- readBits(n), but no bits and the value 0 for a size of 0 (R190, R192). -/
def readMagnitude (m : Memory) (n : Nat) (b : BitSource) : Except StreamStop (Nat × BitSource) :=
  if n = 0 then .ok (0, b) else readBits m n b

/-- Path (a) of R192: DIFF, and the bit source after it. -/
def dcPath (m : Memory) (table : List CodeEntry) (lim : Nat) (b : BitSource) : Except StreamStop (Int × BitSource) :=
  match hufWalk m table b with
  | .error e => .error e
  | .ok (sym, b1) =>
    if lim < sym.toNat then .error (.raise .invalidSize)
    else
      match readMagnitude m sym.toNat b1 with
      | .error e => .error e
      | .ok (v, b2) => .ok (extend v sym.toNat, b2)

/-- What path (b) does after the AC symbol RS at cursor `k` (R192, R193). -/
inductive AcAction where
  /-- The data unit is complete. -/
  | done
  /-- Go on with the cursor at `k`. -/
  | skipTo (k : Nat)
  /-- A coefficient of `size` bits at position `k`, which is at most 63. -/
  | coefficient (k : Fin 64) (size : Nat)
  | fail (f : FaultKind)
  deriving DecidableEq, Repr

/-- The class of an AC symbol at cursor `k`, in R192's order of tests (R193). -/
def acAction (lim k : Nat) (rs : Byte) : AcAction :=
  if rs = 0x00#8 then .done
  else if rs = 0xF0#8 then
    if 64 < k + 16 then .fail .overrun else .skipTo (k + 16)
  else if rs.toNat % 16 = 0 ∨ lim < rs.toNat % 16 then .fail .invalidSize
  else if h : k + rs.toNat / 16 < 64 then .coefficient ⟨k + rs.toNat / 16, h⟩ (rs.toNat % 16)
  else .fail .overrun

/-- Path (b) of R192 from cursor `k`, taking at most `fuel` symbols. From k = 1 on 63 suffice, since every symbol moves
the cursor: the loop has ended before `fuel` runs out. [log 12] -/
def acLoop (m : Memory) (table : List CodeEntry) (lim : Nat) :
    Nat → Nat → Vector Half 64 → BitSource → Except StreamStop (Vector Half 64 × BitSource)
  | 0, _, du, b => .ok (du, b)
  | fuel + 1, k, du, b =>
    if 64 ≤ k then .ok (du, b)
    else
      match hufWalk m table b with
      | .error e => .error e
      | .ok (rs, b1) =>
        match acAction lim k rs with
        | .done => .ok (du, b1)
        | .skipTo k' => acLoop m table lim fuel k' du b1
        | .fail f => .error (.raise f)
        | .coefficient j size =>
          match readBits m size b1 with
          | .error e => .error e
          | .ok (v, b2) => acLoop m table lim fuel (j.val + 1) (du.set j.val (BitVec.ofInt 16 (extend v size))) b2

/-- DU with DU[0] the new predictor and DU[1..63] zero, as path (a) leaves it (R192). -/
def dcUnit (p : Half) : Vector Half 64 := (Vector.replicate 64 0#16).set 0 p

/-- PRED[P] after path (a): wrap_s16(PRED[P] + DIFF) (R192). -/
def nextPred (p : Half) (diff : Int) : Half := p + BitVec.ofInt 16 diff

/-- Paths (a) and (b) of R192: the new PRED[P], DU and bit source. -/
def decodeUnit (s : State) (pred dct act : Fin 4) (dcOnly : Bool) :
    Except StreamStop (Half × Vector Half 64 × BitSource) :=
  match dcPath s.ecs (slotCode s (dcSlot dct)) (dcLim s.ext) s.bs with
  | .error e => .error e
  | .ok (diff, b1) =>
    let p := nextPred s.pred[pred] diff
    if dcOnly then .ok (p, dcUnit p, b1)
    else
      match acLoop s.ecs (slotCode s (acSlot act)) (acLim s.ext) 63 1 (dcUnit p) b1 with
      | .error e => .error e
      | .ok (du, b2) => .ok (p, du, b2)

/-- The end of a DU_DECODE begun in `s` whose decoding ended early (60_exceptions.md R227). -/
def endUnit (e : StreamStop) (p : Fin 4) (s : State) : Host.Outcome State Fault Refusal :=
  match e with
  | .raise k => .next (duFault k p s)
  | .outside => .fault .ecsOutsideBuffer

/-- The table checks of R192: the DC slot, and the AC slot unless DCONLY. -/
def tablesReady (s : State) (dct act : Fin 4) (dcOnly : Bool) : Bool :=
  s.htv[dcSlot dct] && (dcOnly || s.htv[acSlot act])

/-- DU_DECODE P, D, A, DCONLY (R192). -/
def execDuDecode (pred dct act : Fin 4) (dcOnly : Bool) (s : State) : Host.Outcome State Fault Refusal :=
  if tablesReady s dct act dcOnly then
    match decodeUnit s pred dct act dcOnly with
    | .ok (p, du, b) =>
      .next { s with pred := s.pred.set pred.val p, du := du, bs := b, result := b.bitcnt - s.bs.bitcnt }
    | .error e => endUnit e pred s
  else .next (raise .tableMissing s.bs.pos s)

/-- PRED_RESET (R196). -/
def execPredReset (s : State) : Host.Outcome State Fault Refusal := .next (clearPreds s)

/-- The marker that ends interval k: 0xD0 + (RST_K mod 8) (10_state.md R33). -/
def expectedRst (k : Word) : Byte := BitVec.ofNat 8 (0xD0 + k.toNat % 8)

/-- BS_RESTART's state after the alignment, by what scanAt found (R197); `s` is aligned. -/
def restartOn (r : Scan) (s : State) : State :=
  match r with
  | .marker x _ q =>
    if 0xD0#8 ≤ x ∧ x ≤ 0xD7#8 then
      { clearPreds s with
        seqwarn := s.seqwarn || (x != expectedRst s.rstK),
        bs := { s.bs with pos := BitVec.ofNat 32 q },
        rstK := s.rstK + 1#32,
        result := 0x100#32 ||| x.setWidth 32 }
    else { s with eos := true, result := 0x100#32 ||| x.setWidth 32 }
  | .endOfWindow => { s with eos := true, result := 0x200#32 }
  | .data _ _ => raise .missingRestart s.bs.pos s

/-- BS_RESTART (R197). -/
def execBsRestart (s : State) : Host.Outcome State Fault Refusal :=
  let aligned := { s with bs := { s.bs with nbits := 0#4 } }
  match scanAtPos s.ecs aligned.bs with
  | .ok r => .next (restartOn r aligned)
  | .error e => endStream e s

end Sys2Proof.Machine
end

