-- ==== Sys2Proof/Machine/Dispatch.lean ====
section
/-! DEFINITION. Sys2Proof/Machine/Dispatch.lean: exec, the rule of the opcode map's row for each command (30_encoding.md
R89). What 40_command_cycle.md R101 does around it (blocking, legality, BUSY) is in Machine/Cycle.lean. -/

namespace Sys2Proof.Machine

def exec (i : Instr) (s : State) : Host.Outcome State Fault Refusal :=
  match i with
  | .nop => Sys2Proof.Machine.execNop s
  | .htBuild slot => Sys2Proof.Machine.execHtBuild slot s
  | .qtSet qt prec => Sys2Proof.Machine.execQtSet qt prec s
  | .bsInit => Sys2Proof.Machine.execBsInit s
  | .bsRead n => Sys2Proof.Machine.execBsRead n s
  | .bsAlign => Sys2Proof.Machine.execBsAlign s
  | .bsPeek => Sys2Proof.Machine.execBsPeek s
  | .hufDecode slot => Sys2Proof.Machine.execHufDecode slot s
  | .duDecode pred dct act dcOnly => Sys2Proof.Machine.execDuDecode pred dct act dcOnly s
  | .predReset => Sys2Proof.Machine.execPredReset s
  | .bsRestart => Sys2Proof.Machine.execBsRestart s
  | .dequant qt => Sys2Proof.Machine.execDequant qt s
  | .idct => Sys2Proof.Machine.execIdct s

end Sys2Proof.Machine
end

