-- ==== Sys2Proof/Machine/HostWindow.lean ====
section
/-! DEFINITION. Sys2Proof/Machine/HostWindow.lean: the host's 32-bit accesses to the register window (20_memory.md R61 to R68). -/

namespace Sys2Proof.Machine

/-! ### Packing (R63: little-endian) -/

/-- The word whose byte at offset `o + b` is `f (o + b)`. -/
def packBytes (f : Nat → Byte) (o : Nat) : Word := f (o + 3) ++ f (o + 2) ++ f (o + 1) ++ f o

/-- The word whose 16-bit entries are `f m` (bits 15:0) and `f (m + 1)` (bits 31:16). -/
def packHalves (f : Nat → Half) (m : Nat) : Word := f (m + 1) ++ f m

/-- The byte of `v` at offset `b` in its word. -/
def byteOf (v : Word) (b : Nat) : Byte := v.extractLsb' (8 * b) 8

/-- The 16-bit entry `h` of `v`. -/
def halfOf (v : Word) (h : Nat) : Half := v.extractLsb' (16 * h) 16

/-! ### Storages by window position (R62) -/

/-- Byte `n` of the HTC window: L[n mod 16 + 1] of slot n / 16. -/
def htcByte (s : State) (n : Nat) : Byte := s.htc[Fin.ofNat 8 (n / 16)][Fin.ofNat 16 n]

/-- Byte `n` of the HTS window: symbol n mod 256 of slot n / 256. -/
def htsByte (s : State) (n : Nat) : Byte := s.hts[Fin.ofNat 8 (n / 256)][Fin.ofNat 256 n]

/-- Entry `m` of the QTE window: entry m mod 64 of table m / 64. -/
def qteHalf (s : State) (m : Nat) : Half := s.qte[Fin.ofNat 4 (m / 64)][Fin.ofNat 64 m]

/-- Byte `n` of the SAMPLE window. -/
def sampleByte (s : State) (n : Nat) : Byte := s.sample[Fin.ofNat 64 n]

/-! ### Reads -/

/-- The register at offset `off` (R62's rows below 0x1000). CMD (R23) and the unmapped offsets (R67) read 0. -/
def regWord (s : State) (off : Nat) : Word :=
  match off with
  | 0x000 => Config.idWord
  | 0x004 => BitVec.ofNat 32 s.ext.toNat
  | 0x008 => 0#32
  | 0x00C => statusWord s
  | 0x010 => s.result
  | 0x014 => s.finfo.setWidth 32
  | 0x018 => s.fpos
  | 0x01C => s.ecsStart
  | 0x020 => s.ecsLen
  | 0x024 => s.bs.pos
  | 0x028 => s.bs.stop
  | 0x02C => bsBufWord s
  | 0x030 => s.bs.bitcnt
  | 0x034 => s.rstK
  | 0x038 => tblValidWord s
  | 0x040 => s.pred[0].signExtend 32
  | 0x044 => s.pred[1].signExtend 32
  | 0x048 => s.pred[2].signExtend 32
  | 0x04C => s.pred[3].signExtend 32
  | _ => 0#32

/-- HostRead of an aligned offset of the window while BUSY = 0 (R62, R67). -/
def windowRead (s : State) (off : Nat) : Word :=
  if off < 0x1000 then regWord s off
  else if off < 0x1080 then packBytes (htcByte s) (off - 0x1000)
  else if off < 0x1800 then 0#32
  else if off < 0x2000 then packBytes (htsByte s) (off - 0x1800)
  else if off < 0x2200 then packHalves (qteHalf s) ((off - 0x2000) / 2)
  else if off < 0x3000 then 0#32
  else if off < 0x3100 then s.du[Fin.ofNat 64 ((off - 0x3000) / 4)].signExtend 32
  else if off < 0x3200 then s.blk[Fin.ofNat 64 ((off - 0x3100) / 4)]
  else if off < 0x3240 then packBytes (sampleByte s) (off - 0x3200)
  else if off < 0x10000 then 0#32
  else packBytes s.ecs.read (off - 0x10000)

/-! ### Writes (R66) -/

/-- A write to the register at offset `off`: CTRL keeps bit 0, CMD issues, ECS_START and ECS_LEN store, all others
(read-only or unmapped) ignore it. -/
def regWrite (s : State) (off : Nat) (v : Word) : State :=
  match off with
  | 0x004 => { s with ext := v.getLsbD 0 }
  | 0x008 => issue v s
  | 0x01C => { s with ecsStart := v }
  | 0x020 => { s with ecsLen := v }
  | _ => s

/-- Four bytes of a row from position `i` on. -/
def setBytes {n : Nat} (row : Vector Byte n) (i : Nat) (v : Word) : Vector Byte n :=
  (((row.setIfInBounds i (byteOf v 0)).setIfInBounds (i + 1) (byteOf v 1)).setIfInBounds (i + 2)
    (byteOf v 2)).setIfInBounds (i + 3) (byteOf v 3)

/-- Two entries of a row from position `i` on. -/
def setHalves {n : Nat} (row : Vector Half n) (i : Nat) (v : Word) : Vector Half n :=
  (row.setIfInBounds i (halfOf v 0)).setIfInBounds (i + 1) (halfOf v 1)

/-- HTC word at byte `n` of its window: four counts of slot n / 16, and HTV of that slot to 0. -/
def writeHtc (s : State) (n : Nat) (v : Word) : State :=
  let slot : Fin 8 := Fin.ofNat 8 (n / 16)
  { s with htc := s.htc.set slot.val (setBytes s.htc[slot] (n % 16) v), htv := s.htv.set slot.val false }

/-- HTS word at byte `n` of its window: four symbols of slot n / 256, and HTV of that slot to 0. -/
def writeHts (s : State) (n : Nat) (v : Word) : State :=
  let slot : Fin 8 := Fin.ofNat 8 (n / 256)
  { s with hts := s.hts.set slot.val (setBytes s.hts[slot] (n % 256) v), htv := s.htv.set slot.val false }

/-- QTE word at entry `m` of its window: two entries of table m / 64, and QTV of that table to 0. -/
def writeQte (s : State) (m : Nat) (v : Word) : State :=
  let t : Fin 4 := Fin.ofNat 4 (m / 64)
  { s with qte := s.qte.set t.val (setHalves s.qte[t] (m % 64) v), qtv := s.qtv.set t.val false }

/-- Four bytes of the ECS buffer from `a` on. -/
def Memory.writeWord (m : Memory) (a : Nat) (v : Word) : Memory :=
  (((m.write a (byteOf v 0)).write (a + 1) (byteOf v 1)).write (a + 2) (byteOf v 2)).write (a + 3) (byteOf v 3)

/-- ECS word at byte `a`: four bytes. -/
def writeEcs (s : State) (a : Nat) (v : Word) : State := { s with ecs := s.ecs.writeWord a v }

/-- HostWrite of an aligned offset of the window while BUSY = 0 (R62, R66, R67). SAMPLE and unmapped offsets ignore it. -/
def windowWrite (s : State) (off : Nat) (v : Word) : State :=
  if off < 0x1000 then regWrite s off v
  else if off < 0x1080 then writeHtc s (off - 0x1000) v
  else if off < 0x1800 then s
  else if off < 0x2000 then writeHts s (off - 0x1800) v
  else if off < 0x2200 then writeQte s ((off - 0x2000) / 2) v
  else if off < 0x3000 then s
  else if off < 0x3100 then { s with du := s.du.set (Fin.ofNat 64 ((off - 0x3000) / 4)).val (v.setWidth 16) }
  else if off < 0x3200 then { s with blk := s.blk.set (Fin.ofNat 64 ((off - 0x3100) / 4)).val v }
  else if off < 0x10000 then s
  else writeEcs s (off - 0x10000) v

/-! ### The accesses -/

/-- Why a model refuses an access whatever it holds and does (R61, R67), if it does: `size` is the
ECS buffer's. -/
def accessRefusal (size width off : Nat) : Option Refusal :=
  if width ≠ 32 then some .hostWidth
  else if off % 4 ≠ 0 then some .hostUnaligned
  else if 0x10000 + size ≤ off then some .hostOutsideWindow
  else none

/-- What a read returns while BUSY = 1 (R68): a free value, with STATUS.BUSY reading 1. [log 8] -/
def busyWord (d off : Nat) : Word :=
  if off = 0x00C then Config.busyRead d ||| 1#32 else Config.busyRead d

/-- HostRead(off) (R61, R66, R68). -/
def hostRead (width off : Nat) (s : State) : Host.Outcome State Fault Refusal :=
  match accessRefusal s.ecs.size width off with
  | some r => .refused r
  | none =>
    if s.busy then .next { s with reply := busyWord s.draws off, draws := s.draws + 1 }
    else .next { s with reply := windowRead s off }

/-- HostWrite(off, v) (R61, R66, R68). -/
def hostWrite (width off : Nat) (v : Word) (s : State) : Host.Outcome State Fault Refusal :=
  match accessRefusal s.ecs.size width off with
  | some r => .refused r
  | none => if s.busy then .refused .hostWriteWhileBusy else .next (windowWrite s off v)

end Sys2Proof.Machine
end

