-- ==== Sys2Proof/Machine/Cycle.lean ====
section
/-! DEFINITION. Sys2Proof/Machine/Cycle.lean: the engine step (40_command_cycle.md R101 to R103) and what each event of the
schedule does. -/

namespace Sys2Proof.Machine

/-- The latched command is blocked (R102): a fault is recorded and OPC is neither NOP's nor BS_INIT's. -/
def blocked (s : State) : Bool :=
  s.fault && opcodeOf s.cmdLatch != 0x00#8 && opcodeOf s.cmdLatch != 0x20#8

/-- STATUS.BUSY <- 0 where a command has been performed. -/
def finish : Host.Outcome State Fault Refusal → Host.Outcome State Fault Refusal
  | .next t => .next (complete t)
  | .fault f => .fault f
  | .refused r => .refused r

/-- The engine's one step, enabled when BUSY = 1 (R101). -/
def engineStep (s : State) : Host.Outcome State Fault Refusal :=
  if blocked s then .next (complete s)
  else
    match decode s.cmdLatch with
    | .error _ => .next (complete (raise .illegalCommand s.bs.pos s))
    | .ok i => finish (exec i s)

/-- The engine's turn: its step if it is enabled, nothing otherwise (R101; 93 item 24). -/
def engineTurn (s : State) : Host.Outcome State Fault Refusal :=
  if s.busy then engineStep s else .next s

/-- What an event does. [log 1] -/
def happen (e : Event) (s : State) : Host.Outcome State Fault Refusal :=
  match e with
  | .read width off => hostRead width off s
  | .write width off v => hostWrite width off v s
  | .reset => .next (resetBlock s)
  | .engine => engineTurn s

/-- One step of the schedule: its first event, or the engine's turn where nothing is scheduled. [log 1] -/
def scheduleStep (s : State) : Host.Outcome State Fault Refusal :=
  match s.pending with
  | [] => engineTurn s
  | e :: rest => happen e { s with pending := rest }

/-- `s` with the command of the opcode table's bits `w` issued (R100) and the engine to move next. [log 2] -/
def withCommand (s : State) (nbits w : Nat) : State :=
  { issue (tableWord nbits w) s with pending := .engine :: s.pending }

end Sys2Proof.Machine
end

