-- ==== Sys2Proof/Machine/Step.lean ====
section
/-! DEFINITION. Sys2Proof/Machine/Step.lean: the step of the machine and where a command is placed for it. -/

namespace Sys2Proof.Machine

/-- One step: the next event of the schedule. -/
def step (s : State) : Host.Outcome State Fault Refusal := scheduleStep s

/-- `s` with the command of the opcode table's bits `w` latched, BUSY set and the engine to move next. The block
fetches nothing (20_memory.md R76): this stands for the host's write to CMD. [log 2] -/
def State.withFetchWord (s : State) (nbits w : Nat) : State := withCommand s nbits w

end Sys2Proof.Machine
end

