-- ==== Sys2Proof/Safety.lean ====
section
/-! DEFINITION. Sys2Proof/Safety.lean: the invariant of the machine, whose turn it is, and the reading of the entropy-coded
data as a list of bits, in which the claims about stream commands are stated. -/

namespace Sys2Proof.Machine

/-! ### The invariant -/

/-- What every state of a run keeps. Each part is a rule of the spec about all states between commands. -/
structure State.Inv (s : State) : Prop where
  /-- The ECS buffer's cells are in canonical form. -/
  ecsCanonical : s.ecs.wf = true
  /-- The window lies in the buffer: BS_INIT refuses one that does not (41_bitsource.md R114). -/
  windowInBuffer : s.bs.stop.toNat ≤ s.ecs.size
  /-- BS_POS never exceeds BS_END but after a stream fault (10_state.md R30). -/
  posInWindow : s.fault = false → s.bs.pos.toNat ≤ s.bs.stop.toNat
  /-- Between commands NBITS is in 0..7 but after a stream fault (41_bitsource.md R112). -/
  bufferedBits : s.fault = false → s.bs.nbits.toNat ≤ 7
  /-- Where no fault is recorded FCODE, FINFO and FPOS are 0 (10_state.md R24 to R27). -/
  noRecord : s.fault = false → s.fcode = 0#8 ∧ s.finfo = 0#8 ∧ s.fpos = 0#32
  /-- Where one is, FCODE is a code of the table (60_exceptions.md R221). -/
  recordedCode : s.fault = true → ∃ k : FaultKind, s.fcode = k.code
  /-- A slot with HTV = 1 is well-formed (42_huffman.md R143). -/
  builtTables : ∀ slot : Fin 8, s.htv[slot] = true → malformedTable s.htc[slot] = false
  /-- A table committed at 8-bit precision holds values 0..255 (43_quant_zigzag.md R163). -/
  committedTables : ∀ t : Fin 4, s.qtv[t] = true → s.qtp[t] = .eight → ∀ k : Fin 64, s.qte[t][k].toNat ≤ 255

/-- The engine moves next, and the schedule is `rest` after it. -/
def State.engineNext (s : State) (rest : List Event) : Prop :=
  s.pending = .engine :: rest ∨ (s.pending = [] ∧ rest = [])

/-! ### What a fault leaves (60_exceptions.md R223, R227) -/

/-- `s` with fault `k` recorded: FAULT, FCODE, FINFO (OPC of the latched word) and FPOS (BS_POS of `s`). -/
def State.recorded (s : State) (k : FaultKind) : State :=
  { s with fault := true, fcode := k.code, finfo := opcodeOf s.cmdLatch, fpos := s.bs.pos }

/-- `t` is `s` after a stream fault `k`: the record, any BS_POS, BS_BUF and BITCNT, and nothing else changed. -/
def State.streamFaulted (s : State) (k : FaultKind) (t : State) : Prop :=
  t = { s.recorded k with bs := { t.bs with stop := s.bs.stop }, draws := t.draws }

/-- `t` is `s` after a stream fault `k` of a DU_DECODE with predictor `p`: any DU and PRED[p] as well. -/
def State.unitFaulted (s : State) (k : FaultKind) (p : Fin 4) (t : State) : Prop :=
  t = { s.recorded k with
    bs := { t.bs with stop := s.bs.stop }, draws := t.draws, du := t.du, pred := s.pred.set p.val t.pred[p] }

/-! ### The entropy-coded data as bits (00_scope.md R7, 20_memory.md R65) -/

/-- The `n` low bits of `v`, most significant first. -/
def bitsOf (n v : Nat) : List Bool := (List.range n).map fun i => v.testBit (n - 1 - i)

/-- The value of a bit string, most significant bit first. -/
def valueOf (bits : List Bool) : Nat := bits.foldl (fun v b => 2 * v + b.toNat) 0

/-- The data bytes at the head of a byte string that starts at offset `p`, each with the offset just past it
(41_bitsource.md R111): stuffing removed, fill bytes dropped, up to the first marker, a lone 0xFF at the end, or the
end. -/
def dataFrom : Nat → List Byte → List (Byte × Nat)
  | _, [] => []
  | p, b :: rest =>
    if b ≠ 0xFF#8 then (b, p + 1) :: dataFrom (p + 1) rest
    else
      match rest with
      | [] => []
      | n :: rest' =>
        if n = 0x00#8 then (0xFF#8, p + 2) :: dataFrom (p + 2) rest'
        else if n = 0xFF#8 then dataFrom (p + 1) (n :: rest')
        else []

/-- The bytes of the window that the bit source has not examined: ECS[BS_POS .. BS_END - 1] (R110). -/
def windowBytes (m : Memory) (b : BitSource) : List Byte :=
  (List.range' b.pos.toNat (b.stop.toNat - b.pos.toNat)).map m.read

/-- The data bytes still to be fetched, each with the offset just past it. -/
def windowData (m : Memory) (b : BitSource) : List (Byte × Nat) := dataFrom b.pos.toNat (windowBytes m b)

/-- The bits still to be delivered: those left in CUR, then those of the data bytes ahead (R112, R118). -/
def unreadBits (m : Memory) (b : BitSource) : List Bool :=
  bitsOf b.nbits.toNat b.cur.toNat ++ (windowData m b).flatMap fun x => bitsOf 8 x.1.toNat

/-- How many bytes are fetched while `n` bits are delivered: none while CUR has them, then one for each eight begun
(R112). -/
def BitSource.fetched (b : BitSource) (n : Nat) : Nat := (n - b.nbits.toNat + 7) / 8

/-- `b'` is the bit source `b` after the delivery of `n` bits, every register of it (R112, R118, 10_state.md R30 to R32). -/
structure BitSource.Delivered (m : Memory) (b : BitSource) (n : Nat) (b' : BitSource) : Prop where
  /-- BS_END stays. -/
  stop : b'.stop = b.stop
  /-- BITCNT counts the bits. -/
  count : b'.bitcnt = b.bitcnt + BitVec.ofNat 32 n
  /-- NBITS is what is left of the bits that were buffered and fetched. -/
  left : b'.nbits.toNat + n = b.nbits.toNat + 8 * b.fetched n
  /-- Where no byte was fetched, BS_POS and CUR stay. -/
  kept : b.fetched n = 0 → b'.pos = b.pos ∧ b'.cur = b.cur
  /-- Otherwise CUR is the last data byte fetched, and BS_POS is just past it: no fill byte and no marker after it is
  passed. -/
  last : b.fetched n ≠ 0 → (windowData m b)[b.fetched n - 1]? = some (b'.cur, b'.pos.toNat)

/-- A code as bits, first bit first (42_huffman.md R141). -/
def CodeEntry.bits (e : CodeEntry) : List Bool := bitsOf e.len e.code

/-! ### A data unit read from a list of bits (45_scan_decode.md R192) -/

/-- One symbol at the head of the bits, or why there is none (42_huffman.md R145). -/
def readSymbol (table : List CodeEntry) (bits : List Bool) : Except FaultKind (Byte × List Bool) :=
  match table.find? fun e => e.bits.isPrefixOf bits with
  | some e => .ok (e.sym, bits.drop e.len)
  | none =>
    if bits = [] ∨ table.any (fun e => bits.isPrefixOf e.bits) = true then .error .truncated
    else .error .malformedBitStream

/-- `n` bits at the head of the bits as a number (41_bitsource.md R113). -/
def readNumber (n : Nat) (bits : List Bool) : Except FaultKind (Nat × List Bool) :=
  if n ≤ bits.length then .ok (valueOf (bits.take n), bits.drop n) else .error .truncated

/-- Path (b) of R192 on bits, from cursor `k`. -/
def readAcPath (table : List CodeEntry) (lim : Nat) :
    Nat → Nat → Vector Half 64 → List Bool → Except FaultKind (Vector Half 64 × List Bool)
  | 0, _, du, bits => .ok (du, bits)
  | fuel + 1, k, du, bits =>
    if 64 ≤ k then .ok (du, bits)
    else
      match readSymbol table bits with
      | .error f => .error f
      | .ok (rs, bits1) =>
        let run := rs.toNat / 16
        let size := rs.toNat % 16
        if rs = 0x00#8 then .ok (du, bits1)
        else if rs = 0xF0#8 then
          if k + 16 > 64 then .error .overrun else readAcPath table lim fuel (k + 16) du bits1
        else if size = 0 ∨ size > lim then .error .invalidSize
        else if k + run > 63 then .error .overrun
        else
          match readNumber size bits1 with
          | .error f => .error f
          | .ok (v, bits2) =>
            readAcPath table lim fuel (k + run + 1)
              (du.setIfInBounds (k + run) (BitVec.ofInt 16 (extend v size))) bits2

/-- Paths (a) and (b) of R192 on bits: the new predictor, the 64 coefficients and the bits left. -/
def readUnit (dcTable acTable : List CodeEntry) (ext : Bool) (pred : Half) (dcOnly : Bool) (bits : List Bool) :
    Except FaultKind (Half × Vector Half 64 × List Bool) :=
  match readSymbol dcTable bits with
  | .error f => .error f
  | .ok (size, bits1) =>
    if size.toNat > (if ext then 15 else 11) then .error .invalidSize
    else
      match readNumber size.toNat bits1 with
      | .error f => .error f
      | .ok (v, bits2) =>
        let p := pred + BitVec.ofInt 16 (extend v size.toNat)
        let du := (Vector.replicate 64 0#16).set 0 p
        if dcOnly then .ok (p, du, bits2)
        else
          match readAcPath acTable (if ext then 14 else 10) 63 1 du bits2 with
          | .error f => .error f
          | .ok (du', bits3) => .ok (p, du', bits3)

end Sys2Proof.Machine
end

