-- ==== Sys2Proof/Certificates/Slice0/Obligations.lean ====
section
/-! DEFINITION. Sys2Proof/Certificates/Slice0/Obligations.lean: the statements for the provers, rule by rule of the spec.
Where a statement speaks of whose turn it is, of the host's reply or of the count of draws, those are the model's own
choices (log 1, 9 and 7); `IDCT_CORE` is a free function within R181's bounds (log 10). -/

open Sys2Proof Sys2Proof.Machine

/-! ## Command words (30_encoding.md) -/

/-- Decoding and encoding are inverse: a word decodes to exactly the well-formed command whose word it is (R88, R89,
R92), so no bit of a legal word is dropped and no command has two words. -/
def Obligations.DecodeInvertsEncode : Prop :=
  ∀ (w : Word) (i : Instr), decode w = .ok i ↔ i.wellFormed = true ∧ encode i = w

/-- A word selects the row of R89's map whose `w & mask = match`, with every field taken straight from its bits (R88)
and 1 ≤ N ≤ 16 for BS_READ. -/
def Obligations.DecodeFollowsOpcodeMap : Prop :=
  ∀ (w : Word) (i : Instr), decode w = .ok i ↔
    match i with
    | .nop => w &&& 0xFFFFFFFF#32 = 0x00000000#32
    | .htBuild slot => w &&& 0xFFFFF8FF#32 = 0x00000010#32 ∧ slot.val = (w.extractLsb' 8 3).toNat
    | .qtSet qt prec => w &&& 0xFFFFECFF#32 = 0x00000011#32 ∧ qt.val = (w.extractLsb' 8 2).toNat ∧
        (prec = .sixteen ↔ w.getLsbD 12 = true)
    | .bsInit => w &&& 0xFFFFFFFF#32 = 0x00000020#32
    | .bsRead n => w &&& 0xFFFFE0FF#32 = 0x00000021#32 ∧ n.val = (w.extractLsb' 8 5).toNat ∧
        1 ≤ n.val ∧ n.val ≤ 16
    | .bsAlign => w &&& 0xFFFFFFFF#32 = 0x00000022#32
    | .bsPeek => w &&& 0xFFFFFFFF#32 = 0x00000023#32
    | .hufDecode slot => w &&& 0xFFFFF8FF#32 = 0x00000030#32 ∧ slot.val = (w.extractLsb' 8 3).toNat
    | .duDecode pred dct act dcOnly => w &&& 0xFFECCCFF#32 = 0x00000031#32 ∧
        pred.val = (w.extractLsb' 8 2).toNat ∧ dct.val = (w.extractLsb' 12 2).toNat ∧
        act.val = (w.extractLsb' 16 2).toNat ∧ dcOnly = w.getLsbD 20 ∧
        (dcSlot dct).val = 2 * dct.val + 0 ∧ (acSlot act).val = 2 * act.val + 1
    | .predReset => w &&& 0xFFFFFFFF#32 = 0x00000032#32
    | .bsRestart => w &&& 0xFFFFFFFF#32 = 0x00000033#32
    | .dequant qt => w &&& 0xFFFFFCFF#32 = 0x00000040#32 ∧ qt.val = (w.extractLsb' 8 2).toNat
    | .idct => w &&& 0xFFFFFFFF#32 = 0x00000041#32

/-- A word is illegal exactly when its OPC is not in the map, a must-be-zero bit of its format is 1, or it is BS_READ
with N outside 1..16 (R90, R103). Issuing one records IllegalCommand and changes nothing else but BUSY; with a fault
already recorded it changes nothing but BUSY. -/
def Obligations.IllegalWordRaisesIllegalCommand : Prop :=
  ∀ (w : Word),
    let opc := w.extractLsb' 0 8
    let illegal :=
      opc ∉ [0x00#8, 0x10#8, 0x11#8, 0x20#8, 0x21#8, 0x22#8, 0x23#8, 0x30#8, 0x31#8, 0x32#8, 0x33#8, 0x40#8, 0x41#8] ∨
      (opc ∈ [0x00#8, 0x20#8, 0x22#8, 0x23#8, 0x32#8, 0x33#8, 0x41#8] ∧ w &&& 0xFFFFFF00#32 ≠ 0#32) ∨
      (opc ∈ [0x10#8, 0x30#8] ∧ w &&& 0xFFFFF800#32 ≠ 0#32) ∨
      (opc = 0x40#8 ∧ w &&& 0xFFFFFC00#32 ≠ 0#32) ∨
      (opc = 0x11#8 ∧ w &&& 0xFFFFEC00#32 ≠ 0#32) ∨
      (opc = 0x21#8 ∧ (w &&& 0xFFFFE000#32 ≠ 0#32 ∨ w.extractLsb' 8 5 = 0#5 ∨ 16#5 < w.extractLsb' 8 5)) ∨
      (opc = 0x31#8 ∧ w &&& 0xFFECCC00#32 ≠ 0#32)
    ((∃ e, decode w = .error e) ↔ illegal) ∧
      ∀ (s : State) (rest : List Event), illegal → s.busy = true → s.cmdLatch = w → s.engineNext rest →
        step s = .next
          (if s.fault then { s with busy := false, pending := rest }
          else { s.recorded .illegalCommand with busy := false, pending := rest })

/-- Seventeen words decode as the spec says: the fourteen encoding vectors V30-1 to V30-14 (95_test_vectors.md 2.1), and
0x20, 0x40 and 0x41 from the assembler's table (30_encoding.md R92). -/
def Obligations.EncodingVectorsDecode : Prop :=
  decode 0x00000000#32 = .ok .nop ∧ decode 0x00000310#32 = .ok (.htBuild 3) ∧
  decode 0x00001211#32 = .ok (.qtSet 2 .sixteen) ∧ decode 0x00000821#32 = .ok (.bsRead 8) ∧
  decode 0x00001021#32 = .ok (.bsRead 16) ∧ decode 0x00031031#32 = .ok (.duDecode 0 1 3 false) ∧
  decode 0x00100131#32 = .ok (.duDecode 1 0 0 true) ∧ decode 0x00000020#32 = .ok .bsInit ∧
  decode 0x00000040#32 = .ok (.dequant 0) ∧ decode 0x00000041#32 = .ok .idct ∧
  decode 0x00000100#32 = .error .mustBeZero ∧ decode 0x00000021#32 = .error .badCount ∧
  decode 0x00001121#32 = .error .badCount ∧ decode 0x000000FF#32 = .error .unassignedOpcode ∧
  decode 0x80000030#32 = .error .mustBeZero ∧ decode 0x00000431#32 = .error .mustBeZero ∧
  decode 0x00002011#32 = .error .mustBeZero

/-! ## The command cycle (40_command_cycle.md) -/

/-- A write to CMD latches the word and sets BUSY, and nothing else changes; while BUSY = 1 it is refused (R100). -/
def Obligations.CmdWriteIssuesCommand : Prop :=
  ∀ (s : State) (w : Word) (rest : List Event), s.pending = .write 32 0x008 w :: rest →
    step s = if s.busy then .refused .hostWriteWhileBusy
      else .next { s with cmdLatch := w, busy := true, pending := rest }

/-- A step runs the decoded instruction: on the engine's turn with BUSY = 1 and the command not blocked, the step is
`exec` of the instruction the latched word decodes to, and then BUSY <- 0; with BUSY = 0 the engine does nothing
(R101). The schedule `pending` is the model's own (log 1). -/
def Obligations.StepRunsDecodedInstruction : Prop :=
  ∀ (s : State) (i : Instr) (rest : List Event), s.engineNext rest →
    (s.busy = false → step s = .next { s with pending := rest }) ∧
    (s.busy = true → decode s.cmdLatch = .ok i → (s.fault = false ∨ i = .nop ∨ i = .bsInit) →
      step s = match exec i { s with pending := rest } with
        | .next t => .next { t with busy := false }
        | .fault f => .fault f
        | .refused r => .refused r)

/-- While FAULT = 1 a command other than NOP and BS_INIT changes nothing but BUSY (R102). -/
def Obligations.BlockedCommandChangesOnlyBusy : Prop :=
  ∀ (s : State) (rest : List Event), s.fault = true → s.busy = true → s.engineNext rest →
    s.cmdLatch.extractLsb' 0 8 ≠ 0x00#8 → s.cmdLatch.extractLsb' 0 8 ≠ 0x20#8 →
    step s = .next { s with busy := false, pending := rest }

/-- Every issued command completes in the engine's one step, with BUSY = 0 (R101), in every state that keeps the
invariant. -/
def Obligations.EngineStepAlwaysCompletes : Prop :=
  ∀ (s : State) (rest : List Event), s.Inv → s.busy = true → s.engineNext rest →
    ∃ t, step s = .next t ∧ t.busy = false ∧ t.pending = rest

/-! ## The invariant -/

/-- The invariant holds at reset, for every ECS_BUF_BYTES that R6 allows: the buffer then has the stated size, a multiple
of 4 in [4, 2^24], and 65536 bytes when none is stated. That State holds the size is the model's form (log 3). -/
def Obligations.InvariantAtReset : Prop :=
  (State.reset.Inv ∧ State.reset.ecs.size = 65536) ∧
  ∀ n, 4 ≤ n → n ≤ 2 ^ 24 → n % 4 = 0 → (State.resetSized n).Inv ∧ (State.resetSized n).ecs.size = n

/-- Every step keeps the invariant: the ECS buffer's canonical form, the window in the buffer, BS_POS ≤ BS_END and
NBITS ≤ 7 where no fault is recorded, the fault record, well-formed built tables, 8-bit tables below 256. None changes the
size of the buffer, which is configuration (R6, R20; the model's form: log 3). -/
def Obligations.InvariantKeptByStep : Prop :=
  ∀ (s t : State), s.Inv → step s = .next t → t.Inv ∧ t.ecs.size = s.ecs.size

/-- From a state that keeps the invariant a step fails to give a next state only on a host access that the spec says a
model refuses: width other than 32 bits or offset no multiple of 4 (R61), offset outside the window (R67), or a write
while BUSY = 1 (R68). -/
def Obligations.StepStopsOnlyOnRefusedAccess : Prop :=
  ∀ (s : State), s.Inv →
    ((¬ ∃ t, step s = .next t) ↔
      ∃ width off rest,
        ((s.pending = .read width off :: rest ∨ ∃ v, s.pending = .write width off v :: rest) ∧
          (width ≠ 32 ∨ off % 4 ≠ 0 ∨ 0x10000 + s.ecs.size ≤ off)) ∨
        ((∃ v, s.pending = .write width off v :: rest) ∧ s.busy = true))

/-! ## NOP (40_command_cycle.md R104) -/

/-- NOP is the word 0 and does nothing; it executes even while FAULT = 1; 0x00000100 is not NOP but illegal (R104, R91). -/
def Obligations.NopDoesNothing : Prop :=
  decode 0x00000000#32 = .ok .nop ∧ (∃ e, decode 0x00000100#32 = .error e) ∧
  (∀ s : State, exec .nop s = .next s) ∧
  ∀ (s : State) (rest : List Event), s.busy = true → s.cmdLatch = 0x00000000#32 → s.engineNext rest →
    step s = .next { s with busy := false, pending := rest }

/-! ## Bit source (41_bitsource.md) -/

/-- scanAt classifies the input at BS_POS (R111): a byte other than 0xFF is data; after any run of fill bytes, 0xFF 0x00
is a data 0xFF, 0xFF x with x neither 0x00 nor 0xFF is a marker at the last 0xFF, and a window of 0xFF bytes only, or
an empty one, is End. -/
def Obligations.ScanAtClassifiesInput : Prop :=
  ∀ (m : Memory) (b : BitSource), b.stop.toNat ≤ m.size →
    (∀ x rest, x ≠ 0xFF#8 → windowBytes m b = x :: rest → scanAtPos m b = .ok (.data x (b.pos.toNat + 1))) ∧
    (∀ k rest, windowBytes m b = List.replicate (k + 1) 0xFF#8 ++ 0x00#8 :: rest →
      scanAtPos m b = .ok (.data 0xFF#8 (b.pos.toNat + k + 2))) ∧
    (∀ k x rest, x ≠ 0x00#8 → x ≠ 0xFF#8 → windowBytes m b = List.replicate (k + 1) 0xFF#8 ++ x :: rest →
      scanAtPos m b = .ok (.marker x (b.pos.toNat + k) (b.pos.toNat + k + 2))) ∧
    (∀ k, windowBytes m b = List.replicate k 0xFF#8 → scanAtPos m b = .ok .endOfWindow)

/-- readBit fetches a byte when NBITS = 0, raises Truncated on a marker or End, and delivers CUR[NBITS - 1], counting it;
NBITS, at most 8 before (R31), is then at most 7 (R112). -/
def Obligations.ReadBitFetchesAndDelivers : Prop :=
  ∀ (m : Memory) (b : BitSource),
    (b.nbits ≠ 0#4 → b.nbits.toNat ≤ 8 → readBit m b = .ok (b.cur.getLsbD (b.nbits.toNat - 1),
      { b with nbits := b.nbits - 1#4, bitcnt := b.bitcnt + 1#32 })) ∧
    (∀ x q, b.nbits = 0#4 → scanAtPos m b = .ok (.data x q) → readBit m b = .ok (x.getLsbD 7,
      { b with cur := x, nbits := 7#4, pos := BitVec.ofNat 32 q, bitcnt := b.bitcnt + 1#32 })) ∧
    (∀ x p q, b.nbits = 0#4 → scanAtPos m b = .ok (.marker x p q) → readBit m b = .error (.raise .truncated)) ∧
    (b.nbits = 0#4 → scanAtPos m b = .ok .endOfWindow → readBit m b = .error (.raise .truncated)) ∧
    (∀ bit b', b.nbits.toNat ≤ 8 → readBit m b = .ok (bit, b') → b'.nbits.toNat ≤ 7)

/-- BS_INIT clears the fault record, the warnings, the bit source, the counts and the predictors; it latches the window,
or, where the window does not fit the buffer, leaves it empty and raises BadWindow (R114). Nothing else changes. -/
def Obligations.BsInitStartsWindow : Prop :=
  decode 0x00000020#32 = .ok .bsInit ∧
  ∀ s : State,
    let cleared : State := { s with
      fault := false, fcode := 0#8, finfo := 0#8, fpos := 0#32, seqwarn := false, eos := false, rstK := 0#32,
      pred := Vector.replicate 4 0#16, bs := ⟨0#32, 0#32, 0#8, 0#4, 0#32⟩ }
    (s.ecsStart.toNat + s.ecsLen.toNat ≤ s.ecs.size →
      ∃ stop : Word, stop.toNat = s.ecsStart.toNat + s.ecsLen.toNat ∧
        exec .bsInit s = .next { cleared with bs := ⟨s.ecsStart, stop, 0#8, 0#4, 0#32⟩ }) ∧
    (s.ecs.size < s.ecsStart.toNat + s.ecsLen.toNat →
      exec .bsInit s = .next { cleared with
        fault := true, fcode := 0x09#8, finfo := opcodeOf s.cmdLatch, fpos := s.bs.pos })

/-- BS_READ N delivers the next N bits of the data, first bit most significant, in RESULT, counts them in BITCNT and
leaves the later bits, with BS_POS just past the last data byte fetched and CUR that byte; when fewer are left it
raises Truncated, and BS_POS, BS_BUF and BITCNT are then unspecified (R115, R113, R227). Nothing else changes. A count
outside 1..16 makes an illegal word. -/
def Obligations.BsReadDeliversNextBits : Prop :=
  (∀ n : Fin 32, n.val = 0 ∨ 16 < n.val → ∃ e, decode (BitVec.ofNat 32 (0x21 + n.val * 2 ^ 8)) = .error e) ∧
  ∀ (n : Fin 32) (s : State), 1 ≤ n.val → n.val ≤ 16 → s.fault = false →
    s.bs.stop.toNat ≤ s.ecs.size → s.bs.nbits.toNat ≤ 7 →
    decode (BitVec.ofNat 32 (0x21 + n.val * 2 ^ 8)) = .ok (.bsRead n) ∧
    (n.val ≤ (unreadBits s.ecs s.bs).length → ∃ t, exec (.bsRead n) s = .next t ∧
      t.result = BitVec.ofNat 32 (valueOf ((unreadBits s.ecs s.bs).take n.val)) ∧
      unreadBits t.ecs t.bs = (unreadBits s.ecs s.bs).drop n.val ∧
      s.bs.Delivered s.ecs n.val t.bs ∧ t.bs.nbits.toNat ≤ 7 ∧
      t = { s with bs := t.bs, result := t.result }) ∧
    ((unreadBits s.ecs s.bs).length < n.val → ∃ t, exec (.bsRead n) s = .next t ∧ s.streamFaulted .truncated t)

/-- BS_ALIGN sets NBITS to 0 and changes nothing else; it is idempotent and raises nothing (R116). -/
def Obligations.BsAlignDropsBufferedBits : Prop :=
  decode 0x00000022#32 = .ok .bsAlign ∧
  ∀ s : State, ∃ t, exec .bsAlign s = .next t ∧ t = { s with bs := { s.bs with nbits := 0#4 } } ∧
    exec .bsAlign t = .next t

/-- BS_PEEK reports a pending marker (0x100 | x), the end of the window (0x200) or data (0) in RESULT, looking past fill
bytes, and changes nothing else (R117). -/
def Obligations.BsPeekReportsMarker : Prop :=
  decode 0x00000023#32 = .ok .bsPeek ∧
  ∀ s : State, s.bs.stop.toNat ≤ s.ecs.size → ∃ t, exec .bsPeek s = .next t ∧
    t = { s with result := t.result } ∧
    (∀ x rest, x ≠ 0xFF#8 → windowBytes s.ecs s.bs = x :: rest → t.result = 0x000#32) ∧
    (∀ k rest, windowBytes s.ecs s.bs = List.replicate (k + 1) 0xFF#8 ++ 0x00#8 :: rest → t.result = 0x000#32) ∧
    (∀ k x rest, x ≠ 0x00#8 → x ≠ 0xFF#8 → windowBytes s.ecs s.bs = List.replicate (k + 1) 0xFF#8 ++ x :: rest →
      t.result = 0x100#32 ||| x.setWidth 32) ∧
    (∀ k, windowBytes s.ecs s.bs = List.replicate k 0xFF#8 → t.result = 0x200#32)

/-! ## Huffman tables (42_huffman.md) -/

/-- canon assigns codes as R141 says, for every slot whose N symbols the symbol vector has room for: N positions,
symbols in the order of the symbol vector, lengths not decreasing, HTC[s][i] positions of length i, the first code all
zeros, and each next code one more, shifted left by the growth of the length. -/
def Obligations.CanonAssignsCanonicalCodes : Prop :=
  ∀ (counts : Vector Byte 16) (syms : Vector Byte 256), (∑ i : Fin 16, (counts[i]).toNat) ≤ 256 →
    let table := canon counts syms
    table.length = ∑ i : Fin 16, (counts[i]).toNat ∧
    (∀ (k : Nat) (e : CodeEntry), table[k]? = some e → syms[k]? = some e.sym ∧ 1 ≤ e.len ∧ e.len ≤ 16) ∧
    (∀ i : Fin 16, (table.filter fun e => e.len == i.val + 1).length = (counts[i]).toNat) ∧
    (∀ e, table[0]? = some e → e.code = 0) ∧
    (∀ (k : Nat) (e e' : CodeEntry), table[k]? = some e → table[k + 1]? = some e' →
      e.len ≤ e'.len ∧ e'.code = (e.code + 1) * 2 ^ (e'.len - e.len))

/-- A slot is malformed when its counts sum above 256 or its Kraft sum above 65536. The Kraft condition is exact: where
the sum is at most 65536 every code fits its length, and where it is greater some code does not. Where it is 65536 the
last code is all ones (R142). -/
def Obligations.KraftSumDecidesWhetherCodesFit : Prop :=
  ∀ (counts : Vector Byte 16) (syms : Vector Byte 256),
    let kraftSum := ∑ i : Fin 16, (counts[i]).toNat * 2 ^ (15 - i.val)
    (malformedTable counts = true ↔ 256 < (∑ i : Fin 16, (counts[i]).toNat) ∨ 65536 < kraftSum) ∧
    (kraftSum ≤ 65536 → ∀ e ∈ canon counts syms, e.code < 2 ^ e.len) ∧
    (65536 < kraftSum → ∃ e ∈ canon counts syms, 2 ^ e.len ≤ e.code) ∧
    (kraftSum = 65536 → ∀ e, (canon counts syms).getLast? = some e → e.code + 1 = 2 ^ e.len)

/-- The codes of a well-formed slot are prefix-free: no code is a prefix of the code at another position (R144). -/
def Obligations.CodesArePrefixFree : Prop :=
  ∀ (counts : Vector Byte 16) (syms : Vector Byte 256), malformedTable counts = false →
    ∀ (j k : Nat) (e e' : CodeEntry), (canon counts syms)[j]? = some e → (canon counts syms)[k]? = some e' →
      e.bits <+: e'.bits → j = k

/-- Leaves lie only at declared depths, HTC[s][i] of them at depth i, and the longest code is the greatest declared
length (R147). -/
def Obligations.LeavesLieAtDeclaredDepths : Prop :=
  ∀ (counts : Vector Byte 16) (syms : Vector Byte 256), malformedTable counts = false →
    (∀ e ∈ canon counts syms, ∃ i : Fin 16, e.bits.length = i.val + 1 ∧ 0 < (counts[i]).toNat) ∧
    (∀ i : Fin 16, (canon counts syms).countP (fun e => e.bits.length == i.val + 1) = (counts[i]).toNat) ∧
    (∀ i : Fin 16, 0 < (counts[i]).toNat → (∀ j : Fin 16, i < j → (counts[j]).toNat = 0) →
      (∀ e ∈ canon counts syms, e.bits.length ≤ i.val + 1) ∧ ∃ e ∈ canon counts syms, e.bits.length = i.val + 1)

/-- HT_BUILD commits a slot whose counts sum to at most 256 and whose Kraft sum is at most 65536, and otherwise clears
its validity and raises MalformedTable (R143, R142). Nothing else changes. -/
def Obligations.HtBuildChecksAndCommits : Prop :=
  ∀ (slot : Fin 8) (s : State), s.fault = false →
    decode (BitVec.ofNat 32 (0x10 + slot.val * 2 ^ 8)) = .ok (.htBuild slot) ∧
    exec (.htBuild slot) s = .next
      (if 256 < (∑ i : Fin 16, (s.htc[slot][i]).toNat) ∨
          65536 < (∑ i : Fin 16, (s.htc[slot][i]).toNat * 2 ^ (15 - i.val)) then
        { s with
          htv := s.htv.set slot.val false, fault := true, fcode := 0x03#8, finfo := opcodeOf s.cmdLatch,
          fpos := s.bs.pos }
      else { s with htv := s.htv.set slot.val true })

/-- HUF_DECODE raises TableMissing for a slot that is not valid; otherwise RESULT is the symbol of the code at the
head of the data, whose bits are consumed and counted, with BS_POS just past the last data byte fetched and CUR that
byte. Where no code is there, it raises Truncated if the data end within a code (or are empty), else
MalformedBitStream (R146, R145). Nothing else changes. -/
def Obligations.HufDecodeReadsOneSymbol : Prop :=
  ∀ (slot : Fin 8) (s : State), s.Inv → s.fault = false →
    let bits := unreadBits s.ecs s.bs
    let table := canon s.htc[slot] s.hts[slot]
    decode (BitVec.ofNat 32 (0x30 + slot.val * 2 ^ 8)) = .ok (.hufDecode slot) ∧
    (s.htv[slot] = false → exec (.hufDecode slot) s = .next (s.recorded .tableMissing)) ∧
    (s.htv[slot] = true →
      (∀ e ∈ table, e.bits <+: bits → ∃ t, exec (.hufDecode slot) s = .next t ∧
        t.result = e.sym.setWidth 32 ∧ unreadBits t.ecs t.bs = bits.drop e.len ∧
        s.bs.Delivered s.ecs e.len t.bs ∧ t = { s with bs := t.bs, result := t.result }) ∧
      ((∀ e ∈ table, ¬ e.bits <+: bits) → (bits = [] ∨ ∃ e ∈ table, bits <+: e.bits) →
        ∃ t, exec (.hufDecode slot) s = .next t ∧ s.streamFaulted .truncated t) ∧
      ((∀ e ∈ table, ¬ e.bits <+: bits) → bits ≠ [] → (∀ e ∈ table, ¬ bits <+: e.bits) →
        ∃ t, exec (.hufDecode slot) s = .next t ∧ s.streamFaulted .malformedBitStream t))

/-! ## Quantization and zig-zag (43_quant_zigzag.md) -/

/-- ZZ and NAT are the tables of R160 and R161, and inverse to each other. ZZ is no involution, and its fixed points are
0, 1, 62 and 63. -/
def Obligations.ZigzagTablesAreInverse : Prop :=
  ((List.finRange 64).map fun n => (zz n).val) =
    [0, 1, 5, 6, 14, 15, 27, 28, 2, 4, 7, 13, 16, 26, 29, 42, 3, 8, 12, 17, 25, 30, 41, 43, 9, 11, 18, 24, 31, 40, 44,
      53, 10, 19, 23, 32, 39, 45, 52, 54, 20, 22, 33, 38, 46, 51, 55, 60, 21, 34, 37, 47, 50, 56, 59, 61, 35, 36, 48,
      49, 57, 58, 62, 63] ∧
  ((List.finRange 64).map fun k => (natIndex k).val) =
    [0, 1, 8, 16, 9, 2, 3, 10, 17, 24, 32, 25, 18, 11, 4, 5, 12, 19, 26, 33, 40, 48, 41, 34, 27, 20, 13, 6, 7, 14, 21,
      28, 35, 42, 49, 56, 57, 50, 43, 36, 29, 22, 15, 23, 30, 37, 44, 51, 58, 59, 52, 45, 38, 31, 39, 46, 53, 60, 61,
      54, 47, 55, 62, 63] ∧
  (∀ k, zz (natIndex k) = k) ∧ (∀ n, natIndex (zz n) = n) ∧ zz (zz 2) = 15 ∧
  ∀ n, zz n = n ↔ n = 0 ∨ n = 1 ∨ n = 62 ∨ n = 63

/-- QT_SET commits table T at a precision, masking its entries to bits 7:0 for 8-bit precision, and changes nothing else
(R163). -/
def Obligations.QtSetCommitsTable : Prop :=
  ∀ (qt : Fin 4) (prec : Precision) (s : State),
    decode (BitVec.ofNat 32 (0x11 + qt.val * 2 ^ 8 + (if prec = .sixteen then 2 ^ 12 else 0))) = .ok (.qtSet qt prec) ∧
    ∃ t, exec (.qtSet qt prec) s = .next t ∧
      (∀ k : Fin 64, t.qte[qt][k] = if prec = .eight then s.qte[qt][k] &&& 0xFF#16 else s.qte[qt][k]) ∧
      (∀ u : Fin 4, u ≠ qt → t.qte[u] = s.qte[u]) ∧
      t = { s with qte := t.qte, qtp := s.qtp.set qt.val prec, qtv := s.qtv.set qt.val true }

/-- DEQUANT sets every BLK[n] to the exact product DU[ZZ[n]] · QTE[T][ZZ[n]] and changes nothing else; a table that is not
valid raises TableMissing with BLK unchanged (R164). -/
def Obligations.DequantMultipliesExactly : Prop :=
  ∀ (qt : Fin 4) (s : State),
    decode (BitVec.ofNat 32 (0x40 + qt.val * 2 ^ 8)) = .ok (.dequant qt) ∧
    (s.qtv[qt] = true → ∃ t, exec (.dequant qt) s = .next t ∧ t = { s with blk := t.blk } ∧
      ∀ n : Fin 64, (t.blk[n]).toInt = (s.du[zz n]).toInt * ((s.qte[qt][zz n]).toNat : Int)) ∧
    (s.qtv[qt] = false → s.fault = false → exec (.dequant qt) s = .next (s.recorded .tableMissing))

/-- Dividing the block by the table recovers the coefficients wherever the entry is not zero (R165). -/
def Obligations.DequantIsRecoveredByDivision : Prop :=
  ∀ (qt : Fin 4) (s t : State), s.qtv[qt] = true → exec (.dequant qt) s = .next t →
    ∀ k : Fin 64,
      (0 < (s.qte[qt][k]).toNat →
        (t.blk[natIndex k]).toInt / ((s.qte[qt][k]).toNat : Int) = (s.du[k]).toInt) ∧
      ((s.qte[qt][k]).toNat = 0 → t.blk[natIndex k] = 0#32)

/-! ## Inverse DCT (44_idct.md) -/

/-- IDCT sets SAMPLE[n] to clamp(y[n] + 128, 0, 255) with y = IDCT_CORE(BLK), whatever CTRL.EXT is, and changes nothing
else; it raises nothing (R180, R183). -/
def Obligations.IdctShiftsAndClamps : Prop :=
  decode 0x00000041#32 = .ok .idct ∧
  ∀ s : State, ∃ t, exec .idct s = .next t ∧ t = { s with sample := t.sample } ∧
    (∀ n : Fin 64, ((t.sample[n]).toNat : Int) = min (max (idctCore s.blk n.val + 128) 0) 255) ∧
    (s.blk = Vector.replicate 64 0#32 → t.sample = Vector.replicate 64 128#8)

/-- IDCT_CORE gives 0 for the zero block and is within 1 of IDCT_REF where every |F[i]| ≤ 1024 (R181 properties 2 and 3).
It is a free function within these bounds (log 10), and the statement holds for each. -/
def Obligations.IdctCoreMeetsItsBounds : Prop :=
  (∀ n, idctCore (Vector.replicate 64 0#32) n = 0) ∧
  ∀ (f : Vector Word 64) (n : Fin 64), (∀ i : Fin 64, |(f[i]).toInt| ≤ 1024) →
    |idctCore f n.val - idctRef f n.val| ≤ 1

/-- IDCT_REF is the exact two-dimensional inverse DCT over the real numbers, rounded to the nearest integer with an exact
half rounded up (R182). -/
def Obligations.IdctRefIsTheExactTransform : Prop :=
  ∀ (f : Vector Word 64) (y x : Fin 8),
    let c : Fin 8 → ℝ := fun w => if w = 0 then 1 / Real.sqrt 2 else 1
    let s : ℝ := 1 / 4 * ∑ u : Fin 8, ∑ v : Fin 8,
      c u * c v * ((f[8 * v.val + u.val]'(by omega)).toInt : ℝ) *
        Real.cos ((2 * (x.val : ℝ) + 1) * (u.val : ℝ) * Real.pi / 16) *
        Real.cos ((2 * (y.val : ℝ) + 1) * (v.val : ℝ) * Real.pi / 16)
    idctRef f (8 * y.val + x.val) = ⌊s + 1 / 2⌋

/-- For a block with F[0] = D and zeros elsewhere IDCT_REF gives floor(D/8 + 1/2) at every output (R184). -/
def Obligations.IdctRefOfDcBlock : Prop :=
  ∀ (d : Word) (n : Fin 64), idctRef ((Vector.replicate 64 0#32).set 0 d) n.val = (d.toInt + 4) / 8

/-! ## Data units, predictors and restart (45_scan_decode.md) -/

/-- EXTEND (R190): below half of 2^s the value v - (2^s - 1), from there on v; 0 for s = 0; never 0 for s ≥ 1, and within
16 signed bits. -/
def Obligations.ExtendGivesSignedValue : Prop :=
  extend 0 0 = 0 ∧
  ∀ (s v : Nat), 1 ≤ s → s ≤ 15 → v < 2 ^ s →
    (v < 2 ^ (s - 1) → extend v s = (v : Int) - (2 ^ s - 1) ∧
      -(2 ^ s - 1) ≤ extend v s ∧ extend v s ≤ -(2 ^ (s - 1) : Int)) ∧
    (2 ^ (s - 1) ≤ v → extend v s = v ∧ (2 ^ (s - 1) : Int) ≤ extend v s ∧ extend v s ≤ 2 ^ s - 1) ∧
    extend v s ≠ 0 ∧ (BitVec.ofInt 16 (extend v s)).toInt = extend v s

/-- DU_DECODE decodes one data unit (R192): it raises TableMissing, changing nothing else, when a table it needs is not
valid; otherwise it reads the DC symbol and magnitude, and unless DCONLY the AC symbols and magnitudes, as R192 says of
the data's bits, writes PRED[P], all of DU and RESULT (the bits consumed), and leaves the later bits, with BS_POS just past
the last data byte fetched and CUR that byte; or it raises the
fault R192 gives, after which BS_POS, BS_BUF, BITCNT, DU and PRED[P] are unspecified (R227). Nothing else changes. -/
def Obligations.DuDecodeDecodesOneUnit : Prop :=
  ∀ (pred dct act : Fin 4) (dcOnly : Bool) (s : State), s.Inv → s.fault = false →
    let bits := unreadBits s.ecs s.bs
    let dcS : Fin 8 := ⟨2 * dct.val, by omega⟩
    let acS : Fin 8 := ⟨2 * act.val + 1, by omega⟩
    decode (BitVec.ofNat 32 (0x31 + pred.val * 2 ^ 8 + dct.val * 2 ^ 12 + act.val * 2 ^ 16 +
      (if dcOnly then 2 ^ 20 else 0))) = .ok (.duDecode pred dct act dcOnly) ∧
    ((s.htv[dcS] = false ∨ (dcOnly = false ∧ s.htv[acS] = false)) →
      exec (.duDecode pred dct act dcOnly) s = .next (s.recorded .tableMissing)) ∧
    (s.htv[dcS] = true → (dcOnly = true ∨ s.htv[acS] = true) →
      match readUnit (canon s.htc[dcS] s.hts[dcS]) (canon s.htc[acS] s.hts[acS]) s.ext s.pred[pred] dcOnly bits with
      | .ok (p, du, rest) => ∃ t, exec (.duDecode pred dct act dcOnly) s = .next t ∧
          t.pred = s.pred.set pred.val p ∧ t.du = du ∧ du[0] = p ∧ unreadBits t.ecs t.bs = rest ∧
          t.result = BitVec.ofNat 32 (bits.length - rest.length) ∧
          t.bs.bitcnt = s.bs.bitcnt + t.result ∧ s.bs.Delivered s.ecs (bits.length - rest.length) t.bs ∧
          t = { s with pred := t.pred, du := t.du, bs := t.bs, result := t.result }
      | .error k => ∃ t, exec (.duDecode pred dct act dcOnly) s = .next t ∧ s.unitFaulted k pred t)

/-- B1: an EOB read as the first AC symbol leaves DU[1..63] = 0 (R194). -/
def Obligations.EobAfterDcLeavesZeros : Prop :=
  ∀ (pred dct act : Fin 4) (s : State) (e e' : CodeEntry) (v : Nat) (rest : List Bool),
    s.Inv → s.fault = false → s.htv[dcSlot dct] = true → s.htv[acSlot act] = true →
    e ∈ slotCode s (dcSlot dct) → e.sym.toNat ≤ dcLim s.ext → v < 2 ^ e.sym.toNat →
    e' ∈ slotCode s (acSlot act) → e'.sym = 0x00#8 →
    unreadBits s.ecs s.bs = e.bits ++ bitsOf e.sym.toNat v ++ e'.bits ++ rest →
    ∃ t, exec (.duDecode pred dct act false) s = .next t ∧ t.fault = false ∧
      (∀ k : Fin 64, k ≠ 0 → t.du[k] = 0#16) ∧
      t.du[0] = s.pred[pred] + BitVec.ofInt 16 (extend v e.sym.toNat) ∧ unreadBits t.ecs t.bs = rest

/-- B2 and its neighbours (R194): a ZRL at k = 48 completes the data unit with no further symbol read, and at k = 49
raises Overrun; a run of 15 places its coefficient at 63 from k = 48, completing the data unit, and raises Overrun from
k = 49. -/
def Obligations.AcCursorBoundaries : Prop :=
  ∀ (m : Memory) (table : List CodeEntry) (ext : Bool) (fuel : Nat) (du : Vector Half 64) (b b1 : BitSource)
    (rs : Byte), hufWalk m table b = .ok (rs, b1) →
    (rs = 0xF0#8 → acLoop m table (acLim ext) (fuel + 2) 48 du b = .ok (du, b1) ∧
      acLoop m table (acLim ext) (fuel + 2) 49 du b = .error (.raise .overrun)) ∧
    (rs.toNat / 16 = 15 → 1 ≤ rs.toNat % 16 → rs.toNat % 16 ≤ acLim ext →
      acLoop m table (acLim ext) (fuel + 2) 49 du b = .error (.raise .overrun) ∧
      ∀ v b2, readBits m (rs.toNat % 16) b1 = .ok (v, b2) → acLoop m table (acLim ext) (fuel + 2) 48 du b =
        .ok (du.set 63 (BitVec.ofInt 16 (extend v (rs.toNat % 16))), b2))

/-- The DC-only form needs no AC table, reads no AC symbol and leaves DU[1..63] = 0 (R195). -/
def Obligations.DcOnlyIgnoresAcPath : Prop :=
  ∀ (pred dct act act' : Fin 4) (s : State),
    exec (.duDecode pred dct act true) s = exec (.duDecode pred dct act' true) s ∧
    (∀ (v : Vector Bool 8), v[dcSlot dct] = s.htv[dcSlot dct] → ∀ t, exec (.duDecode pred dct act true) s = .next t →
      exec (.duDecode pred dct act true) { s with htv := v } = .next { t with htv := v }) ∧
    (∀ t, s.htv[dcSlot dct] = true → s.fault = false → exec (.duDecode pred dct act true) s = .next t →
      t.fault = false → t.du[0] = t.pred[pred] ∧ ∀ k : Fin 64, k ≠ 0 → t.du[k] = 0#16)

/-- A DU_DECODE that completes consumes at most 1665 bits with EXT = 0 and 1921 with EXT = 1, and BITCNT grows by its
RESULT (R198). -/
def Obligations.DuDecodeBitBound : Prop :=
  ∀ (pred dct act : Fin 4) (dcOnly : Bool) (s t : State), s.Inv → s.fault = false →
    exec (.duDecode pred dct act dcOnly) s = .next t → t.fault = false →
    (t.result).toNat ≤ (if s.ext then 1921 else 1665) ∧ t.bs.bitcnt = s.bs.bitcnt + t.result

/-- PRED_RESET sets the four predictors to 0 and changes nothing else (R196). -/
def Obligations.PredResetClearsPredictors : Prop :=
  decode 0x00000032#32 = .ok .predReset ∧
  ∀ s : State, ∃ t, exec .predReset s = .next t ∧ t = { s with pred := t.pred } ∧ ∀ j : Fin 4, t.pred[j] = 0#16

/-- BS_RESTART aligns, then by what follows (R197): RST0..RST7 after any fill bytes is consumed, counted and reported,
with SEQWARN if it is not 0xD0 + (RST_K mod 8), and the predictors are reset; another marker or the end sets EOS, is
reported and not consumed; data raise MissingRestart. Nothing else changes. -/
def Obligations.BsRestartConsumesMarker : Prop :=
  decode 0x00000033#32 = .ok .bsRestart ∧
  ∀ s : State, s.bs.stop.toNat ≤ s.ecs.size → s.fault = false →
    let aligned : State := { s with bs := { s.bs with nbits := 0#4 } }
    (∀ k x rest, 0xD0 ≤ x.toNat → x.toNat ≤ 0xD7 →
      windowBytes s.ecs s.bs = List.replicate (k + 1) 0xFF#8 ++ x :: rest →
      exec .bsRestart s = .next { s with
        bs := { s.bs with nbits := 0#4, pos := s.bs.pos + BitVec.ofNat 32 (k + 2) },
        seqwarn := s.seqwarn || decide (x.toNat ≠ 0xD0 + s.rstK.toNat % 8),
        rstK := s.rstK + 1#32, pred := Vector.replicate 4 0#16, result := 0x100#32 ||| x.setWidth 32 }) ∧
    (∀ k x rest, x ≠ 0x00#8 → x ≠ 0xFF#8 → ¬ (0xD0 ≤ x.toNat ∧ x.toNat ≤ 0xD7) →
      windowBytes s.ecs s.bs = List.replicate (k + 1) 0xFF#8 ++ x :: rest →
      exec .bsRestart s = .next { aligned with eos := true, result := 0x100#32 ||| x.setWidth 32 }) ∧
    (∀ k, windowBytes s.ecs s.bs = List.replicate k 0xFF#8 →
      exec .bsRestart s = .next { aligned with eos := true, result := 0x200#32 }) ∧
    (∀ x rest, x ≠ 0xFF#8 → windowBytes s.ecs s.bs = x :: rest →
      exec .bsRestart s = .next (aligned.recorded .missingRestart)) ∧
    (∀ k rest, windowBytes s.ecs s.bs = List.replicate (k + 1) 0xFF#8 ++ 0x00#8 :: rest →
      exec .bsRestart s = .next (aligned.recorded .missingRestart))

/-! ## Faults (60_exceptions.md) -/

/-- `raise F` records FAULT, FCODE, FINFO (OPC of the command word) and FPOS (BS_POS at the command's start), and keeps a
record that is already there; nothing else changes (R226, R223). -/
def Obligations.RaiseKeepsFirstFault : Prop :=
  ∀ (k : FaultKind) (s0 : Word) (s : State),
    raise k s0 s = if s.fault then s
      else { s with fault := true, fcode := k.code, finfo := s.cmdLatch.extractLsb' 0 8, fpos := s0 }

/-- The fault codes are those of R221's table. -/
def Obligations.FaultCodesAreTheTable : Prop :=
  FaultKind.illegalCommand.code = 0x01#8 ∧ FaultKind.tableMissing.code = 0x02#8 ∧
  FaultKind.malformedTable.code = 0x03#8 ∧ FaultKind.malformedBitStream.code = 0x04#8 ∧
  FaultKind.invalidSize.code = 0x05#8 ∧ FaultKind.overrun.code = 0x06#8 ∧ FaultKind.truncated.code = 0x07#8 ∧
  FaultKind.missingRestart.code = 0x08#8 ∧ FaultKind.badWindow.code = 0x09#8

/-- Each command raises only the faults R222 lists for it. -/
def Obligations.CommandsRaiseOnlyTheirFaults : Prop :=
  ∀ (i : Instr) (s t : State), i.wellFormed = true → s.fault = false → exec i s = .next t → t.fault = true →
    t.fcode ∈ match i with
      | .nop => ([] : List Byte)
      | .htBuild _ => [FaultKind.malformedTable.code]
      | .qtSet _ _ => []
      | .bsInit => [FaultKind.badWindow.code]
      | .bsRead _ => [FaultKind.truncated.code]
      | .bsAlign => []
      | .bsPeek => []
      | .hufDecode _ => [FaultKind.tableMissing.code, FaultKind.truncated.code, FaultKind.malformedBitStream.code]
      | .duDecode _ _ _ _ => [FaultKind.tableMissing.code, FaultKind.truncated.code,
          FaultKind.malformedBitStream.code, FaultKind.invalidSize.code, FaultKind.overrun.code]
      | .predReset => []
      | .bsRestart => [FaultKind.missingRestart.code]
      | .dequant _ => [FaultKind.tableMissing.code]
      | .idct => []

/-- The state a faulting command leaves is the fault record and what R227's table says, command by command. -/
def Obligations.FaultLeavesStateOfTable : Prop :=
  ∀ (i : Instr) (s t : State), i.wellFormed = true → s.fault = false → exec i s = .next t → t.fault = true →
    ∃ k : FaultKind,
      match i with
      | .htBuild slot => t = { s.recorded k with htv := s.htv.set slot.val false }
      | .bsInit => t = { s.recorded k with
          seqwarn := false, eos := false, rstK := 0#32, pred := Vector.replicate 4 0#16,
          bs := ⟨0#32, 0#32, 0#8, 0#4, 0#32⟩ }
      | .bsRead _ => s.streamFaulted k t
      | .hufDecode _ => if k = .tableMissing then t = s.recorded k else s.streamFaulted k t
      | .duDecode pred _ _ _ => if k = .tableMissing then t = s.recorded k else s.unitFaulted k pred t
      | .bsRestart => t = { s.recorded k with bs := { s.bs with nbits := 0#4 } }
      | .dequant _ => t = s.recorded k
      | _ => False

/-- Only BS_INIT and reset clear a fault or change its record (R230). -/
def Obligations.OnlyBsInitOrResetClearsFault : Prop :=
  ∀ (s t : State), s.fault = true → step s = .next t →
    (t.fault = true ∧ t.fcode = s.fcode ∧ t.finfo = s.finfo ∧ t.fpos = s.fpos) ∨
    (∃ rest, s.pending = .reset :: rest) ∨
    (∃ rest, s.engineNext rest ∧ s.busy = true ∧ s.cmdLatch = 0x00000020#32)

/-! ## What commands leave alone -/

/-- No command writes the ECS buffer (every byte reads as before, R64), the Huffman storage, CTRL, ECS_START, ECS_LEN,
CMDLATCH or BUSY, and none moves the host's schedule or its last reply. -/
def Obligations.CommandsLeaveHostStorage : Prop :=
  ∀ (i : Instr) (s t : State), exec i s = .next t →
    (∀ a, t.ecs.read a = s.ecs.read a) ∧ t.ecs = s.ecs ∧ t.htc = s.htc ∧ t.hts = s.hts ∧ t.ext = s.ext ∧
    t.ecsStart = s.ecsStart ∧ t.ecsLen = s.ecsLen ∧ t.cmdLatch = s.cmdLatch ∧ t.busy = s.busy ∧
    t.pending = s.pending ∧ t.reply = s.reply

/-- RESULT is written by BS_READ, BS_PEEK, HUF_DECODE, DU_DECODE and BS_RESTART only (R25). -/
def Obligations.ResultWrittenByFiveCommands : Prop :=
  State.reset.result = 0#32 ∧
  ∀ (i : Instr) (s t : State), exec i s = .next t → t.result ≠ s.result →
    match i with
    | .bsRead _ => True
    | .bsPeek => True
    | .hufDecode _ => True
    | .duDecode _ _ _ _ => True
    | .bsRestart => True
    | _ => False

/-- A predictor is written by DU_DECODE with that predictor as its operand, by BS_INIT, by PRED_RESET and by a BS_RESTART
that consumes a restart marker (RST_K then changes), and by nothing else (R35). -/
def Obligations.PredictorsWrittenByTheirCommands : Prop :=
  ∀ (i : Instr) (s t : State) (j : Fin 4), exec i s = .next t → t.pred[j] ≠ s.pred[j] →
    match i with
    | .duDecode pred _ _ _ => pred = j
    | .bsInit => t.pred[j] = 0#16
    | .predReset => t.pred[j] = 0#16
    | .bsRestart => t.pred[j] = 0#16 ∧ t.rstK = s.rstK + 1#32
    | _ => False

/-- BS_END changes only at BS_INIT and reset (R30). -/
def Obligations.WindowEndChangesOnlyAtBsInit : Prop :=
  ∀ (s t : State), step s = .next t → t.bs.stop ≠ s.bs.stop →
    (∃ rest, s.pending = .reset :: rest) ∨
    (∃ rest, s.engineNext rest ∧ s.busy = true ∧ s.cmdLatch = 0x00000020#32)

/-- A validity bit is set by HT_BUILD or QT_SET of its table only, and cleared only by reset, by a host write to its
table's window, or (HTV) by a failed HT_BUILD of its slot (R34). -/
def Obligations.ValidityBitsFollowTables : Prop :=
  ∀ (s t : State), step s = .next t →
    (∀ slot : Fin 8, t.htv[slot] ≠ s.htv[slot] →
      (∃ rest, s.pending = .reset :: rest ∧ t.htv[slot] = false) ∨
      (∃ off v rest, s.pending = .write 32 off v :: rest ∧ t.htv[slot] = false ∧
        ((0x1000 + 16 * slot.val ≤ off ∧ off < 0x1000 + 16 * slot.val + 16) ∨
          (0x1800 + 256 * slot.val ≤ off ∧ off < 0x1800 + 256 * slot.val + 256))) ∨
      (∃ rest, s.engineNext rest ∧ s.busy = true ∧ decode s.cmdLatch = .ok (.htBuild slot) ∧
        (t.htv[slot] = true ↔ t.fault = false))) ∧
    (∀ u : Fin 4, t.qtv[u] ≠ s.qtv[u] →
      (∃ rest, s.pending = .reset :: rest ∧ t.qtv[u] = false) ∨
      (∃ off v rest, s.pending = .write 32 off v :: rest ∧ t.qtv[u] = false ∧
        0x2000 + 128 * u.val ≤ off ∧ off < 0x2000 + 128 * u.val + 128) ∨
      (∃ prec rest, s.engineNext rest ∧ s.busy = true ∧ decode s.cmdLatch = .ok (.qtSet u prec) ∧
        t.qtv[u] = true))

/-- SEQWARN and EOS are sticky until BS_INIT or reset, which clear both, and are set by BS_RESTART only (R225). -/
def Obligations.WarningsAreSticky : Prop :=
  ∀ (s t : State), step s = .next t →
    (t.seqwarn ≠ s.seqwarn ∨ t.eos ≠ s.eos) →
      (∃ rest, s.pending = .reset :: rest ∧ t.seqwarn = false ∧ t.eos = false) ∨
      (∃ rest, s.engineNext rest ∧ s.busy = true ∧ s.cmdLatch = 0x00000020#32 ∧ t.seqwarn = false ∧ t.eos = false) ∨
      (∃ rest, s.engineNext rest ∧ s.busy = true ∧ s.cmdLatch = 0x00000033#32 ∧
        (s.seqwarn = true → t.seqwarn = true) ∧ (s.eos = true → t.eos = true))

/-! ## Reset (10_state.md R46, 70_reset_and_hazards.md R240) -/

/-- Reset sets every register at once to the value of R46's table, abandoning a command in flight, and leaves the
buffer's size, which is configuration (R20); and the machine starts in such a state. The storages and CMDLATCH are unspecified, so nothing is said of them. That QTP is 0 is the model's
reading of R34 and R46 over 93 item 1 (log 5). -/
def Obligations.ResetSetsRegisters : Prop :=
  let resetValues : State → Prop := fun t =>
    t.ext = false ∧ t.busy = false ∧ t.fault = false ∧ t.seqwarn = false ∧ t.eos = false ∧ t.fcode = 0#8 ∧
    t.result = 0#32 ∧ t.finfo = 0#8 ∧ t.fpos = 0#32 ∧ t.ecsStart = 0#32 ∧ t.ecsLen = 0#32 ∧
    t.bs = ⟨0#32, 0#32, 0#8, 0#4, 0#32⟩ ∧ t.rstK = 0#32 ∧
    (∀ j : Fin 8, t.htv[j] = false) ∧ (∀ j : Fin 4, t.qtv[j] = false ∧ t.qtp[j] = .eight ∧ t.pred[j] = 0#16)
  resetValues State.reset ∧ (∀ n, resetValues (State.resetSized n)) ∧
  ∀ (s : State) (rest : List Event), s.pending = .reset :: rest →
    ∃ t, step s = .next t ∧ resetValues t ∧ t.pending = rest ∧ t.ecs.size = s.ecs.size

/-! ## The host window (20_memory.md) -/

/-- While BUSY = 0 a read of a register offset returns the register of R62's map with the fields of 10_state.md, and every
unmapped offset below 0x1000 reads 0 (R67). Only the reply changes. -/
def Obligations.HostReadsRegisters : Prop :=
  ∀ (s : State) (off : Nat) (rest : List Event), s.busy = false → s.pending = .read 32 off :: rest →
    off % 4 = 0 → off < 0x1000 →
    ∃ t, step s = .next t ∧ t = { s with reply := t.reply, pending := rest } ∧
      (off = 0x000 → t.reply = 0x4A484430#32) ∧
      (off = 0x004 → t.reply = if s.ext then 1#32 else 0#32) ∧
      (off = 0x00C → t.reply = 0#16 ++ s.fcode ++ 0#4 ++ BitVec.ofBool s.eos ++ BitVec.ofBool s.seqwarn ++
        BitVec.ofBool s.fault ++ 0#1) ∧
      (off = 0x010 → t.reply = s.result) ∧
      (off = 0x014 → t.reply = s.finfo.setWidth 32) ∧
      (off = 0x018 → t.reply = s.fpos) ∧
      (off = 0x01C → t.reply = s.ecsStart) ∧
      (off = 0x020 → t.reply = s.ecsLen) ∧
      (off = 0x024 → t.reply = s.bs.pos) ∧
      (off = 0x028 → t.reply = s.bs.stop) ∧
      (off = 0x02C → t.reply = 0#20 ++ s.bs.nbits ++ s.bs.cur) ∧
      (off = 0x030 → t.reply = s.bs.bitcnt) ∧
      (off = 0x034 → t.reply = s.rstK) ∧
      (off = 0x038 → (∀ i : Fin 8, t.reply.getLsbD i.val = s.htv[i]) ∧
        (∀ i : Fin 4, t.reply.getLsbD (8 + i.val) = s.qtv[i]) ∧
        (∀ i : Fin 4, t.reply.getLsbD (12 + i.val) = decide (s.qtp[i] = .sixteen)) ∧
        t.reply.extractLsb' 16 16 = 0#16) ∧
      (∀ j : Fin 4, off = 0x040 + 4 * j.val → (t.reply).toInt = (s.pred[j]).toInt) ∧
      ((off = 0x008 ∨ off = 0x03C ∨ 0x050 ≤ off) → t.reply = 0#32)

/-- While BUSY = 0 a read of a storage offset returns its cells packed little-endian (R62, R63), and every unmapped offset
from 0x1000 on reads 0 (R67). -/
def Obligations.HostReadsStorages : Prop :=
  ∀ (s : State) (off : Nat) (rest : List Event), s.busy = false → s.pending = .read 32 off :: rest →
    off % 4 = 0 → 0x1000 ≤ off → off < 0x10000 + s.ecs.size →
    ∃ t, step s = .next t ∧ t = { s with reply := t.reply, pending := rest } ∧
      (∀ (slot : Fin 8) (m b : Fin 4), off = 0x1000 + 16 * slot.val + 4 * m.val →
        t.reply.extractLsb' (8 * b.val) 8 = s.htc[slot][4 * m.val + b.val]'(by omega)) ∧
      (∀ (slot : Fin 8) (m : Fin 64) (b : Fin 4), off = 0x1800 + 256 * slot.val + 4 * m.val →
        t.reply.extractLsb' (8 * b.val) 8 = s.hts[slot][4 * m.val + b.val]'(by omega)) ∧
      (∀ (u : Fin 4) (m : Fin 32) (h : Fin 2), off = 0x2000 + 128 * u.val + 4 * m.val →
        t.reply.extractLsb' (16 * h.val) 16 = s.qte[u][2 * m.val + h.val]'(by omega)) ∧
      (∀ k : Fin 64, off = 0x3000 + 4 * k.val → (t.reply).toInt = (s.du[k]).toInt) ∧
      (∀ k : Fin 64, off = 0x3100 + 4 * k.val → t.reply = s.blk[k]) ∧
      (∀ (m : Fin 16) (b : Fin 4), off = 0x3200 + 4 * m.val →
        t.reply.extractLsb' (8 * b.val) 8 = s.sample[4 * m.val + b.val]'(by omega)) ∧
      (∀ (a : Nat) (b : Fin 4), off = 0x10000 + a → t.reply.extractLsb' (8 * b.val) 8 = s.ecs.read (a + b.val)) ∧
      (((0x1080 ≤ off ∧ off < 0x1800) ∨ (0x2200 ≤ off ∧ off < 0x3000) ∨ (0x3240 ≤ off ∧ off < 0x10000)) →
        t.reply = 0#32)

/-- No host read has a side effect (R66): only what the model holds of the host (the reply, the schedule, the count of
draws) changes. -/
def Obligations.HostReadHasNoSideEffect : Prop :=
  ∀ (s t : State) (width off : Nat) (rest : List Event), s.pending = .read width off :: rest → step s = .next t →
    t = { s with reply := t.reply, draws := t.draws, pending := rest }

/-- While BUSY = 1 a STATUS read returns BUSY = 1, any other read completes, and every write is refused (R68). What is
read but for BUSY is unspecified, so nothing is said of it. -/
def Obligations.AccessWhileBusy : Prop :=
  ∀ (s : State) (off : Nat) (rest : List Event), s.busy = true → off % 4 = 0 → off < 0x10000 + s.ecs.size →
    (s.pending = .read 32 off :: rest → ∃ t, step s = .next t ∧
      t = { s with reply := t.reply, draws := t.draws, pending := rest } ∧
      (off = 0x00C → t.reply.getLsbD 0 = true)) ∧
    (∀ v, s.pending = .write 32 off v :: rest → step s = .refused .hostWriteWhileBusy)

/-- Host writes to registers while BUSY = 0 (R66): CTRL keeps bit 0, ECS_START and ECS_LEN store the word, and the
read-only registers, SAMPLE and the unmapped offsets (R67) ignore it. -/
def Obligations.HostWritesRegisters : Prop :=
  ∀ (s : State) (off : Nat) (v : Word) (rest : List Event), s.busy = false → s.pending = .write 32 off v :: rest →
    (off = 0x004 → step s = .next { s with ext := v.getLsbD 0, pending := rest }) ∧
    (off = 0x01C → step s = .next { s with ecsStart := v, pending := rest }) ∧
    (off = 0x020 → step s = .next { s with ecsLen := v, pending := rest }) ∧
    (off % 4 = 0 →
      (off = 0x000 ∨ off = 0x00C ∨ off = 0x010 ∨ off = 0x014 ∨ off = 0x018 ∨ (0x024 ≤ off ∧ off < 0x1000) ∨
        (0x1080 ≤ off ∧ off < 0x1800) ∨ (0x2200 ≤ off ∧ off < 0x3000) ∨ (0x3200 ≤ off ∧ off < 0x10000)) →
      step s = .next { s with pending := rest })

/-- Host writes to the table storages while BUSY = 0 (R66): the word's bytes or entries are stored, the table's validity
bit is cleared, and every other cell, and all other state, is unchanged. -/
def Obligations.HostWritesTables : Prop :=
  ∀ (s : State) (v : Word) (rest : List Event), s.busy = false →
    (∀ (slot : Fin 8) (m : Fin 4), s.pending = .write 32 (0x1000 + 16 * slot.val + 4 * m.val) v :: rest →
      ∃ t, step s = .next t ∧ t = { s with htc := t.htc, htv := s.htv.set slot.val false, pending := rest } ∧
        ∀ (r : Fin 8) (i : Fin 16), t.htc[r][i] =
          if r = slot ∧ i.val / 4 = m.val then v.extractLsb' (8 * (i.val % 4)) 8 else s.htc[r][i]) ∧
    (∀ (slot : Fin 8) (m : Fin 64), s.pending = .write 32 (0x1800 + 256 * slot.val + 4 * m.val) v :: rest →
      ∃ t, step s = .next t ∧ t = { s with hts := t.hts, htv := s.htv.set slot.val false, pending := rest } ∧
        ∀ (r : Fin 8) (j : Fin 256), t.hts[r][j] =
          if r = slot ∧ j.val / 4 = m.val then v.extractLsb' (8 * (j.val % 4)) 8 else s.hts[r][j]) ∧
    (∀ (u : Fin 4) (m : Fin 32), s.pending = .write 32 (0x2000 + 128 * u.val + 4 * m.val) v :: rest →
      ∃ t, step s = .next t ∧ t = { s with qte := t.qte, qtv := s.qtv.set u.val false, pending := rest } ∧
        ∀ (r : Fin 4) (k : Fin 64), t.qte[r][k] =
          if r = u ∧ k.val / 2 = m.val then v.extractLsb' (16 * (k.val % 2)) 16 else s.qte[r][k])

/-- Host writes to DU and BLK while BUSY = 0 (R66, R39, R40): DU takes bits 15:0, BLK the word, every other entry and all
other state is unchanged, no validity bit among it. -/
def Obligations.HostWritesBuffers : Prop :=
  ∀ (s : State) (v : Word) (k : Fin 64) (rest : List Event), s.busy = false →
    (s.pending = .write 32 (0x3000 + 4 * k.val) v :: rest →
      ∃ t, step s = .next t ∧ t = { s with du := t.du, pending := rest } ∧ t.du[k] = v.extractLsb' 0 16 ∧
        ∀ j : Fin 64, j ≠ k → t.du[j] = s.du[j]) ∧
    (s.pending = .write 32 (0x3100 + 4 * k.val) v :: rest →
      ∃ t, step s = .next t ∧ t = { s with blk := t.blk, pending := rest } ∧ t.blk[k] = v ∧
        ∀ j : Fin 64, j ≠ k → t.blk[j] = s.blk[j])

/-- A host write to the ECS buffer while BUSY = 0 stores its four bytes little-endian, leaves every other byte, keeps the
memory's canonical form and its size, and changes no other state, CUR and the validity bits among it (R66, R63, R72). -/
def Obligations.HostWritesEcsBuffer : Prop :=
  ∀ (s : State) (a : Nat) (v : Word) (rest : List Event), s.busy = false → s.ecs.wf = true →
    a % 4 = 0 → a < s.ecs.size → s.pending = .write 32 (0x10000 + a) v :: rest →
    ∃ t, step s = .next t ∧ t = { s with ecs := t.ecs, pending := rest } ∧ t.ecs.wf = true ∧ t.ecs.size = s.ecs.size ∧
      ∀ x, t.ecs.read x = if a ≤ x ∧ x < a + 4 then v.extractLsb' (8 * (x - a)) 8 else s.ecs.read x
end

