-- ==== Sys2Proof/Laws/Decode.lean ====
section
/-! SUPPORT. Sys2Proof/Laws/Decode.lean: the decoder as the opcode map says it (30_encoding.md R88 to R90). -/

namespace Sys2Proof

/-- Every row's mask covers OPC, and its value is its OPC (R82 to R87). -/
theorem rows_low : ∀ r ∈ opcodeMap, r.mask &&& 0xFF#32 = 0xFF#32 ∧ r.value &&& 0xFF#32 = r.value := by
  simp [opcodeMap]

/-- No two rows share an opcode (R89). -/
theorem rows_inj : opcodeMap.Pairwise fun r r' => r.value ≠ r'.value := by
  simp [opcodeMap]

/-- A word of a row has the row's OPC in bits 7:0. -/
theorem row_low {w : Word} {r : OpcodeRow} (hr : r ∈ opcodeMap) (h : w &&& r.mask = r.value) : w &&& 0xFF#32 = r.value := by
  obtain ⟨h1, h2⟩ := rows_low r hr
  rw [← h2, ← h, BitVec.and_assoc, h1]

/-- Where rows have different opcodes, the row found is the one whose mask and value the word meets. -/
theorem find_row {w : Word} (l : List OpcodeRow) (hl : l.Pairwise fun r r' => r.value ≠ r'.value)
    (hlow : ∀ r ∈ l, w &&& r.mask = r.value → w &&& 0xFF#32 = r.value) (r : OpcodeRow) :
    l.find? (fun r => w &&& r.mask == r.value) = some r ↔ r ∈ l ∧ w &&& r.mask = r.value := by
  constructor
  · intro h
    exact ⟨List.mem_of_find?_eq_some h, by simpa using List.find?_some h⟩
  · rintro ⟨hr, h⟩
    induction l with
    | nil => simp at hr
    | cons a l ih =>
      rw [List.pairwise_cons] at hl
      rcases List.mem_cons.1 hr with rfl | hr'
      · simp [List.find?, h]
      · have : ¬ (w &&& a.mask = a.value) := by
          intro ha
          exact hl.1 r hr' ((hlow a (by simp) ha).symm.trans (hlow r (by simp [hr']) h))
        simp only [List.find?]
        have hb : (w &&& a.mask == a.value) = false := by simpa using this
        rw [hb]
        exact ih hl.2 (fun r hr => hlow r (by simp [hr])) hr'

/-- What decode answers: the command of the one row the word meets, where that is well-formed (R89, R90). -/
theorem decode_iff (w : Word) (i : Instr) : decode w = .ok i ↔
    ∃ r ∈ opcodeMap, w &&& r.mask = r.value ∧ (r.build w).wellFormed = true ∧ r.build w = i := by
  have key := find_row (w := w) opcodeMap rows_inj (fun r hr h => row_low hr h)
  unfold decode
  cases hf : opcodeMap.find? (fun r => w &&& r.mask == r.value) with
  | none =>
    have hno : ∀ r ∈ opcodeMap, ¬ (w &&& r.mask = r.value) := by
      intro r hr h; have := (key r).2 ⟨hr, h⟩; simp [hf] at this
    constructor
    · intro h; dsimp only at h; split at h <;> simp at h
    · rintro ⟨r, hr, h, -⟩; exact absurd h (hno r hr)
  | some r =>
    obtain ⟨hr, h⟩ := (key r).1 hf
    dsimp only
    constructor
    · intro hh
      split at hh
      · exact ⟨r, hr, h, by assumption, by simpa using hh⟩
      · simp at hh
    · rintro ⟨r', hr', h', hwf, rfl⟩
      have := (key r').2 ⟨hr', h'⟩
      rw [hf] at this
      cases this
      simp [hwf]

/-- A field of `m` bits from `lo` up, as an operand (R88). -/
theorem finField_eq {w : Word} {lo n m : Nat} [NeZero n] (hn : n = 2 ^ m) (x : Fin n) :
    finField w lo n = x ↔ x.val = (w.extractLsb' lo m).toNat := by
  subst hn
  simp only [Fin.ext_iff, finField, Fin.ofNat, BitVec.extractLsb'_toNat]
  exact eq_comm

/-- `w & (mbz | 0xFF) = OPC` is the OPC test and the must-be-zero test of a format apart (R81 to R87, R90). -/
theorem mask_iff (w mz : Word) (v : Byte) (hmz : mz &&& 0xFF#32 = 0#32) :
    w &&& (mz ||| 0xFF#32) = v.setWidth 32 ↔ w.extractLsb' 0 8 = v ∧ w &&& mz = 0#32 := by
  have h2 : ∀ i, i < 32 → (0xFF#32).getLsbD i = decide (i < 8) := by decide
  have hb : ∀ i, i < 32 → (mz.getLsbD i && decide (i < 8)) = false := by
    intro i hi
    have := congrArg (fun x => x.getLsbD i) hmz
    simp only [BitVec.getLsbD_and, BitVec.getLsbD_zero] at this
    rwa [h2 i hi] at this
  constructor
  · intro h
    have hh : ∀ i, i < 32 → (w.getLsbD i && (mz.getLsbD i || decide (i < 8))) = (v.getLsbD i) := by
      intro i hi
      have := congrArg (fun x => x.getLsbD i) h
      simp only [BitVec.getLsbD_and, BitVec.getLsbD_or, h2 i hi, BitVec.getLsbD_setWidth, hi, decide_true, Bool.true_and] at this
      exact this
    constructor
    · apply BitVec.eq_of_getLsbD_eq
      intro i hi
      have := hh i (by omega)
      simpa [hi] using this
    · apply BitVec.eq_of_getLsbD_eq
      intro i hi
      have h3 := hh i hi
      have h4 := hb i hi
      by_cases h8 : i < 8
      · simp [h8] at h4; simp [h4]
      · have : v.getLsbD i = false := BitVec.getLsbD_of_ge _ _ (by omega)
        simpa [h8, this] using h3
  · rintro ⟨h, h0⟩
    apply BitVec.eq_of_getLsbD_eq
    intro i hi
    have h3 := congrArg (fun x => x.getLsbD i) h0
    simp at h3
    simp only [BitVec.getLsbD_and, BitVec.getLsbD_or, h2 i hi, BitVec.getLsbD_setWidth, hi, ← h]
    by_cases h8 : i < 8
    · simp [h8]
    · cases hw : w.getLsbD i <;> cases hm : mz.getLsbD i <;> simp_all

end Sys2Proof
end

