-- ==== Sys2Proof/Laws/Stream.lean ====
section
/-! SUPPORT. Sys2Proof/Laws/Stream.lean: what the bit source's functions do, in terms of the bytes of the window and the bits
still to be delivered. -/

namespace Sys2Proof.Machine

/-! ### Bits and values -/

@[simp] theorem bitsOf_zero (v : Nat) : bitsOf 0 v = [] := rfl

theorem bitsOf_succ (n v : Nat) : bitsOf (n + 1) v = v.testBit n :: bitsOf n v := by
  simp only [bitsOf, List.range_succ_eq_map, List.map_cons, List.map_map]
  congr 1
  apply List.map_congr_left
  intro i _
  simp only [Function.comp_apply]
  congr 1
  omega

@[simp] theorem length_bitsOf (n v : Nat) : (bitsOf n v).length = n := by simp [bitsOf]

/-- Two numbers of `n` bits with the same bits are the same. -/
theorem bitsOf_inj {n v w : Nat} (hv : v < 2 ^ n) (hw : w < 2 ^ n) (h : bitsOf n v = bitsOf n w) : v = w := by
  apply Nat.eq_of_testBit_eq
  intro i
  by_cases hi : i < n
  · have := congrArg (fun l => l[n - 1 - i]?) h
    have h2 : n - 1 - i < n := by omega
    simpa [bitsOf, h2, show n - 1 - (n - 1 - i) = i by omega] using this
  · have hp : 2 ^ n ≤ 2 ^ i := Nat.pow_le_pow_right (by norm_num) (by omega)
    rw [Nat.testBit_lt_two_pow (by omega), Nat.testBit_lt_two_pow (by omega)]

theorem foldl_value (bits : List Bool) (v : Nat) :
    bits.foldl (fun v b => 2 * v + b.toNat) v = v * 2 ^ bits.length + valueOf bits := by
  unfold valueOf
  induction bits generalizing v with
  | nil => simp
  | cons b bits ih =>
    simp only [List.foldl_cons, List.length_cons]
    rw [ih, ih (2 * 0 + b.toNat)]
    ring

theorem valueOf_cons (b : Bool) (bits : List Bool) :
    valueOf (b :: bits) = b.toNat * 2 ^ bits.length + valueOf bits := by
  have := foldl_value bits (2 * 0 + b.toNat)
  simpa [valueOf] using this

theorem valueOf_append_one (bits : List Bool) (b : Bool) : valueOf (bits ++ [b]) = 2 * valueOf bits + b.toNat := by
  simp [valueOf, List.foldl_append]

/-- A string of n bits has a value below 2^n. -/
theorem valueOf_lt (bits : List Bool) : valueOf bits < 2 ^ bits.length := by
  induction bits with
  | nil => simp [valueOf]
  | cons b bits ih =>
    rw [valueOf_cons, List.length_cons, pow_succ]
    cases b <;> simp <;> omega

/-! ### scanAt -/

/-- Bytes `p` to `p + left - 1` of the buffer. -/
def bytesFrom (m : Memory) (p left : Nat) : List Byte := (List.range' p left).map m.read

theorem bytesFrom_succ (m : Memory) (p left : Nat) :
    bytesFrom m p (left + 1) = m.read p :: bytesFrom m (p + 1) left := by
  simp [bytesFrom, List.range'_succ]

theorem memRead_ok {m : Memory} {a : Nat} (h : a < m.size) : memRead m a = .ok (m.read a) := by
  simp [memRead, h]

theorem dataFrom_data (p : Nat) {b : Byte} (h : b ≠ 0xFF#8) (rest : List Byte) :
    dataFrom p (b :: rest) = (b, p + 1) :: dataFrom (p + 1) rest := by
  rw [dataFrom.eq_def]; simp [h]

theorem dataFrom_lone (p : Nat) : dataFrom p [0xFF#8] = [] := rfl

theorem dataFrom_stuffed (p : Nat) (rest : List Byte) :
    dataFrom p (0xFF#8 :: 0x00#8 :: rest) = (0xFF#8, p + 2) :: dataFrom (p + 2) rest := by
  rw [dataFrom.eq_def]; simp

theorem dataFrom_fill (p : Nat) (rest : List Byte) :
    dataFrom p (0xFF#8 :: 0xFF#8 :: rest) = dataFrom (p + 1) (0xFF#8 :: rest) := by
  conv_lhs => rw [dataFrom.eq_def]
  simp

theorem dataFrom_marker (p : Nat) {n : Byte} (h0 : n ≠ 0x00#8) (hF : n ≠ 0xFF#8) (rest : List Byte) :
    dataFrom p (0xFF#8 :: n :: rest) = [] := by
  rw [dataFrom.eq_def]; simp [h0, hF]

/-- What scanAt finds in a window inside the buffer, as the data of the window say (41_bitsource.md R111). -/
theorem scanFrom_spec (m : Memory) (left p : Nat) (h : p + left ≤ m.size) :
    (∃ x q, scanFrom m left p = .ok (.data x q) ∧ p < q ∧ q ≤ p + left ∧
        dataFrom p (bytesFrom m p left) = (x, q) :: dataFrom q (bytesFrom m q (p + left - q))) ∨
      (∃ x q, scanFrom m left p = .ok (.marker x q (q + 2)) ∧ p ≤ q ∧ q + 2 ≤ p + left ∧
        dataFrom p (bytesFrom m p left) = []) ∨
      (scanFrom m left p = .ok .endOfWindow ∧ dataFrom p (bytesFrom m p left) = []) := by
  induction left generalizing p with
  | zero => exact .inr (.inr ⟨rfl, rfl⟩)
  | succ left ih =>
    rw [scanFrom, memRead_ok (by omega), bytesFrom_succ]
    simp only
    by_cases hb : m.read p = 0xFF#8
    · rw [if_neg (by simp [hb])]
      cases left with
      | zero => exact .inr (.inr ⟨by simp, by rw [hb]; exact dataFrom_lone p⟩)
      | succ left =>
        rw [if_neg (by omega), memRead_ok (by omega), bytesFrom_succ]
        simp only
        by_cases h0 : m.read (p + 1) = 0x00#8
        · refine .inl ⟨0xFF#8, p + 2, by simp [h0], by omega, by omega, ?_⟩
          rw [hb, h0, dataFrom_stuffed, show p + (left + 1 + 1) - (p + 2) = left by omega]
        · rw [if_neg h0]
          by_cases hF : m.read (p + 1) = 0xFF#8
          · rw [if_pos hF, hb]
            have key : dataFrom p (0xFF#8 :: m.read (p + 1) :: bytesFrom m (p + 1 + 1) left) =
                dataFrom (p + 1) (bytesFrom m (p + 1) (left + 1)) := by
              rw [bytesFrom_succ, hF, dataFrom_fill]
            rw [key]
            rcases ih (p + 1) (by omega) with ⟨x, q, h1, h2, h3, h4⟩ | ⟨x, q, h1, h2, h3, h4⟩ | ⟨h1, h2⟩
            · exact .inl ⟨x, q, h1, by omega, by omega, by
                rw [h4, show p + 1 + (left + 1) - q = p + (left + 1 + 1) - q by omega]⟩
            · exact .inr (.inl ⟨x, q, h1, by omega, by omega, h4⟩)
            · exact .inr (.inr ⟨h1, h2⟩)
          · refine .inr (.inl ⟨m.read (p + 1), p, by simp [hF], le_refl _, by omega, ?_⟩)
            rw [hb, dataFrom_marker p h0 hF]
    · exact .inl ⟨m.read p, p + 1, by simp [hb], by omega, by omega, by
        rw [dataFrom_data p hb, show p + (left + 1) - (p + 1) = left by omega]⟩

theorem windowBytes_eq (m : Memory) (b : BitSource) :
    windowBytes m b = bytesFrom m b.pos.toNat (b.stop.toNat - b.pos.toNat) := rfl

/-- scanAt never reads outside the buffer when the window lies in it. -/
theorem scanAtPos_ok (m : Memory) (b : BitSource) (h : b.stop.toNat ≤ m.size) :
    ∃ r, scanAtPos m b = .ok r := by
  unfold scanAtPos
  by_cases hp : b.pos.toNat ≤ b.stop.toNat
  · rcases scanFrom_spec m (b.stop.toNat - b.pos.toNat) b.pos.toNat (by omega) with
      ⟨x, q, h1, _⟩ | ⟨x, q, h1, _⟩ | ⟨h1, _⟩ <;> exact ⟨_, h1⟩
  · rw [show b.stop.toNat - b.pos.toNat = 0 by omega]; exact ⟨_, rfl⟩

/-! ### readBit -/

/-- The window lies in the buffer `m` and NBITS is at most 8. -/
structure BitSource.Good (m : Memory) (b : BitSource) : Prop where
  window : b.stop.toNat ≤ m.size
  bits : b.nbits.toNat ≤ 8

/-- From one bit source to a later one of the same command, `n` bits on: all that its registers say (R112), and what
goes on for the reads after it. -/
structure BitSource.After (m : Memory) (b b' : BitSource) (n : Nat) : Prop where
  delivered : b.Delivered m n b'
  good : b'.Good m
  data : windowData m b' = (windowData m b).drop (b.fetched n)
  pos : b.pos.toNat ≤ b.stop.toNat → b'.pos.toNat ≤ b'.stop.toNat
  buffered : n ≠ 0 ∨ b.nbits.toNat ≤ 7 → b'.nbits.toNat ≤ 7

theorem BitSource.After.stop {m : Memory} {b b' : BitSource} {n : Nat} (h : b.After m b' n) : b'.stop = b.stop :=
  h.delivered.stop

theorem BitSource.After.count {m : Memory} {b b' : BitSource} {n : Nat} (h : b.After m b' n) :
    b'.bitcnt = b.bitcnt + BitVec.ofNat 32 n := h.delivered.count

theorem BitSource.fetched_zero (b : BitSource) : b.fetched 0 = 0 := by simp [fetched]

theorem BitSource.After.refl {m : Memory} {b : BitSource} (h : b.Good m) : b.After m b 0 where
  delivered := ⟨rfl, by simp, by rw [fetched_zero], fun _ => ⟨rfl, rfl⟩, fun h => absurd b.fetched_zero h⟩
  good := h
  data := by rw [fetched_zero]; rfl
  pos := id
  buffered := by simp

/-- The bytes fetched for `n` bits and then for `n'` more. -/
theorem BitSource.Delivered.fetched_add {m : Memory} {b b' : BitSource} {n : Nat} (h : b.Delivered m n b') (n' : Nat) :
    b.fetched (n + n') = b.fetched n + b'.fetched n' := by
  have := h.left
  unfold fetched at *
  omega

theorem BitSource.After.trans {m : Memory} {b b' b'' : BitSource} {n n' : Nat} (h : b.After m b' n)
    (h' : b'.After m b'' n') : b.After m b'' (n + n') where
  delivered := by
    have e := h.delivered.fetched_add n'
    have l := h.delivered.left
    have l' := h'.delivered.left
    refine ⟨h'.stop.trans h.stop, by rw [h'.count, h.count, BitVec.ofNat_add, BitVec.add_assoc], by omega, ?_, ?_⟩
    · intro h0
      obtain ⟨p1, c1⟩ := h.delivered.kept (by omega)
      obtain ⟨p2, c2⟩ := h'.delivered.kept (by omega)
      exact ⟨p2.trans p1, c2.trans c1⟩
    · intro h0
      by_cases h1 : b'.fetched n' = 0
      · obtain ⟨p2, c2⟩ := h'.delivered.kept h1
        rw [p2, c2, e, h1, Nat.add_zero]
        exact h.delivered.last (by omega)
      · have := h'.delivered.last h1
        rw [h.data, List.getElem?_drop] at this
        rw [← this, e]
        congr 1
        omega
  good := h'.good
  data := by rw [h'.data, h.data, List.drop_drop, h.delivered.fetched_add]
  pos hp := h'.pos (h.pos hp)
  buffered hn := h'.buffered (by
    by_cases h0 : n' = 0
    · exact .inr (h.buffered (by omega))
    · exact .inl h0)

/-- readBit delivers the first bit still to be delivered, and raises Truncated where there is none (R112, R118). -/
theorem readBit_spec (m : Memory) (b : BitSource) (h : b.Good m) :
    (unreadBits m b = [] ∧ readBit m b = .error (.raise .truncated)) ∨
      ∃ bit b', readBit m b = .ok (bit, b') ∧ unreadBits m b = bit :: unreadBits m b' ∧ b.After m b' 1 := by
  have take : ∀ (c : BitSource) (n : Nat), c.nbits.toNat = n + 1 →
      unreadBits m c = (takeBit c).1 :: unreadBits m (takeBit c).2 ∧ (takeBit c).2.nbits.toNat = n := by
    intro c n hn
    have h1 : (c.nbits - 1#4).toNat = n := by
      rw [BitVec.toNat_sub, hn]; simp; have := c.nbits.isLt; omega
    refine ⟨?_, h1⟩
    simp only [unreadBits, takeBit, hn, h1, bitsOf_succ, List.cons_append, Nat.add_sub_cancel]
    rfl
  by_cases h0 : b.nbits = 0#4
  · have hu : unreadBits m b = (windowData m b).flatMap fun x => bitsOf 8 x.1.toNat := by
      simp [unreadBits, h0]
    by_cases hp : b.pos.toNat ≤ b.stop.toNat
    · have hw := h.window
      rcases scanFrom_spec m (b.stop.toNat - b.pos.toNat) b.pos.toNat (by omega) with
        ⟨x, q, h1, h2, h3, h4⟩ | ⟨x, q, h1, h2, h3, h4⟩ | ⟨h1, h2⟩
      · have hq : (BitVec.ofNat 32 q).toNat = q := by
          rw [BitVec.toNat_ofNat]; apply Nat.mod_eq_of_lt; have := b.stop.isLt; omega
        let c : BitSource := { b with cur := x, nbits := 8#4, pos := BitVec.ofNat 32 q }
        have hc : fetchByte m b = .ok c := by simp [fetchByte, h0, scanAtPos, h1, c]
        obtain ⟨t1, t2⟩ := take c 7 rfl
        have hd : windowData m b = (x, q) :: windowData m c := by
          rw [windowData, windowBytes_eq, h4]
          simp only [windowData, windowBytes_eq, c, hq]
          rw [show b.pos.toNat + (b.stop.toNat - b.pos.toNat) - q = b.stop.toNat - q by omega]
        have hf : b.fetched 1 = 1 := by simp [BitSource.fetched, h0]
        refine .inr ⟨(takeBit c).1, (takeBit c).2, by simp only [readBit, hc], ?_, ?_⟩
        · rw [← t1, hu, hd, List.flatMap_cons]
          rfl
        · refine ⟨⟨rfl, by simp [takeBit, c], by rw [t2, hf, h0]; rfl, by rw [hf]; omega, fun _ => ?_⟩,
            ⟨h.window, by omega⟩, by rw [hf, hd]; rfl, fun _ => ?_, fun _ => by omega⟩
          · rw [hf, hd]; simp [takeBit, c, hq]
          · simp only [takeBit, c, hq]; omega
      · refine .inl ⟨by rw [hu, windowData, windowBytes_eq, h4]; rfl, ?_⟩
        simp [readBit, fetchByte, h0, scanAtPos, h1]
      · refine .inl ⟨by rw [hu, windowData, windowBytes_eq, h2]; rfl, ?_⟩
        simp [readBit, fetchByte, h0, scanAtPos, h1]
    · have hz : b.stop.toNat - b.pos.toNat = 0 := by omega
      refine .inl ⟨by rw [hu, windowData, windowBytes_eq, hz]; rfl, ?_⟩
      simp [readBit, fetchByte, h0, scanAtPos, hz, scanFrom]
  · have hn : b.nbits.toNat ≠ 0 := fun hh => h0 (BitVec.eq_of_toNat_eq (by simpa using hh))
    obtain ⟨n, hn'⟩ : ∃ n, b.nbits.toNat = n + 1 := ⟨b.nbits.toNat - 1, by omega⟩
    have hf : b.fetched 1 = 0 := by simp [BitSource.fetched]; omega
    have h8 := h.bits
    obtain ⟨t1, t2⟩ := take b n hn'
    exact .inr ⟨(takeBit b).1, (takeBit b).2, by simp [readBit, fetchByte, h0], t1,
      ⟨⟨rfl, by simp [takeBit], by omega, fun _ => ⟨rfl, rfl⟩, fun h => absurd hf h⟩, ⟨h.window, by omega⟩,
        by rw [hf]; rfl, id, fun _ => by omega⟩⟩

/-! ### readBits -/

theorem readBitsFrom_spec (m : Memory) (n v : Nat) (b : BitSource) (h : b.Good m) :
    if n ≤ (unreadBits m b).length then
      ∃ b', readBitsFrom m n v b = .ok (v * 2 ^ n + valueOf ((unreadBits m b).take n), b') ∧
        unreadBits m b' = (unreadBits m b).drop n ∧ b.After m b' n
    else readBitsFrom m n v b = .error (.raise .truncated) := by
  induction n generalizing v b with
  | zero => simp only [Nat.zero_le, if_true]; exact ⟨b, by simp [readBitsFrom, valueOf], rfl, .refl h⟩
  | succ n ih =>
    rcases readBit_spec m b h with ⟨h1, h2⟩ | ⟨bit, b', h1, h2, h3⟩
    · simp [h1, readBitsFrom, h2]
    · have := ih (2 * v + bit.toNat) b' h3.good
      rw [h2]
      simp only [List.length_cons, Nat.add_le_add_iff_right, readBitsFrom, h1]
      split at this
      · rename_i hle
        obtain ⟨b'', e1, e2, e3⟩ := this
        rw [if_pos hle]
        refine ⟨b'', ?_, by simpa using e2, by simpa [Nat.add_comm] using h3.trans e3⟩
        rw [e1, List.take_succ_cons, valueOf_cons, List.length_take, min_eq_left hle]
        congr 2
        ring
      · rename_i hle
        rw [if_neg hle]; exact this

/-- readBits delivers the next n bits as a number, or raises Truncated (R113). -/
theorem readBits_spec (m : Memory) (n : Nat) (b : BitSource) (h : b.Good m) :
    if n ≤ (unreadBits m b).length then
      ∃ b', readBits m n b = .ok (valueOf ((unreadBits m b).take n), b') ∧
        unreadBits m b' = (unreadBits m b).drop n ∧ b.After m b' n
    else readBits m n b = .error (.raise .truncated) := by
  simpa [readBits] using readBitsFrom_spec m n 0 b h

end Sys2Proof.Machine
end

