-- ==== Sys2Proof/Laws/Huffman.lean ====
section
/-! SUPPORT. Sys2Proof/Laws/Huffman.lean: what canon gives (42_huffman.md R141, R142) and everything hufWalk can answer,
on the bits still to be delivered (R145). -/

namespace Sys2Proof.Machine

/-! ### canon -/

/-- The inner loop of R141 as a list of consecutive codes. -/
theorem codesOfLen_eq (syms : Vector Byte 256) (len n code k : Nat) :
    codesOfLen syms len n code k = (List.range n).map fun i => ⟨len, code + i, symAt syms (k + i)⟩ := by
  induction n generalizing code k with
  | zero => rfl
  | succ n ih =>
    rw [codesOfLen, ih, List.range_succ_eq_map]
    simp [Function.comp_def, Nat.add_assoc, Nat.add_comm 1]

/-- Lengths from `len` on, and no code below `code` extended to its length. -/
theorem canonFrom_len (syms : Vector Byte 256) (cs : List Byte) (len code k : Nat) :
    ∀ e ∈ canonFrom syms cs len code k, len ≤ e.len ∧ e.len < len + cs.length ∧ code ≤ e.code >>> (e.len - len) := by
  induction cs generalizing len code k with
  | nil => simp [canonFrom]
  | cons c cs ih =>
    intro e he
    rw [canonFrom, List.mem_append, codesOfLen_eq] at he
    rcases he with he | he
    · obtain ⟨i, hi, rfl⟩ := List.mem_map.1 he
      simp
    · obtain ⟨h1, h2, h3⟩ := ih _ _ _ e he
      refine ⟨by omega, by simp; omega, ?_⟩
      rw [show e.len - len = (e.len - (len + 1)) + 1 by omega, Nat.shiftRight_add]
      have : 2 * (code + c.toNat) / 2 ≤ (e.code >>> (e.len - (len + 1))) / 2 := Nat.div_le_div_right h3
      simp only [Nat.shiftRight_one]
      omega

/-- Each code is above every extension of every earlier one (R144). -/
theorem canonFrom_pairwise (syms : Vector Byte 256) (cs : List Byte) (len code k : Nat) :
    (canonFrom syms cs len code k).Pairwise fun e e' => e.len ≤ e'.len ∧ e.code < e'.code >>> (e'.len - e.len) := by
  induction cs generalizing len code k with
  | nil => simp [canonFrom]
  | cons c cs ih =>
    rw [canonFrom, List.pairwise_append, codesOfLen_eq]
    refine ⟨?_, ih _ _ _, ?_⟩
    · rw [List.pairwise_map]
      exact (List.pairwise_lt_range).imp (by intro a b h; simp; omega)
    · intro e he e' he'
      obtain ⟨i, hi, rfl⟩ := List.mem_map.1 he
      obtain ⟨h1, h2, h3⟩ := canonFrom_len _ _ _ _ _ e' he'
      refine ⟨by simp; omega, ?_⟩
      simp only at *
      rw [show e'.len - len = (e'.len - (len + 1)) + 1 by omega, Nat.shiftRight_add]
      have : 2 * (code + c.toNat) / 2 ≤ (e'.code >>> (e'.len - (len + 1))) / 2 := Nat.div_le_div_right h3
      simp only [Nat.shiftRight_one]
      simp at hi
      omega

/-- Codes fit where the remaining Kraft sum does (R142). -/
theorem canonFrom_fit (syms : Vector Byte 256) (cs : List Byte) (len code k : Nat)
    (h : cs ≠ [] → code * 2 ^ (cs.length - 1) + kraftFrom (cs.length - 1) cs ≤ 2 ^ (len + (cs.length - 1))) :
    ∀ e ∈ canonFrom syms cs len code k, e.code < 2 ^ e.len := by
  induction cs generalizing len code k with
  | nil => simp [canonFrom]
  | cons c cs ih =>
    intro e he
    have h := h (by simp)
    simp only [List.length_cons, Nat.add_sub_cancel, kraftFrom] at h
    rw [canonFrom, List.mem_append, codesOfLen_eq] at he
    rcases he with he | he
    · obtain ⟨i, hi, rfl⟩ := List.mem_map.1 he
      simp at hi ⊢
      have : (code + c.toNat) * 2 ^ cs.length ≤ 2 ^ len * 2 ^ cs.length := by rw [← pow_add, add_mul]; omega
      have := Nat.le_of_mul_le_mul_right this (by positivity)
      omega
    · refine ih _ _ _ (fun hne => ?_) e he
      obtain ⟨n, hn⟩ : ∃ n, cs.length = n + 1 := ⟨cs.length - 1, by have := List.length_pos_iff.2 hne; omega⟩
      rw [hn] at h ⊢
      simp only [Nat.add_sub_cancel] at *
      have e1 : 2 * (code + c.toNat) * 2 ^ n = code * 2 ^ (n + 1) + c.toNat * 2 ^ (n + 1) := by ring
      have e2 : 2 ^ (len + 1 + n) = 2 ^ (len + (n + 1)) := by congr 1; omega
      rw [e1, e2]; omega

/-- Some code does not fit where the remaining Kraft sum does not (R142). -/
theorem canonFrom_nofit (syms : Vector Byte 256) (cs : List Byte) (len code k : Nat) (hc : code ≤ 2 ^ len) (hne : cs ≠ [])
    (h : 2 ^ (len + (cs.length - 1)) < code * 2 ^ (cs.length - 1) + kraftFrom (cs.length - 1) cs) :
    ∃ e ∈ canonFrom syms cs len code k, 2 ^ e.len ≤ e.code := by
  induction cs generalizing len code k with
  | nil => simp at hne
  | cons c cs ih =>
    simp only [List.length_cons, Nat.add_sub_cancel, kraftFrom] at h
    by_cases hv : 2 ^ len < code + c.toNat
    · refine ⟨⟨len, code + (c.toNat - 1), symAt syms (k + (c.toNat - 1))⟩, ?_, ?_⟩
      · rw [canonFrom, List.mem_append, codesOfLen_eq]
        refine .inl (List.mem_map.2 ⟨c.toNat - 1, by simp; omega, rfl⟩)
      · simp; omega
    · cases hcs : cs with
      | nil =>
        subst hcs
        simp [kraftFrom] at h
        omega
      | cons d ds =>
        obtain ⟨n, hn⟩ : ∃ n, cs.length = n + 1 := ⟨ds.length, by simp [hcs]⟩
        obtain ⟨e, he, h'⟩ := ih (len + 1) (2 * (code + c.toNat)) (k + c.toNat) (by rw [pow_succ]; omega) (by simp [hcs]) (by
          rw [hn] at h ⊢
          simp only [Nat.add_sub_cancel] at *
          have e1 : 2 * (code + c.toNat) * 2 ^ n = code * 2 ^ (n + 1) + c.toNat * 2 ^ (n + 1) := by ring
          have e2 : 2 ^ (len + 1 + n) = 2 ^ (len + (n + 1)) := by congr 1; omega
          rw [e1, e2]; omega)
        rw [hcs] at he
        exact ⟨e, by rw [canonFrom, List.mem_append]; exact .inr he, h'⟩

/-- The Kraft recursion as a sum. -/
theorem kraftFrom_eq (cs : List Byte) (e : Nat) (h : cs.length ≤ e + 1) :
    kraftFrom e cs = ∑ i : Fin cs.length, (cs[i]).toNat * 2 ^ (e - i.val) := by
  induction cs generalizing e with
  | nil => simp [kraftFrom]
  | cons c cs ih =>
    rw [kraftFrom]
    cases cs with
    | nil => simp [kraftFrom]
    | cons d ds =>
      simp at h
      rw [ih (e - 1) (by simp; omega)]
      refine Eq.trans ?_ (Fin.sum_univ_succ (n := (d :: ds).length) (fun i => ((c :: d :: ds)[i.val]).toNat * 2 ^ (e - i.val))).symm
      simp
      apply Finset.sum_congr rfl
      intro i _
      congr 2; omega

/-- The count recursion as a sum. -/
theorem countSum_eq (cs : List Byte) : countSum cs = ∑ i : Fin cs.length, (cs[i]).toNat := by
  induction cs with
  | nil => simp [countSum]
  | cons c cs ih =>
    rw [countSum, ih]
    refine Eq.trans ?_ (Fin.sum_univ_succ (n := cs.length) (fun i => ((c :: cs)[i.val]).toNat)).symm
    simp

/-- KRAFT(s) as R142 writes it. -/
theorem kraft_eq (counts : Vector Byte 16) : kraft counts = ∑ i : Fin 16, (counts[i]).toNat * 2 ^ (15 - i.val) := by
  rw [kraft, kraftFrom_eq _ _ (by simp)]
  have h : counts.toList.length = 16 := by simp
  rw [Fin.sum_congr' (fun i : Fin 16 => (counts[i]).toNat * 2 ^ (15 - i.val)) h |>.symm]
  apply Finset.sum_congr rfl
  intro i _
  simp

/-- N as R142 writes it. -/
theorem count_eq (counts : Vector Byte 16) : countSum counts.toList = ∑ i : Fin 16, (counts[i]).toNat := by
  rw [countSum_eq]
  have h : counts.toList.length = 16 := by simp
  rw [Fin.sum_congr' (fun i : Fin 16 => (counts[i]).toNat) h |>.symm]
  apply Finset.sum_congr rfl
  intro i _
  simp

/-- As many positions as counts (R141). -/
theorem canonFrom_length (syms : Vector Byte 256) (cs : List Byte) (len code k : Nat) :
    (canonFrom syms cs len code k).length = countSum cs := by
  induction cs generalizing len code k with
  | nil => rfl
  | cons c cs ih => rw [canonFrom, List.length_append, ih, codesOfLen_eq, countSum]; simp

/-- Symbols in the order of the symbol vector (R141). -/
theorem canonFrom_sym (syms : Vector Byte 256) (cs : List Byte) (len code k j : Nat) (e : CodeEntry)
    (h : (canonFrom syms cs len code k)[j]? = some e) : e.sym = symAt syms (k + j) := by
  induction cs generalizing len code k j with
  | nil => simp [canonFrom] at h
  | cons c cs ih =>
    rw [canonFrom, codesOfLen_eq] at h
    by_cases hj : j < c.toNat
    · rw [List.getElem?_append_left (by simpa using hj)] at h
      simp [hj] at h
      rw [← h]
    · rw [List.getElem?_append_right (by simp; omega)] at h
      have := ih _ _ _ _ h
      rw [this]; congr 1; simp; omega

/-- The first code given. -/
theorem canonFrom_head (syms : Vector Byte 256) (cs : List Byte) (len code k : Nat) (e : CodeEntry)
    (h : (canonFrom syms cs len code k)[0]? = some e) : len ≤ e.len ∧ e.code = code * 2 ^ (e.len - len) := by
  induction cs generalizing len code k with
  | nil => simp [canonFrom] at h
  | cons c cs ih =>
    rw [canonFrom, codesOfLen_eq] at h
    by_cases hj : 0 < c.toNat
    · rw [List.getElem?_append_left (by simpa using hj)] at h
      simp [hj] at h
      rw [← h]; simp
    · have hc : c.toNat = 0 := by omega
      rw [hc] at h
      simp at h
      obtain ⟨h1, h2⟩ := ih _ _ _ (by simpa using h)
      refine ⟨by omega, ?_⟩
      rw [h2, show e.len - len = (e.len - (len + 1)) + 1 by omega]; ring

/-- The code after a code (R141). -/
theorem canonFrom_next (syms : Vector Byte 256) (cs : List Byte) (len code k j : Nat) (e e' : CodeEntry)
    (h : (canonFrom syms cs len code k)[j]? = some e) (h' : (canonFrom syms cs len code k)[j + 1]? = some e') :
    e'.code = (e.code + 1) * 2 ^ (e'.len - e.len) := by
  induction cs generalizing len code k j with
  | nil => simp [canonFrom] at h
  | cons c cs ih =>
    rw [canonFrom, codesOfLen_eq] at h h'
    by_cases hj : j + 1 < c.toNat
    · rw [List.getElem?_append_left (by simp; omega)] at h h'
      simp [hj, show j < c.toNat by omega] at h h'
      rw [← h, ← h']; simp; omega
    · rw [List.getElem?_append_right (by simp; omega)] at h'
      by_cases hj2 : j < c.toNat
      · rw [List.getElem?_append_left (by simpa using hj2)] at h
        simp [hj2] at h
        have : j + 1 - ((List.range c.toNat).map fun i => (⟨len, code + i, symAt syms (k + i)⟩ : CodeEntry)).length = 0 := by simp; omega
        rw [this] at h'
        obtain ⟨h1, h2⟩ := canonFrom_head _ _ _ _ _ _ h'
        rw [h2, ← h]
        simp only
        rw [show e'.len - len = (e'.len - (len + 1)) + 1 by omega, show code + c.toNat = code + j + 1 by omega]; ring
      · rw [List.getElem?_append_right (by simp; omega)] at h
        refine ih _ _ _ _ h ?_
        rw [← h']; congr 1; simp; omega

/-- As many codes of a length as its count (R141). -/
theorem canonFrom_filter (syms : Vector Byte 256) (cs : List Byte) (len code k : Nat) (i : Nat) (hi : i < cs.length) :
    ((canonFrom syms cs len code k).filter fun e => e.len == len + i).length = (cs[i]).toNat := by
  induction cs generalizing len code k i with
  | nil => simp at hi
  | cons c cs ih =>
    rw [canonFrom, codesOfLen_eq, List.filter_append, List.length_append]
    cases i with
    | zero =>
      have h0 : (canonFrom syms cs (len + 1) (2 * (code + c.toNat)) (k + c.toNat)).filter (fun e => e.len == len + 0) = [] := by
        rw [List.filter_eq_nil_iff]
        intro e he
        have := canonFrom_len _ _ _ _ _ e he
        simp; omega
      rw [h0]
      rw [List.filter_eq_self.2 (by intro e he; obtain ⟨i, hi, rfl⟩ := List.mem_map.1 he; simp)]
      simp
    | succ i =>
      have h0 : (((List.range c.toNat).map fun i => (⟨len, code + i, symAt syms (k + i)⟩ : CodeEntry)).filter (fun e => e.len == len + (i + 1))) = [] := by
        rw [List.filter_eq_nil_iff]
        intro e he; obtain ⟨i, hi, rfl⟩ := List.mem_map.1 he; simp
      rw [h0]
      have := ih (len + 1) (2 * (code + c.toNat)) (k + c.toNat) i (by simpa using hi)
      simp only [List.length_nil, Nat.zero_add, List.getElem_cons_succ]
      rw [← this]; congr 2; funext e; congr 1; omega

/-! ### hufWalk -/

@[simp] theorem bitsOf_length (n v : Nat) : (bitsOf n v).length = n := by simp [bitsOf]

/-- A bit string is the bits of its value. -/
theorem bitsOf_valueOf (p : List Bool) : bitsOf p.length (valueOf p) = p := by
  apply List.ext_getElem (by simp)
  intro i h1 h2
  have : ∀ (p : List Bool) (i : Nat) (h : i < p.length), (valueOf p).testBit (p.length - 1 - i) = p[i] := by
    intro p
    induction p using List.reverseRecOn with
    | nil => intro i h; simp at h
    | append_singleton p b ih =>
      intro i h
      rw [valueOf_append_one]
      simp only [List.length_append, List.length_singleton, Nat.add_sub_cancel]
      by_cases hi : i = p.length
      · subst hi; cases b <;> simp [Nat.testBit_zero]
      · have hi' : i < p.length := by simp at h; omega
        rw [List.getElem_append_left hi', ← ih i hi', show p.length - i = (p.length - 1 - i) + 1 by omega, Nat.testBit_succ]
        congr 1
        cases b <;> simp <;> omega
  simp [bitsOf, this p i h2]

/-- The first `l` of `n` bits are the bits of the value shifted right. -/
theorem bitsOf_take {l n : Nat} (h : l ≤ n) (v : Nat) : (bitsOf n v).take l = bitsOf l (v >>> (n - l)) := by
  apply List.ext_getElem
  · simp [h]
  · intro i h1 h2
    simp at h2
    simp only [bitsOf, List.getElem_take, List.getElem_map, List.getElem_range, Nat.testBit_shiftRight]
    congr 1
    omega

/-- A value that fits is the value of its bits. -/
theorem valueOf_bitsOf {n v : Nat} (h : v < 2 ^ n) : valueOf (bitsOf n v) = v := by
  have h1 := bitsOf_valueOf (bitsOf n v)
  rw [bitsOf_length] at h1
  exact bitsOf_inj (by simpa using valueOf_lt (bitsOf n v)) h h1

/-- The first test of R145 on the bits read so far. -/
theorem CodeEntry.bits_eq_iff {e : CodeEntry} (he : e.code < 2 ^ e.len) (p : List Bool) :
    e.bits = p ↔ e.len = p.length ∧ e.code = valueOf p := by
  constructor
  · rintro rfl; exact ⟨by simp [CodeEntry.bits], by rw [CodeEntry.bits, valueOf_bitsOf he]⟩
  · rintro ⟨h1, h2⟩; rw [CodeEntry.bits, h1, h2, bitsOf_valueOf]

/-- The second test of R145 on the bits read so far. -/
theorem CodeEntry.prefix_bits_iff {e : CodeEntry} (he : e.code < 2 ^ e.len) (p : List Bool) :
    p <+: e.bits ↔ p.length ≤ e.len ∧ e.code >>> (e.len - p.length) = valueOf p := by
  constructor
  · intro h
    have hl : p.length ≤ e.len := by simpa [CodeEntry.bits] using h.length_le
    refine ⟨hl, ?_⟩
    have := List.prefix_iff_eq_take.1 h
    rw [CodeEntry.bits, bitsOf_take hl] at this
    have h2 : e.code >>> (e.len - p.length) < 2 ^ p.length := by
      rw [Nat.shiftRight_eq_div_pow, Nat.div_lt_iff_lt_mul (by positivity), ← pow_add]
      rwa [show p.length + (e.len - p.length) = e.len by omega]
    conv_rhs => rw [this]
    rw [valueOf_bitsOf h2]
  · rintro ⟨hl, h⟩
    rw [List.prefix_iff_eq_take, CodeEntry.bits, bitsOf_take hl, h, bitsOf_valueOf]

/-- What the walk needs of a slot's codes: each fits its length, and no length exceeds 16. -/
def CodesFit (table : List CodeEntry) : Prop := ∀ e ∈ table, e.code < 2 ^ e.len ∧ e.len ≤ 16

/-- The leaf test of R145 finds a code that is the bits read so far, if there is one. -/
theorem leafAt_spec {table : List CodeEntry} (ht : CodesFit table) (p : List Bool) :
    (∃ e, leafAt table p.length (valueOf p) = some e ∧ e ∈ table ∧ e.bits = p) ∨
      (leafAt table p.length (valueOf p) = none ∧ ∀ e ∈ table, e.bits ≠ p) := by
  cases h : leafAt table p.length (valueOf p) with
  | some e =>
    refine .inl ⟨e, rfl, List.mem_of_find?_eq_some h, ?_⟩
    have := List.find?_some h
    simp at this
    exact (CodeEntry.bits_eq_iff (ht e (List.mem_of_find?_eq_some h)).1 p).2 this
  | none =>
    refine .inr ⟨rfl, fun e he hb => ?_⟩
    have := List.find?_eq_none.1 h e he
    simp at this
    exact this ((CodeEntry.bits_eq_iff (ht e he).1 p).1 hb).1 ((CodeEntry.bits_eq_iff (ht e he).1 p).1 hb).2

/-- The continuation test of R145: the bits read so far are a proper prefix of some code. -/
theorem continues_iff {table : List CodeEntry} (ht : CodesFit table) (p : List Bool) :
    continues table p.length (valueOf p) = true ↔ ∃ e ∈ table, p <+: e.bits ∧ e.bits ≠ p := by
  simp only [continues, List.any_eq_true, Bool.and_eq_true, decide_eq_true_eq]
  apply exists_congr; intro e
  constructor
  · rintro ⟨he, h1, h2⟩
    refine ⟨he, (CodeEntry.prefix_bits_iff (ht e he).1 p).2 ⟨by omega, h2⟩, fun h => ?_⟩
    have := ((CodeEntry.bits_eq_iff (ht e he).1 p).1 h).1
    omega
  · rintro ⟨he, h1, h2⟩
    have := (CodeEntry.prefix_bits_iff (ht e he).1 p).1 h1
    refine ⟨he, ?_, this.2⟩
    rcases Nat.lt_or_ge p.length e.len with h | h
    · exact h
    · exact absurd (h1.eq_of_length (by simp [CodeEntry.bits]; omega)).symm h2

/-- hufWalk with the bits `p` already read (R145): it answers the symbol of a code at the head of the bits, Truncated
where the bits end within a code, MalformedBitStream where they leave the tree. -/
theorem walkFrom_spec {m : Memory} {table : List CodeEntry} (ht : CodesFit table) (fuel : Nat) (p : List Bool)
    (b : BitSource) (h : b.Good m) (hf : 16 ≤ p.length + fuel) (h1 : ∀ e ∈ table, ¬ e.bits <+: p)
    (h2 : p = [] ∨ ∃ e ∈ table, p <+: e.bits) :
    (∃ e ∈ table, e.bits <+: p ++ unreadBits m b ∧
        ∃ b', walkFrom m table fuel p.length (valueOf p) b = .ok (e.sym, b') ∧
          unreadBits m b' = (p ++ unreadBits m b).drop e.len ∧ p.length < e.len ∧ b.After m b' (e.len - p.length)) ∨
      ((∀ e ∈ table, ¬ e.bits <+: p ++ unreadBits m b) ∧
        (p ++ unreadBits m b = [] ∨ ∃ e ∈ table, p ++ unreadBits m b <+: e.bits) ∧
        walkFrom m table fuel p.length (valueOf p) b = .error (.raise .truncated)) ∨
      ((∀ e ∈ table, ¬ e.bits <+: p ++ unreadBits m b) ∧ p ++ unreadBits m b ≠ [] ∧
        (∀ e ∈ table, ¬ p ++ unreadBits m b <+: e.bits) ∧
        walkFrom m table fuel p.length (valueOf p) b = .error (.raise .malformedBitStream)) := by
  induction fuel generalizing p b with
  | zero =>
    exfalso
    rcases h2 with rfl | ⟨e, he, hp⟩
    · simp at hf
    · have hl : p.length ≤ e.len := by simpa [CodeEntry.bits] using hp.length_le
      have := (ht e he).2
      exact h1 e he (by rw [hp.eq_of_length (by simp [CodeEntry.bits]; omega)])
  | succ fuel ih =>
    rw [walkFrom]
    rcases readBit_spec m b h with ⟨r1, r2⟩ | ⟨bit, b', r1, r2, r3⟩
    · refine .inr (.inl ⟨by simpa [r1] using h1, by simpa [r1] using h2, by rw [r2]⟩)
    · have hv : 2 * valueOf p + bit.toNat = valueOf (p ++ [bit]) := (valueOf_append_one p bit).symm
      have hlen : p.length + 1 = (p ++ [bit]).length := by simp
      have hu : p ++ unreadBits m b = (p ++ [bit]) ++ unreadBits m b' := by simp [r2]
      rw [r1]
      simp only
      rw [hv, hlen]
      have hnew : ∀ e ∈ table, e.bits <+: p ++ [bit] → e.bits = p ++ [bit] := by
        intro e he hpre
        rcases List.prefix_concat_iff.1 hpre with hh | hh
        · exact hh
        · exact absurd hh (h1 e he)
      rcases leafAt_spec ht (p ++ [bit]) with ⟨e, l1, l2, l3⟩ | ⟨l1, l2⟩
      · refine .inl ⟨e, l2, ?_, b', by rw [l1], ?_, ?_, ?_⟩
        · rw [hu, l3]; exact List.prefix_append _ _
        · have : e.len = (p ++ [bit]).length := by rw [← l3]; simp [CodeEntry.bits]
          rw [hu, this, List.drop_left]
        · have : e.len = (p ++ [bit]).length := by rw [← l3]; simp [CodeEntry.bits]
          simp at this; omega
        · have : e.len = (p ++ [bit]).length := by rw [← l3]; simp [CodeEntry.bits]
          rw [this]; simpa using r3
      · rw [l1]
        simp only
        have hno : ∀ e ∈ table, ¬ e.bits <+: p ++ [bit] := fun e he hpre => l2 e he (hnew e he hpre)
        by_cases hc : continues table (p ++ [bit]).length (valueOf (p ++ [bit])) = true
        · rw [if_pos hc]
          obtain ⟨e, he, hp, -⟩ := (continues_iff ht _).1 hc
          rw [hu]
          rcases ih (p ++ [bit]) b' r3.good (by simp; omega) hno (.inr ⟨e, he, hp⟩) with
            ⟨e, g1, g2, b'', g3, g4, g5, g6⟩ | g | g
          · refine .inl ⟨e, g1, g2, b'', g3, g4, by simp at g5; omega, ?_⟩
            have := r3.trans g6
            rwa [show 1 + (e.len - (p ++ [bit]).length) = e.len - p.length by simp at g5 ⊢; omega] at this
          · exact .inr (.inl g)
          · exact .inr (.inr g)
        · rw [if_neg hc]
          have hleave : ∀ e ∈ table, ¬ p ++ [bit] <+: e.bits := by
            intro e he hp
            exact hc ((continues_iff ht _).2 ⟨e, he, hp, l2 e he⟩)
          refine .inr (.inr ⟨?_, by simp [r2], ?_, rfl⟩)
          · intro e he hp
            rw [hu] at hp
            rcases List.prefix_or_prefix_of_prefix hp (List.prefix_append (p ++ [bit]) (unreadBits m b')) with hh | hh
            · exact hno e he hh
            · exact hleave e he hh
          · intro e he hp
            rw [hu] at hp
            exact hleave e he ((List.prefix_append _ _).trans hp)

/-- hufWalk (R145). -/
theorem hufWalk_spec {m : Memory} {table : List CodeEntry} (ht : CodesFit table) (hpos : ∀ e ∈ table, 1 ≤ e.len)
    (b : BitSource) (h : b.Good m) :
    (∃ e ∈ table, e.bits <+: unreadBits m b ∧ ∃ b', hufWalk m table b = .ok (e.sym, b') ∧
        unreadBits m b' = (unreadBits m b).drop e.len ∧ b.After m b' e.len) ∨
      ((∀ e ∈ table, ¬ e.bits <+: unreadBits m b) ∧
        (unreadBits m b = [] ∨ ∃ e ∈ table, unreadBits m b <+: e.bits) ∧
        hufWalk m table b = .error (.raise .truncated)) ∨
      ((∀ e ∈ table, ¬ e.bits <+: unreadBits m b) ∧ unreadBits m b ≠ [] ∧
        (∀ e ∈ table, ¬ unreadBits m b <+: e.bits) ∧ hufWalk m table b = .error (.raise .malformedBitStream)) := by
  have := walkFrom_spec (m := m) ht 16 [] b h (by simp) (by
    intro e he hp
    have := hp.length_le
    have := hpos e he
    simp [CodeEntry.bits] at *; omega) (.inl rfl)
  rcases this with ⟨e, g1, g2, b', g3, g4, g5, g6⟩ | g | g
  · exact .inl ⟨e, g1, g2, b', g3, g4, g6⟩
  · exact .inr (.inl g)
  · exact .inr (.inr g)

end Sys2Proof.Machine
end

