-- ==== Sys2Proof/Laws/IdctRef.lean ====
section
/-! SUPPORT. Sys2Proof/Laws/IdctRef.lean: the real number each surd of Machine/IdctRef.lean stands for, and that its
order, its floor and its cosines are those of the real numbers (44_idct.md R182). -/

namespace Sys2Proof.Machine

/-! ### Values -/

/-- √2 -/
noncomputable def root2 : ℝ := Real.sqrt 2
/-- √(2+√2) -/
noncomputable def root4 : ℝ := Real.sqrt (2 + root2)
/-- √(2+√(2+√2)) -/
noncomputable def root8 : ℝ := Real.sqrt (2 + root4)

theorem root2_sq : root2 * root2 = 2 := Real.mul_self_sqrt (by norm_num)
theorem root2_nonneg : 0 ≤ root2 := Real.sqrt_nonneg _
theorem root4_sq : root4 * root4 = 2 + root2 := Real.mul_self_sqrt (by have := root2_nonneg; linarith)
theorem root4_nonneg : 0 ≤ root4 := Real.sqrt_nonneg _
theorem root8_sq : root8 * root8 = 2 + root4 := Real.mul_self_sqrt (by have := root4_nonneg; linarith)
theorem root8_nonneg : 0 ≤ root8 := Real.sqrt_nonneg _

noncomputable def Surd2.toReal (x : Surd2) : ℝ := x.a + x.b * root2
noncomputable def Surd4.toReal (x : Surd4) : ℝ := x.a.toReal + x.b.toReal * root4
noncomputable def Surd8.toReal (x : Surd8) : ℝ := x.a.toReal + x.b.toReal * root8

@[simp] theorem addSurd2_toReal (x y : Surd2) : (addSurd2 x y).toReal = x.toReal + y.toReal := by
  simp only [Surd2.toReal, addSurd2]; push_cast; ring
@[simp] theorem subSurd2_toReal (x y : Surd2) : (subSurd2 x y).toReal = x.toReal - y.toReal := by
  simp only [Surd2.toReal, subSurd2]; push_cast; ring
@[simp] theorem mulSurd2_toReal (x y : Surd2) : (mulSurd2 x y).toReal = x.toReal * y.toReal := by
  simp only [Surd2.toReal, mulSurd2]; push_cast; linear_combination (-(x.b * y.b : ℝ)) * root2_sq
@[simp] theorem scaleSurd2_toReal (k : Int) (x : Surd2) : (scaleSurd2 k x).toReal = k * x.toReal := by
  simp only [Surd2.toReal, scaleSurd2]; push_cast; ring
@[simp] theorem radicandSurd2_toReal (x : Surd2) : (radicandSurd2 x).toReal = (2 + root2) * x.toReal := by
  simp only [Surd2.toReal, radicandSurd2]; push_cast; linear_combination (-(x.b : ℝ)) * root2_sq

@[simp] theorem addSurd4_toReal (x y : Surd4) : (addSurd4 x y).toReal = x.toReal + y.toReal := by
  simp only [Surd4.toReal, addSurd4, addSurd2_toReal]; ring
@[simp] theorem subSurd4_toReal (x y : Surd4) : (subSurd4 x y).toReal = x.toReal - y.toReal := by
  simp only [Surd4.toReal, subSurd4, subSurd2_toReal]; ring
@[simp] theorem mulSurd4_toReal (x y : Surd4) : (mulSurd4 x y).toReal = x.toReal * y.toReal := by
  simp only [Surd4.toReal, mulSurd4, addSurd2_toReal, mulSurd2_toReal, radicandSurd2_toReal]
  linear_combination (-(x.b.toReal * y.b.toReal)) * root4_sq
@[simp] theorem scaleSurd4_toReal (k : Int) (x : Surd4) : (scaleSurd4 k x).toReal = k * x.toReal := by
  simp only [Surd4.toReal, scaleSurd4, scaleSurd2_toReal]; ring
@[simp] theorem radicandSurd4_toReal (x : Surd4) : (radicandSurd4 x).toReal = (2 + root4) * x.toReal := by
  simp only [Surd4.toReal, radicandSurd4, addSurd2_toReal, scaleSurd2_toReal, radicandSurd2_toReal]
  push_cast; linear_combination (-x.b.toReal) * root4_sq

@[simp] theorem addSurd8_toReal (x y : Surd8) : (addSurd8 x y).toReal = x.toReal + y.toReal := by
  simp only [Surd8.toReal, addSurd8, addSurd4_toReal]; ring
@[simp] theorem subSurd8_toReal (x y : Surd8) : (subSurd8 x y).toReal = x.toReal - y.toReal := by
  simp only [Surd8.toReal, subSurd8, subSurd4_toReal]; ring
@[simp] theorem scaleSurd8_toReal (k : Int) (x : Surd8) : (scaleSurd8 k x).toReal = k * x.toReal := by
  simp only [Surd8.toReal, scaleSurd8, scaleSurd4_toReal]; ring
@[simp] theorem intSurd8_toReal (k : Int) : (intSurd8 k).toReal = k := by
  simp [Surd8.toReal, Surd4.toReal, Surd2.toReal, intSurd8]
@[simp] theorem rootTimes_toReal (x : Surd8) : (rootTimes x).toReal = root8 * x.toReal := by
  simp only [Surd8.toReal, rootTimes, radicandSurd4_toReal]
  linear_combination (-x.b.toReal) * root8_sq

/-! ### Order -/

/-- The sign of `a + b·r` for a root `r` of `R`, from the signs of `a` and `b` and their squares. -/
theorem nonneg_add_mul_iff {a b r R : ℝ} (hr : 0 ≤ r) (hR : r * r = R) :
    0 ≤ a + b * r ↔
      (if 0 ≤ a then if 0 ≤ b then True else R * (b * b) ≤ a * a
      else if 0 ≤ b then a * a ≤ R * (b * b) else False) := by
  subst hR
  split_ifs with ha hb hb
  · simp only [iff_true]; positivity
  · have hbr : 0 ≤ -b * r := mul_nonneg (by linarith) hr
    rw [show r * r * (b * b) = -b * r * (-b * r) by ring, ← mul_self_le_mul_self_iff hbr ha]
    constructor <;> intro h <;> linarith
  · have hbr : 0 ≤ b * r := mul_nonneg hb hr
    rw [show a * a = -a * -a by ring, show r * r * (b * b) = b * r * (b * r) by ring,
      ← mul_self_le_mul_self_iff (by linarith) hbr]
    constructor <;> intro h <;> linarith
  · have hbr : 0 ≤ -b * r := mul_nonneg (by linarith) hr
    simp only [iff_false, not_le]; linarith

theorem nonnegSurd2_iff (x : Surd2) : nonnegSurd2 x = true ↔ 0 ≤ x.toReal := by
  rw [Surd2.toReal, nonneg_add_mul_iff root2_nonneg root2_sq]
  unfold nonnegSurd2
  simp only [Int.cast_nonneg_iff]
  split_ifs <;> simp <;> norm_cast

theorem nonnegSurd4_iff (x : Surd4) : nonnegSurd4 x = true ↔ 0 ≤ x.toReal := by
  rw [Surd4.toReal, nonneg_add_mul_iff root4_nonneg root4_sq]
  unfold nonnegSurd4
  simp only [nonnegSurd2_iff]
  split_ifs <;> simp [nonnegSurd2_iff]

theorem nonnegSurd8_iff (x : Surd8) : nonnegSurd8 x = true ↔ 0 ≤ x.toReal := by
  rw [Surd8.toReal, nonneg_add_mul_iff root8_nonneg root8_sq]
  unfold nonnegSurd8
  simp only [nonnegSurd4_iff]
  split_ifs <;> simp [nonnegSurd4_iff]

theorem floorFrom_spec (z : Surd8) (n : Nat) (lo : Int) (h1 : (lo : ℝ) ≤ z.toReal) (h2 : z.toReal < (lo : ℝ) + 2 ^ n) :
    floorFrom z n lo = ⌊z.toReal⌋ := by
  induction n generalizing lo with
  | zero => simp only [floorFrom]; exact (Int.floor_eq_iff.2 ⟨h1, by simpa using h2⟩).symm
  | succ n ih =>
    rw [floorFrom]
    have hp : (2 : ℝ) ^ (n + 1) = 2 ^ n + 2 ^ n := by ring
    split
    · rename_i h
      rw [nonnegSurd8_iff, subSurd8_toReal, intSurd8_toReal] at h
      push_cast at h
      exact ih _ (by push_cast; linarith) (by push_cast; linarith)
    · rename_i h
      rw [nonnegSurd8_iff, subSurd8_toReal, intSurd8_toReal] at h
      push_cast at h
      exact ih _ h1 (by linarith)

/-- `floorSurd8` is the floor, in its range. -/
theorem floorSurd8_spec (z : Surd8) (h1 : -(2 : ℝ) ^ 42 ≤ z.toReal) (h2 : z.toReal < 2 ^ 42) :
    floorSurd8 z = ⌊z.toReal⌋ :=
  floorFrom_spec z 43 _ (by push_cast; linarith) (by push_cast; linarith)

/-! ### The transform -/

theorem root8_eq : root8 = 2 * Real.cos (Real.pi / 16) := by
  rw [Real.cos_pi_div_sixteen, root8, root4, root2]; ring

theorem twoCosPair_toReal (k : Nat) :
    (twoCosPair k).1.toReal = 2 * Real.cos (k * (Real.pi / 16)) ∧
      (twoCosPair k).2.toReal = 2 * Real.cos ((k + 1) * (Real.pi / 16)) := by
  induction k with
  | zero =>
    refine ⟨by simp [twoCosPair], ?_⟩
    simp only [twoCosPair, Surd8.toReal, Surd4.toReal, Surd2.toReal]
    simp [root8_eq]
  | succ k ih =>
    refine ⟨by simpa [twoCosPair] using ih.2, ?_⟩
    simp only [twoCosPair, subSurd8_toReal, rootTimes_toReal, ih.1, ih.2, root8_eq]
    push_cast
    have h1 : ((k : ℝ) + 1 + 1) * (Real.pi / 16) = (k + 1) * (Real.pi / 16) + Real.pi / 16 := by ring
    have h2 : (k : ℝ) * (Real.pi / 16) = (k + 1) * (Real.pi / 16) - Real.pi / 16 := by ring
    rw [h1, h2, Real.cos_add, Real.cos_sub]; ring

/-- `twoCos k` is 2·cos(kπ/16). -/
theorem twoCos_toReal (k : Nat) : (twoCos k).toReal = 2 * Real.cos (k * (Real.pi / 16)) := by
  rw [twoCos, (twoCosPair_toReal _).1]
  have h : (k : ℝ) * (Real.pi / 16) = ((k % 32 : Nat) : ℝ) * (Real.pi / 16) + ((k / 32 : Nat) : ℝ) * (2 * Real.pi) := by
    have : (k : ℝ) = ((k % 32 : Nat) : ℝ) + 32 * ((k / 32 : Nat) : ℝ) := by exact_mod_cast (Nat.mod_add_div k 32).symm
    rw [this]; push_cast; ring
  rw [h, Real.cos_add_nat_mul_two_pi]

/-- C(u)·cos((2x+1)uπ/16) is the cosine of the basis angle. -/
theorem basisAngle_cos (x u : Nat) :
    Real.cos (basisAngle x u * (Real.pi / 16)) =
      (if u = 0 then 1 / Real.sqrt 2 else 1) * Real.cos ((2 * x + 1) * u * Real.pi / 16) := by
  unfold basisAngle
  split_ifs with h
  · subst h
    have : ((4 : Nat) : ℝ) * (Real.pi / 16) = Real.pi / 4 := by push_cast; ring
    rw [this, Real.cos_pi_div_four]
    simp only [Nat.cast_zero, mul_zero, zero_mul, zero_div, Real.cos_zero, mul_one]
    rw [div_eq_div_iff (by norm_num) (by positivity)]
    rw [Real.mul_self_sqrt (by norm_num)]; norm_num
  · rw [one_mul]; congr 1; push_cast; ring

/-- A term of the sum is 16 times R182's. -/
theorem idctTerm_toReal (f : Int) (y x v u : Nat) :
    (idctTerm f y x v u).toReal =
      4 * (f * Real.cos (basisAngle x u * (Real.pi / 16)) * Real.cos (basisAngle y v * (Real.pi / 16))) := by
  simp only [idctTerm, scaleSurd8_toReal, addSurd8_toReal, twoCos_toReal]
  have h : Real.cos (((if basisAngle x u ≤ basisAngle y v then basisAngle y v - basisAngle x u
      else basisAngle x u - basisAngle y v : Nat) : ℝ) * (Real.pi / 16)) =
      Real.cos (basisAngle x u * (Real.pi / 16) - basisAngle y v * (Real.pi / 16)) := by
    split_ifs with h
    · rw [Nat.cast_sub h, ← Real.cos_neg]; congr 1; ring
    · rw [Nat.cast_sub (by omega)]; congr 1; ring
  rw [h, Nat.cast_add, add_mul, Real.cos_add, Real.cos_sub]
  ring

/-- The sum over the natural indices from `n` on. -/
theorem idctSum_toReal (y x n : Nat) (fs : List Word) :
    (idctSum y x n fs).toReal = ∑ i : Fin fs.length,
      (idctTerm (fs[i]).toInt y x ((n + i.val) / 8) ((n + i.val) % 8)).toReal := by
  induction fs generalizing n with
  | nil => simp [idctSum]
  | cons f fs ih =>
    refine Eq.trans ?_ (Fin.sum_univ_succ (n := fs.length) (fun i =>
      (idctTerm (((f :: fs)[i.val]).toInt) y x ((n + i.val) / 8) ((n + i.val) % 8)).toReal)).symm
    simp only [Fin.val_zero, List.getElem_cons_zero, Nat.add_zero, Fin.val_succ, List.getElem_cons_succ]
    have ht : ∀ i : Fin fs.length, n + 1 + i.val = n + (i.val + 1) := fun i => by omega
    rw [idctSum]
    split
    · rename_i h
      rw [ih, h]
      simp [idctTerm_toReal, ht]
    · rw [addSurd8_toReal, ih]
      simp [ht]

end Sys2Proof.Machine
end

