-- ==== Sys2Proof/Laws/Memory.lean ====
section
/-! SUPPORT. Sys2Proof/Laws/Memory.lean: the ECS buffer: its size, a read after a write, and that a write keeps the canonical
form. -/

namespace Sys2Proof.Machine

/-- The three bounds of ECS_BUF_BYTES (00_scope.md R6). -/
theorem Memory.size_bounds (m : Memory) : 4 ≤ m.size ∧ m.size ≤ 2 ^ 24 ∧ m.size % 4 = 0 := by
  have := m.lastWord.isLt
  unfold Memory.size
  omega

/-- The size is 65536 when unstated (R6). -/
theorem reset_size : State.reset.ecs.size = 65536 := rfl

/-- Every size that R6 allows can be stated. -/
theorem resetSized_size {n : Nat} (h4 : 4 ≤ n) (hn : n ≤ 2 ^ 24) (hd : n % 4 = 0) : (State.resetSized n).ecs.size = n := by
  change 4 * (BitVec.ofNat 22 (n / 4 - 1)).toNat + 4 = n
  rw [BitVec.toNat_ofNat, Nat.mod_eq_of_lt (by omega)]
  omega

/-- A reset keeps the size. -/
@[simp] theorem resetBlock_size (s : State) : (resetBlock s).ecs.size = s.ecs.size := rfl

/-- BS_INIT's test is that the window's end, as an unbounded integer, lies in the buffer (41_bitsource.md R114). -/
theorem windowFits_iff (s : State) :
    windowFits s = true ↔ s.ecsStart.toNat + s.ecsLen.toNat ≤ s.ecs.size := by
  simp only [windowFits, Bool.and_eq_true, decide_eq_true_eq]
  omega

/-- A window that fits has BS_END = ECS_START + ECS_LEN with no wrap (R114). -/
theorem windowEnd_toNat {s : State} (h : windowFits s = true) :
    (s.ecsStart + s.ecsLen).toNat = s.ecsStart.toNat + s.ecsLen.toNat := by
  rw [windowFits_iff] at h
  have := s.ecs.size_bounds
  rw [BitVec.toNat_add]
  exact Nat.mod_eq_of_lt (by omega)

@[simp] theorem Memory.write_init (m : Memory) (a : Nat) (b : Byte) : (m.write a b).init = m.init := rfl

@[simp] theorem Memory.write_size (m : Memory) (a : Nat) (b : Byte) : (m.write a b).size = m.size := rfl

@[simp] theorem Memory.writeWord_size (m : Memory) (a : Nat) (v : Word) : (m.writeWord a v).size = m.size := rfl

@[simp] theorem Memory.write_unlisted (m : Memory) (a : Nat) (b : Byte) : (m.write a b).unlisted = m.unlisted := rfl

/-- The canonical form depends on `unlisted` and on the size only, beside the cells. -/
theorem cellsWf_congr {m m' : Memory} (h : m'.unlisted = m.unlisted) (hs : m'.size = m.size) (lo : Nat) (l : List Host.Cell) :
    m'.cellsWf lo l = m.cellsWf lo l := by
  induction l generalizing lo with
  | nil => rfl
  | cons c l ih => obtain ⟨a, b⟩ := c; simp [Memory.cellsWf, h, hs, ih]

theorem cellsWf_cons {m : Memory} {lo a : Nat} {b : Byte} {l : List Host.Cell} :
    m.cellsWf lo ((a, b) :: l) = true ↔
      lo ≤ a ∧ a < m.size ∧ b ≠ m.unlisted a ∧ m.cellsWf (a + 1) l = true := by
  simp [Memory.cellsWf, and_assoc]

/-- A canonical list is canonical from any lower address up. -/
theorem cellsWf_mono {m : Memory} {lo lo' : Nat} (h : lo ≤ lo') {l : List Host.Cell} (hl : m.cellsWf lo' l = true) :
    m.cellsWf lo l = true := by
  cases l with
  | nil => rfl
  | cons c l => obtain ⟨a, b⟩ := c; rw [cellsWf_cons] at hl ⊢; exact ⟨by omega, hl.2⟩

/-- Nothing is listed below the address a canonical list starts from. -/
theorem findCell_below {m : Memory} {lo a : Nat} (h : a < lo) {l : List Host.Cell} (hl : m.cellsWf lo l = true) :
    findCell l a = none := by
  cases l with
  | nil => rfl
  | cons c l => obtain ⟨k, b⟩ := c; rw [cellsWf_cons] at hl; simp [findCell]; omega

theorem putCell_wf {m : Memory} {lo a : Nat} {b : Byte} {l : List Host.Cell} (hlo : lo ≤ a)
    (ha : a < m.size) (hl : m.cellsWf (a + 1) l = true) : m.cellsWf lo (putCell m a b l) = true := by
  unfold putCell
  split
  · exact cellsWf_mono (by omega) hl
  · exact cellsWf_cons.2 ⟨hlo, ha, ‹_›, hl⟩

theorem storeCell_wf {m : Memory} {a : Nat} (b : Byte) (ha : a < m.size) {lo : Nat} (hlo : lo ≤ a)
    {l : List Host.Cell} (hl : m.cellsWf lo l = true) : m.cellsWf lo (storeCell m a b l) = true := by
  induction l generalizing lo with
  | nil => exact putCell_wf hlo ha rfl
  | cons c l ih =>
    obtain ⟨k, v⟩ := c
    rw [cellsWf_cons] at hl
    unfold storeCell
    split
    · exact putCell_wf hlo ha (cellsWf_cons.2 ⟨by omega, hl.2⟩)
    · split
      · subst a; exact putCell_wf hlo ha hl.2.2.2
      · exact cellsWf_cons.2 ⟨hl.1, hl.2.1, hl.2.2.1, ih (by omega) hl.2.2.2⟩

/-- A write inside the buffer keeps the canonical form. -/
theorem Memory.write_wf {m : Memory} {a : Nat} (b : Byte) (ha : a < m.size) (h : m.wf = true) :
    (m.write a b).wf = true := by
  unfold Memory.wf at *
  rw [cellsWf_congr (Memory.write_unlisted m a b) rfl]
  exact storeCell_wf b ha (Nat.zero_le a) h

theorem findCell_putCell {m : Memory} {a x : Nat} {b : Byte} {l : List Host.Cell} (hl : m.cellsWf (a + 1) l = true) :
    (findCell (putCell m a b l) x).getD (m.unlisted x) =
      if x = a then b else if x < a then m.unlisted x else (findCell l x).getD (m.unlisted x) := by
  unfold putCell
  rcases lt_trichotomy x a with h | rfl | h
  · have : findCell l x = none := findCell_below (by omega) hl
    split <;> simp [findCell, h, this, show x ≠ a by omega]
  · have : findCell l x = none := findCell_below (Nat.lt_succ_self x) hl
    split <;> simp_all [findCell]
  · have h1 : ¬ x < a := by omega
    have h2 : x ≠ a := by omega
    split <;> simp [findCell, h1, h2]

theorem findCell_storeCell {m : Memory} {a x lo : Nat} {b : Byte} {l : List Host.Cell} (hl : m.cellsWf lo l = true) :
    (findCell (storeCell m a b l) x).getD (m.unlisted x) =
      if x = a then b else (findCell l x).getD (m.unlisted x) := by
  induction l generalizing lo with
  | nil =>
    simp only [storeCell]
    rw [findCell_putCell (m := m) rfl]
    simp [findCell]
  | cons c l ih =>
    obtain ⟨k, v⟩ := c
    have hl' := cellsWf_cons.1 hl
    unfold storeCell
    split
    · rw [findCell_putCell (cellsWf_cons.2 ⟨by omega, hl'.2⟩)]
      by_cases hx : x < a
      · simp [hx, findCell, show x < k by omega]
      · simp [hx]
    · split
      · subst a
        rw [findCell_putCell hl'.2.2.2]
        rcases lt_trichotomy x k with h | rfl | h
        · simp [h, findCell]
        · simp
        · simp [show ¬ x < k by omega, show x ≠ k by omega, findCell]
      · simp only [findCell]
        by_cases h1 : x < k
        · simp [h1, show x ≠ a by omega]
        · by_cases h2 : x = k
          · subst x; simp [show k ≠ a by omega]
          · simp only [h1, h2, if_false]; exact ih hl'.2.2.2

/-- What every address reads as after a write (20_memory.md R66). -/
theorem Memory.read_write {m : Memory} (h : m.wf = true) (a : Nat) (b : Byte) (x : Nat) :
    (m.write a b).read x = if x = a then b else m.read x := by
  unfold Memory.read
  rw [Memory.write_unlisted]
  exact findCell_storeCell h

/-- A word write inside the buffer keeps the canonical form. -/
theorem Memory.writeWord_wf {m : Memory} {a : Nat} (v : Word) (ha : a + 3 < m.size) (h : m.wf = true) :
    (m.writeWord a v).wf = true := by
  unfold Memory.writeWord
  exact write_wf _ (by simp only [write_size]; omega) (write_wf _ (by simp only [write_size]; omega)
    (write_wf _ (by simp only [write_size]; omega) (write_wf _ (by omega) h)))

/-- What every address reads as after a word write inside the buffer (R63, R66). -/
theorem Memory.read_writeWord {m : Memory} {a : Nat} (v : Word) (ha : a + 3 < m.size) (h : m.wf = true)
    (x : Nat) : (m.writeWord a v).read x = if a ≤ x ∧ x < a + 4 then byteOf v (x - a) else m.read x := by
  have h1 := write_wf (byteOf v 0) (show a < m.size by omega) h
  have h2 := write_wf (byteOf v 1) (show a + 1 < (m.write a _).size by simp only [write_size]; omega) h1
  have h3 := write_wf (byteOf v 2) (show a + 2 < ((m.write a _).write (a + 1) _).size by
    simp only [write_size]; omega) h2
  unfold Memory.writeWord
  rw [read_write h3, read_write h2, read_write h1, read_write h]
  split_ifs with c1 c2 c3 c4 c5 c6 <;> first | omega | (subst x; simp) | rfl

end Sys2Proof.Machine
end

