-- ==== Sys2Proof/Laws/PerInstr.lean ====
section
/-! SUPPORT. Sys2Proof/Laws/PerInstr.lean: facts about every command as syntax, one lemma per constructor. -/

namespace Sys2Proof.Laws.Encoding

/-- OPC of a command (30_encoding.md R89). -/
def opcode : Instr → Byte
  | .nop => 0x00#8
  | .htBuild _ => 0x10#8
  | .qtSet _ _ => 0x11#8
  | .bsInit => 0x20#8
  | .bsRead _ => 0x21#8
  | .bsAlign => 0x22#8
  | .bsPeek => 0x23#8
  | .hufDecode _ => 0x30#8
  | .duDecode _ _ _ _ => 0x31#8
  | .predReset => 0x32#8
  | .bsRestart => 0x33#8
  | .dequant _ => 0x40#8
  | .idct => 0x41#8

/-- The must-be-zero bits of a command's format: F0, FS, FQ, FQP, FN, FD (R82 to R87). -/
def mustBeZero : Instr → Word
  | .nop => 0xFFFFFF00#32
  | .htBuild _ => 0xFFFFF800#32
  | .qtSet _ _ => 0xFFFFEC00#32
  | .bsInit => 0xFFFFFF00#32
  | .bsRead _ => 0xFFFFE000#32
  | .bsAlign => 0xFFFFFF00#32
  | .bsPeek => 0xFFFFFF00#32
  | .hufDecode _ => 0xFFFFF800#32
  | .duDecode _ _ _ _ => 0xFFECCC00#32
  | .predReset => 0xFFFFFF00#32
  | .bsRestart => 0xFFFFFF00#32
  | .dequant _ => 0xFFFFFC00#32
  | .idct => 0xFFFFFF00#32

/-- The command's word carries its OPC in bits 7:0 and a 0 in every must-be-zero bit of its format (R81 to R87). -/
def Statement (i : Instr) : Prop := opcodeOf (encode i) = opcode i ∧ encode i &&& mustBeZero i = 0#32

theorem nop : Statement .nop := by unfold Statement; decide
theorem htBuild (slot : Fin 8) : Statement (.htBuild slot) := by revert slot; unfold Statement; decide
theorem qtSet (qt : Fin 4) (prec : Precision) : Statement (.qtSet qt prec) := by
  cases prec <;> (revert qt; unfold Statement; decide)
theorem bsInit : Statement .bsInit := by unfold Statement; decide
theorem bsRead (n : Fin 32) : Statement (.bsRead n) := by revert n; unfold Statement; decide
theorem bsAlign : Statement .bsAlign := by unfold Statement; decide
theorem bsPeek : Statement .bsPeek := by unfold Statement; decide
theorem hufDecode (slot : Fin 8) : Statement (.hufDecode slot) := by revert slot; unfold Statement; decide
theorem duDecode (pred dct act : Fin 4) (dcOnly : Bool) : Statement (.duDecode pred dct act dcOnly) := by
  revert pred dct act dcOnly; unfold Statement; decide +kernel
theorem predReset : Statement .predReset := by unfold Statement; decide
theorem bsRestart : Statement .bsRestart := by unfold Statement; decide
theorem dequant (qt : Fin 4) : Statement (.dequant qt) := by revert qt; unfold Statement; decide
theorem idct : Statement .idct := by unfold Statement; decide

end Sys2Proof.Laws.Encoding
end

