-- ==== Sys2Proof/Laws/State.lean ====
section
/-! SUPPORT. Sys2Proof/Laws/State.lean: one lemma per field for each update of the state, so that no proof unfolds one. -/

namespace Sys2Proof.Machine

/-! ### complete (40_command_cycle.md R101) -/

@[simp] theorem complete_ext (s : State) : (complete s).ext = s.ext := rfl
@[simp] theorem complete_cmdLatch (s : State) : (complete s).cmdLatch = s.cmdLatch := rfl
@[simp] theorem complete_busy (s : State) : (complete s).busy = false := rfl
@[simp] theorem complete_fault (s : State) : (complete s).fault = s.fault := rfl
@[simp] theorem complete_seqwarn (s : State) : (complete s).seqwarn = s.seqwarn := rfl
@[simp] theorem complete_eos (s : State) : (complete s).eos = s.eos := rfl
@[simp] theorem complete_fcode (s : State) : (complete s).fcode = s.fcode := rfl
@[simp] theorem complete_result (s : State) : (complete s).result = s.result := rfl
@[simp] theorem complete_finfo (s : State) : (complete s).finfo = s.finfo := rfl
@[simp] theorem complete_fpos (s : State) : (complete s).fpos = s.fpos := rfl
@[simp] theorem complete_ecsStart (s : State) : (complete s).ecsStart = s.ecsStart := rfl
@[simp] theorem complete_ecsLen (s : State) : (complete s).ecsLen = s.ecsLen := rfl
@[simp] theorem complete_bs (s : State) : (complete s).bs = s.bs := rfl
@[simp] theorem complete_rstK (s : State) : (complete s).rstK = s.rstK := rfl
@[simp] theorem complete_htv (s : State) : (complete s).htv = s.htv := rfl
@[simp] theorem complete_qtv (s : State) : (complete s).qtv = s.qtv := rfl
@[simp] theorem complete_qtp (s : State) : (complete s).qtp = s.qtp := rfl
@[simp] theorem complete_pred (s : State) : (complete s).pred = s.pred := rfl
@[simp] theorem complete_htc (s : State) : (complete s).htc = s.htc := rfl
@[simp] theorem complete_hts (s : State) : (complete s).hts = s.hts := rfl
@[simp] theorem complete_qte (s : State) : (complete s).qte = s.qte := rfl
@[simp] theorem complete_du (s : State) : (complete s).du = s.du := rfl
@[simp] theorem complete_blk (s : State) : (complete s).blk = s.blk := rfl
@[simp] theorem complete_sample (s : State) : (complete s).sample = s.sample := rfl
@[simp] theorem complete_ecs (s : State) : (complete s).ecs = s.ecs := rfl
@[simp] theorem complete_pending (s : State) : (complete s).pending = s.pending := rfl
@[simp] theorem complete_reply (s : State) : (complete s).reply = s.reply := rfl
@[simp] theorem complete_draws (s : State) : (complete s).draws = s.draws := rfl

/-! ### issue (R100) -/

@[simp] theorem issue_ext (w : Word) (s : State) : (issue w s).ext = s.ext := rfl
@[simp] theorem issue_cmdLatch (w : Word) (s : State) : (issue w s).cmdLatch = w := rfl
@[simp] theorem issue_busy (w : Word) (s : State) : (issue w s).busy = true := rfl
@[simp] theorem issue_fault (w : Word) (s : State) : (issue w s).fault = s.fault := rfl
@[simp] theorem issue_seqwarn (w : Word) (s : State) : (issue w s).seqwarn = s.seqwarn := rfl
@[simp] theorem issue_eos (w : Word) (s : State) : (issue w s).eos = s.eos := rfl
@[simp] theorem issue_fcode (w : Word) (s : State) : (issue w s).fcode = s.fcode := rfl
@[simp] theorem issue_result (w : Word) (s : State) : (issue w s).result = s.result := rfl
@[simp] theorem issue_finfo (w : Word) (s : State) : (issue w s).finfo = s.finfo := rfl
@[simp] theorem issue_fpos (w : Word) (s : State) : (issue w s).fpos = s.fpos := rfl
@[simp] theorem issue_ecsStart (w : Word) (s : State) : (issue w s).ecsStart = s.ecsStart := rfl
@[simp] theorem issue_ecsLen (w : Word) (s : State) : (issue w s).ecsLen = s.ecsLen := rfl
@[simp] theorem issue_bs (w : Word) (s : State) : (issue w s).bs = s.bs := rfl
@[simp] theorem issue_rstK (w : Word) (s : State) : (issue w s).rstK = s.rstK := rfl
@[simp] theorem issue_htv (w : Word) (s : State) : (issue w s).htv = s.htv := rfl
@[simp] theorem issue_qtv (w : Word) (s : State) : (issue w s).qtv = s.qtv := rfl
@[simp] theorem issue_qtp (w : Word) (s : State) : (issue w s).qtp = s.qtp := rfl
@[simp] theorem issue_pred (w : Word) (s : State) : (issue w s).pred = s.pred := rfl
@[simp] theorem issue_htc (w : Word) (s : State) : (issue w s).htc = s.htc := rfl
@[simp] theorem issue_hts (w : Word) (s : State) : (issue w s).hts = s.hts := rfl
@[simp] theorem issue_qte (w : Word) (s : State) : (issue w s).qte = s.qte := rfl
@[simp] theorem issue_du (w : Word) (s : State) : (issue w s).du = s.du := rfl
@[simp] theorem issue_blk (w : Word) (s : State) : (issue w s).blk = s.blk := rfl
@[simp] theorem issue_sample (w : Word) (s : State) : (issue w s).sample = s.sample := rfl
@[simp] theorem issue_ecs (w : Word) (s : State) : (issue w s).ecs = s.ecs := rfl
@[simp] theorem issue_pending (w : Word) (s : State) : (issue w s).pending = s.pending := rfl
@[simp] theorem issue_reply (w : Word) (s : State) : (issue w s).reply = s.reply := rfl
@[simp] theorem issue_draws (w : Word) (s : State) : (issue w s).draws = s.draws := rfl

/-! ### clearFault (60_exceptions.md R230) -/

@[simp] theorem clearFault_ext (s : State) : (clearFault s).ext = s.ext := rfl
@[simp] theorem clearFault_cmdLatch (s : State) : (clearFault s).cmdLatch = s.cmdLatch := rfl
@[simp] theorem clearFault_busy (s : State) : (clearFault s).busy = s.busy := rfl
@[simp] theorem clearFault_fault (s : State) : (clearFault s).fault = false := rfl
@[simp] theorem clearFault_seqwarn (s : State) : (clearFault s).seqwarn = s.seqwarn := rfl
@[simp] theorem clearFault_eos (s : State) : (clearFault s).eos = s.eos := rfl
@[simp] theorem clearFault_fcode (s : State) : (clearFault s).fcode = 0#8 := rfl
@[simp] theorem clearFault_result (s : State) : (clearFault s).result = s.result := rfl
@[simp] theorem clearFault_finfo (s : State) : (clearFault s).finfo = 0#8 := rfl
@[simp] theorem clearFault_fpos (s : State) : (clearFault s).fpos = 0#32 := rfl
@[simp] theorem clearFault_ecsStart (s : State) : (clearFault s).ecsStart = s.ecsStart := rfl
@[simp] theorem clearFault_ecsLen (s : State) : (clearFault s).ecsLen = s.ecsLen := rfl
@[simp] theorem clearFault_bs (s : State) : (clearFault s).bs = s.bs := rfl
@[simp] theorem clearFault_rstK (s : State) : (clearFault s).rstK = s.rstK := rfl
@[simp] theorem clearFault_htv (s : State) : (clearFault s).htv = s.htv := rfl
@[simp] theorem clearFault_qtv (s : State) : (clearFault s).qtv = s.qtv := rfl
@[simp] theorem clearFault_qtp (s : State) : (clearFault s).qtp = s.qtp := rfl
@[simp] theorem clearFault_pred (s : State) : (clearFault s).pred = s.pred := rfl
@[simp] theorem clearFault_htc (s : State) : (clearFault s).htc = s.htc := rfl
@[simp] theorem clearFault_hts (s : State) : (clearFault s).hts = s.hts := rfl
@[simp] theorem clearFault_qte (s : State) : (clearFault s).qte = s.qte := rfl
@[simp] theorem clearFault_du (s : State) : (clearFault s).du = s.du := rfl
@[simp] theorem clearFault_blk (s : State) : (clearFault s).blk = s.blk := rfl
@[simp] theorem clearFault_sample (s : State) : (clearFault s).sample = s.sample := rfl
@[simp] theorem clearFault_ecs (s : State) : (clearFault s).ecs = s.ecs := rfl
@[simp] theorem clearFault_pending (s : State) : (clearFault s).pending = s.pending := rfl
@[simp] theorem clearFault_reply (s : State) : (clearFault s).reply = s.reply := rfl
@[simp] theorem clearFault_draws (s : State) : (clearFault s).draws = s.draws := rfl

/-! ### clearPreds (45_scan_decode.md R196) -/

@[simp] theorem clearPreds_ext (s : State) : (clearPreds s).ext = s.ext := rfl
@[simp] theorem clearPreds_cmdLatch (s : State) : (clearPreds s).cmdLatch = s.cmdLatch := rfl
@[simp] theorem clearPreds_busy (s : State) : (clearPreds s).busy = s.busy := rfl
@[simp] theorem clearPreds_fault (s : State) : (clearPreds s).fault = s.fault := rfl
@[simp] theorem clearPreds_seqwarn (s : State) : (clearPreds s).seqwarn = s.seqwarn := rfl
@[simp] theorem clearPreds_eos (s : State) : (clearPreds s).eos = s.eos := rfl
@[simp] theorem clearPreds_fcode (s : State) : (clearPreds s).fcode = s.fcode := rfl
@[simp] theorem clearPreds_result (s : State) : (clearPreds s).result = s.result := rfl
@[simp] theorem clearPreds_finfo (s : State) : (clearPreds s).finfo = s.finfo := rfl
@[simp] theorem clearPreds_fpos (s : State) : (clearPreds s).fpos = s.fpos := rfl
@[simp] theorem clearPreds_ecsStart (s : State) : (clearPreds s).ecsStart = s.ecsStart := rfl
@[simp] theorem clearPreds_ecsLen (s : State) : (clearPreds s).ecsLen = s.ecsLen := rfl
@[simp] theorem clearPreds_bs (s : State) : (clearPreds s).bs = s.bs := rfl
@[simp] theorem clearPreds_rstK (s : State) : (clearPreds s).rstK = s.rstK := rfl
@[simp] theorem clearPreds_htv (s : State) : (clearPreds s).htv = s.htv := rfl
@[simp] theorem clearPreds_qtv (s : State) : (clearPreds s).qtv = s.qtv := rfl
@[simp] theorem clearPreds_qtp (s : State) : (clearPreds s).qtp = s.qtp := rfl
@[simp] theorem clearPreds_pred (s : State) : (clearPreds s).pred = Vector.replicate 4 0#16 := rfl
@[simp] theorem clearPreds_htc (s : State) : (clearPreds s).htc = s.htc := rfl
@[simp] theorem clearPreds_hts (s : State) : (clearPreds s).hts = s.hts := rfl
@[simp] theorem clearPreds_qte (s : State) : (clearPreds s).qte = s.qte := rfl
@[simp] theorem clearPreds_du (s : State) : (clearPreds s).du = s.du := rfl
@[simp] theorem clearPreds_blk (s : State) : (clearPreds s).blk = s.blk := rfl
@[simp] theorem clearPreds_sample (s : State) : (clearPreds s).sample = s.sample := rfl
@[simp] theorem clearPreds_ecs (s : State) : (clearPreds s).ecs = s.ecs := rfl
@[simp] theorem clearPreds_pending (s : State) : (clearPreds s).pending = s.pending := rfl
@[simp] theorem clearPreds_reply (s : State) : (clearPreds s).reply = s.reply := rfl
@[simp] theorem clearPreds_draws (s : State) : (clearPreds s).draws = s.draws := rfl

/-! ### setHtv (10_state.md R34) -/

@[simp] theorem setHtv_ext (slot : Fin 8) (v : Bool) (s : State) : (setHtv slot v s).ext = s.ext := rfl
@[simp] theorem setHtv_cmdLatch (slot : Fin 8) (v : Bool) (s : State) : (setHtv slot v s).cmdLatch = s.cmdLatch := rfl
@[simp] theorem setHtv_busy (slot : Fin 8) (v : Bool) (s : State) : (setHtv slot v s).busy = s.busy := rfl
@[simp] theorem setHtv_fault (slot : Fin 8) (v : Bool) (s : State) : (setHtv slot v s).fault = s.fault := rfl
@[simp] theorem setHtv_seqwarn (slot : Fin 8) (v : Bool) (s : State) : (setHtv slot v s).seqwarn = s.seqwarn := rfl
@[simp] theorem setHtv_eos (slot : Fin 8) (v : Bool) (s : State) : (setHtv slot v s).eos = s.eos := rfl
@[simp] theorem setHtv_fcode (slot : Fin 8) (v : Bool) (s : State) : (setHtv slot v s).fcode = s.fcode := rfl
@[simp] theorem setHtv_result (slot : Fin 8) (v : Bool) (s : State) : (setHtv slot v s).result = s.result := rfl
@[simp] theorem setHtv_finfo (slot : Fin 8) (v : Bool) (s : State) : (setHtv slot v s).finfo = s.finfo := rfl
@[simp] theorem setHtv_fpos (slot : Fin 8) (v : Bool) (s : State) : (setHtv slot v s).fpos = s.fpos := rfl
@[simp] theorem setHtv_ecsStart (slot : Fin 8) (v : Bool) (s : State) : (setHtv slot v s).ecsStart = s.ecsStart := rfl
@[simp] theorem setHtv_ecsLen (slot : Fin 8) (v : Bool) (s : State) : (setHtv slot v s).ecsLen = s.ecsLen := rfl
@[simp] theorem setHtv_bs (slot : Fin 8) (v : Bool) (s : State) : (setHtv slot v s).bs = s.bs := rfl
@[simp] theorem setHtv_rstK (slot : Fin 8) (v : Bool) (s : State) : (setHtv slot v s).rstK = s.rstK := rfl
@[simp] theorem setHtv_htv (slot : Fin 8) (v : Bool) (s : State) : (setHtv slot v s).htv = s.htv.set slot.val v := rfl
@[simp] theorem setHtv_qtv (slot : Fin 8) (v : Bool) (s : State) : (setHtv slot v s).qtv = s.qtv := rfl
@[simp] theorem setHtv_qtp (slot : Fin 8) (v : Bool) (s : State) : (setHtv slot v s).qtp = s.qtp := rfl
@[simp] theorem setHtv_pred (slot : Fin 8) (v : Bool) (s : State) : (setHtv slot v s).pred = s.pred := rfl
@[simp] theorem setHtv_htc (slot : Fin 8) (v : Bool) (s : State) : (setHtv slot v s).htc = s.htc := rfl
@[simp] theorem setHtv_hts (slot : Fin 8) (v : Bool) (s : State) : (setHtv slot v s).hts = s.hts := rfl
@[simp] theorem setHtv_qte (slot : Fin 8) (v : Bool) (s : State) : (setHtv slot v s).qte = s.qte := rfl
@[simp] theorem setHtv_du (slot : Fin 8) (v : Bool) (s : State) : (setHtv slot v s).du = s.du := rfl
@[simp] theorem setHtv_blk (slot : Fin 8) (v : Bool) (s : State) : (setHtv slot v s).blk = s.blk := rfl
@[simp] theorem setHtv_sample (slot : Fin 8) (v : Bool) (s : State) : (setHtv slot v s).sample = s.sample := rfl
@[simp] theorem setHtv_ecs (slot : Fin 8) (v : Bool) (s : State) : (setHtv slot v s).ecs = s.ecs := rfl
@[simp] theorem setHtv_pending (slot : Fin 8) (v : Bool) (s : State) : (setHtv slot v s).pending = s.pending := rfl
@[simp] theorem setHtv_reply (slot : Fin 8) (v : Bool) (s : State) : (setHtv slot v s).reply = s.reply := rfl
@[simp] theorem setHtv_draws (slot : Fin 8) (v : Bool) (s : State) : (setHtv slot v s).draws = s.draws := rfl

/-! ### raise (60_exceptions.md R226): what it leaves -/

@[simp] theorem raise_ext (k : FaultKind) (s0 : Word) (s : State) : (raise k s0 s).ext = s.ext := by unfold raise; split <;> rfl
@[simp] theorem raise_cmdLatch (k : FaultKind) (s0 : Word) (s : State) : (raise k s0 s).cmdLatch = s.cmdLatch := by unfold raise; split <;> rfl
@[simp] theorem raise_busy (k : FaultKind) (s0 : Word) (s : State) : (raise k s0 s).busy = s.busy := by unfold raise; split <;> rfl
@[simp] theorem raise_seqwarn (k : FaultKind) (s0 : Word) (s : State) : (raise k s0 s).seqwarn = s.seqwarn := by unfold raise; split <;> rfl
@[simp] theorem raise_eos (k : FaultKind) (s0 : Word) (s : State) : (raise k s0 s).eos = s.eos := by unfold raise; split <;> rfl
@[simp] theorem raise_result (k : FaultKind) (s0 : Word) (s : State) : (raise k s0 s).result = s.result := by unfold raise; split <;> rfl
@[simp] theorem raise_ecsStart (k : FaultKind) (s0 : Word) (s : State) : (raise k s0 s).ecsStart = s.ecsStart := by unfold raise; split <;> rfl
@[simp] theorem raise_ecsLen (k : FaultKind) (s0 : Word) (s : State) : (raise k s0 s).ecsLen = s.ecsLen := by unfold raise; split <;> rfl
@[simp] theorem raise_bs (k : FaultKind) (s0 : Word) (s : State) : (raise k s0 s).bs = s.bs := by unfold raise; split <;> rfl
@[simp] theorem raise_rstK (k : FaultKind) (s0 : Word) (s : State) : (raise k s0 s).rstK = s.rstK := by unfold raise; split <;> rfl
@[simp] theorem raise_htv (k : FaultKind) (s0 : Word) (s : State) : (raise k s0 s).htv = s.htv := by unfold raise; split <;> rfl
@[simp] theorem raise_qtv (k : FaultKind) (s0 : Word) (s : State) : (raise k s0 s).qtv = s.qtv := by unfold raise; split <;> rfl
@[simp] theorem raise_qtp (k : FaultKind) (s0 : Word) (s : State) : (raise k s0 s).qtp = s.qtp := by unfold raise; split <;> rfl
@[simp] theorem raise_pred (k : FaultKind) (s0 : Word) (s : State) : (raise k s0 s).pred = s.pred := by unfold raise; split <;> rfl
@[simp] theorem raise_htc (k : FaultKind) (s0 : Word) (s : State) : (raise k s0 s).htc = s.htc := by unfold raise; split <;> rfl
@[simp] theorem raise_hts (k : FaultKind) (s0 : Word) (s : State) : (raise k s0 s).hts = s.hts := by unfold raise; split <;> rfl
@[simp] theorem raise_qte (k : FaultKind) (s0 : Word) (s : State) : (raise k s0 s).qte = s.qte := by unfold raise; split <;> rfl
@[simp] theorem raise_du (k : FaultKind) (s0 : Word) (s : State) : (raise k s0 s).du = s.du := by unfold raise; split <;> rfl
@[simp] theorem raise_blk (k : FaultKind) (s0 : Word) (s : State) : (raise k s0 s).blk = s.blk := by unfold raise; split <;> rfl
@[simp] theorem raise_sample (k : FaultKind) (s0 : Word) (s : State) : (raise k s0 s).sample = s.sample := by unfold raise; split <;> rfl
@[simp] theorem raise_ecs (k : FaultKind) (s0 : Word) (s : State) : (raise k s0 s).ecs = s.ecs := by unfold raise; split <;> rfl
@[simp] theorem raise_pending (k : FaultKind) (s0 : Word) (s : State) : (raise k s0 s).pending = s.pending := by unfold raise; split <;> rfl
@[simp] theorem raise_reply (k : FaultKind) (s0 : Word) (s : State) : (raise k s0 s).reply = s.reply := by unfold raise; split <;> rfl
@[simp] theorem raise_draws (k : FaultKind) (s0 : Word) (s : State) : (raise k s0 s).draws = s.draws := by unfold raise; split <;> rfl

/-- After `raise` a fault is recorded (R226). -/
@[simp] theorem raise_fault (k : FaultKind) (s0 : Word) (s : State) : (raise k s0 s).fault = true := by
  unfold raise; split <;> simp_all

/-- The first fault is recorded (R226). -/
theorem raise_first (k : FaultKind) (s0 : Word) {s : State} (h : s.fault = false) :
    raise k s0 s = { s with fault := true, fcode := k.code, finfo := opcodeOf s.cmdLatch, fpos := s0 } := by
  simp [raise, h]

/-- A fault already recorded is kept (R226). -/
theorem raise_kept (k : FaultKind) (s0 : Word) {s : State} (h : s.fault = true) : raise k s0 s = s := by
  simp [raise, h]

/-! ### streamFault (60_exceptions.md R227) -/

@[simp] theorem streamFault_ext (k : FaultKind) (s : State) : (streamFault k s).ext = s.ext := by simp [streamFault]
@[simp] theorem streamFault_cmdLatch (k : FaultKind) (s : State) : (streamFault k s).cmdLatch = s.cmdLatch := by simp [streamFault]
@[simp] theorem streamFault_busy (k : FaultKind) (s : State) : (streamFault k s).busy = s.busy := by simp [streamFault]
@[simp] theorem streamFault_seqwarn (k : FaultKind) (s : State) : (streamFault k s).seqwarn = s.seqwarn := by simp [streamFault]
@[simp] theorem streamFault_eos (k : FaultKind) (s : State) : (streamFault k s).eos = s.eos := by simp [streamFault]
@[simp] theorem streamFault_result (k : FaultKind) (s : State) : (streamFault k s).result = s.result := by simp [streamFault]
@[simp] theorem streamFault_ecsStart (k : FaultKind) (s : State) : (streamFault k s).ecsStart = s.ecsStart := by simp [streamFault]
@[simp] theorem streamFault_ecsLen (k : FaultKind) (s : State) : (streamFault k s).ecsLen = s.ecsLen := by simp [streamFault]
@[simp] theorem streamFault_bs (k : FaultKind) (s : State) : (streamFault k s).bs = ⟨Config.faultPos s.draws, s.bs.stop, Config.faultCur s.draws, Config.faultNbits s.draws, Config.faultBitcnt s.draws⟩ := by simp [streamFault]
@[simp] theorem streamFault_rstK (k : FaultKind) (s : State) : (streamFault k s).rstK = s.rstK := by simp [streamFault]
@[simp] theorem streamFault_htv (k : FaultKind) (s : State) : (streamFault k s).htv = s.htv := by simp [streamFault]
@[simp] theorem streamFault_qtv (k : FaultKind) (s : State) : (streamFault k s).qtv = s.qtv := by simp [streamFault]
@[simp] theorem streamFault_qtp (k : FaultKind) (s : State) : (streamFault k s).qtp = s.qtp := by simp [streamFault]
@[simp] theorem streamFault_pred (k : FaultKind) (s : State) : (streamFault k s).pred = s.pred := by simp [streamFault]
@[simp] theorem streamFault_htc (k : FaultKind) (s : State) : (streamFault k s).htc = s.htc := by simp [streamFault]
@[simp] theorem streamFault_hts (k : FaultKind) (s : State) : (streamFault k s).hts = s.hts := by simp [streamFault]
@[simp] theorem streamFault_qte (k : FaultKind) (s : State) : (streamFault k s).qte = s.qte := by simp [streamFault]
@[simp] theorem streamFault_du (k : FaultKind) (s : State) : (streamFault k s).du = s.du := by simp [streamFault]
@[simp] theorem streamFault_blk (k : FaultKind) (s : State) : (streamFault k s).blk = s.blk := by simp [streamFault]
@[simp] theorem streamFault_sample (k : FaultKind) (s : State) : (streamFault k s).sample = s.sample := by simp [streamFault]
@[simp] theorem streamFault_ecs (k : FaultKind) (s : State) : (streamFault k s).ecs = s.ecs := by simp [streamFault]
@[simp] theorem streamFault_pending (k : FaultKind) (s : State) : (streamFault k s).pending = s.pending := by simp [streamFault]
@[simp] theorem streamFault_reply (k : FaultKind) (s : State) : (streamFault k s).reply = s.reply := by simp [streamFault]
@[simp] theorem streamFault_draws (k : FaultKind) (s : State) : (streamFault k s).draws = s.draws + 1 := by simp [streamFault]

@[simp] theorem streamFault_fault (k : FaultKind) (s : State) : (streamFault k s).fault = true := by
  simp [streamFault]

/-- The record of a stream fault is that of `raise` (R223). -/
theorem streamFault_record (k : FaultKind) (s : State) :
    (streamFault k s).fcode = (raise k s.bs.pos s).fcode ∧ (streamFault k s).finfo = (raise k s.bs.pos s).finfo ∧
      (streamFault k s).fpos = (raise k s.bs.pos s).fpos := ⟨rfl, rfl, rfl⟩

/-! ### duFault (60_exceptions.md R227) -/

@[simp] theorem duFault_ext (k : FaultKind) (p : Fin 4) (s : State) : (duFault k p s).ext = s.ext := by simp [duFault]
@[simp] theorem duFault_cmdLatch (k : FaultKind) (p : Fin 4) (s : State) : (duFault k p s).cmdLatch = s.cmdLatch := by simp [duFault]
@[simp] theorem duFault_busy (k : FaultKind) (p : Fin 4) (s : State) : (duFault k p s).busy = s.busy := by simp [duFault]
@[simp] theorem duFault_seqwarn (k : FaultKind) (p : Fin 4) (s : State) : (duFault k p s).seqwarn = s.seqwarn := by simp [duFault]
@[simp] theorem duFault_eos (k : FaultKind) (p : Fin 4) (s : State) : (duFault k p s).eos = s.eos := by simp [duFault]
@[simp] theorem duFault_result (k : FaultKind) (p : Fin 4) (s : State) : (duFault k p s).result = s.result := by simp [duFault]
@[simp] theorem duFault_ecsStart (k : FaultKind) (p : Fin 4) (s : State) : (duFault k p s).ecsStart = s.ecsStart := by simp [duFault]
@[simp] theorem duFault_ecsLen (k : FaultKind) (p : Fin 4) (s : State) : (duFault k p s).ecsLen = s.ecsLen := by simp [duFault]
@[simp] theorem duFault_bs (k : FaultKind) (p : Fin 4) (s : State) : (duFault k p s).bs = ⟨Config.faultPos s.draws, s.bs.stop, Config.faultCur s.draws, Config.faultNbits s.draws, Config.faultBitcnt s.draws⟩ := by simp [duFault]
@[simp] theorem duFault_rstK (k : FaultKind) (p : Fin 4) (s : State) : (duFault k p s).rstK = s.rstK := by simp [duFault]
@[simp] theorem duFault_htv (k : FaultKind) (p : Fin 4) (s : State) : (duFault k p s).htv = s.htv := by simp [duFault]
@[simp] theorem duFault_qtv (k : FaultKind) (p : Fin 4) (s : State) : (duFault k p s).qtv = s.qtv := by simp [duFault]
@[simp] theorem duFault_qtp (k : FaultKind) (p : Fin 4) (s : State) : (duFault k p s).qtp = s.qtp := by simp [duFault]
@[simp] theorem duFault_pred (k : FaultKind) (p : Fin 4) (s : State) : (duFault k p s).pred = s.pred.set p.val (Config.faultPred s.draws) := by simp [duFault]
@[simp] theorem duFault_htc (k : FaultKind) (p : Fin 4) (s : State) : (duFault k p s).htc = s.htc := by simp [duFault]
@[simp] theorem duFault_hts (k : FaultKind) (p : Fin 4) (s : State) : (duFault k p s).hts = s.hts := by simp [duFault]
@[simp] theorem duFault_qte (k : FaultKind) (p : Fin 4) (s : State) : (duFault k p s).qte = s.qte := by simp [duFault]
@[simp] theorem duFault_du (k : FaultKind) (p : Fin 4) (s : State) : (duFault k p s).du = Vector.ofFn fun i => Config.faultDu s.draws i.val := by simp [duFault]
@[simp] theorem duFault_blk (k : FaultKind) (p : Fin 4) (s : State) : (duFault k p s).blk = s.blk := by simp [duFault]
@[simp] theorem duFault_sample (k : FaultKind) (p : Fin 4) (s : State) : (duFault k p s).sample = s.sample := by simp [duFault]
@[simp] theorem duFault_ecs (k : FaultKind) (p : Fin 4) (s : State) : (duFault k p s).ecs = s.ecs := by simp [duFault]
@[simp] theorem duFault_pending (k : FaultKind) (p : Fin 4) (s : State) : (duFault k p s).pending = s.pending := by simp [duFault]
@[simp] theorem duFault_reply (k : FaultKind) (p : Fin 4) (s : State) : (duFault k p s).reply = s.reply := by simp [duFault]
@[simp] theorem duFault_draws (k : FaultKind) (p : Fin 4) (s : State) : (duFault k p s).draws = s.draws + 1 := by simp [duFault]

@[simp] theorem duFault_fault (k : FaultKind) (p : Fin 4) (s : State) : (duFault k p s).fault = true := by
  simp [duFault]

/-- The record of a data-unit fault is that of `raise` (R223). -/
theorem duFault_record (k : FaultKind) (p : Fin 4) (s : State) :
    (duFault k p s).fcode = (raise k s.bs.pos s).fcode ∧ (duFault k p s).finfo = (raise k s.bs.pos s).finfo ∧
      (duFault k p s).fpos = (raise k s.bs.pos s).fpos := ⟨rfl, rfl, rfl⟩

/-! ### resetBlock (70_reset_and_hazards.md R240) -/

@[simp] theorem resetBlock_busy (s : State) : (resetBlock s).busy = false := rfl
@[simp] theorem resetBlock_fault (s : State) : (resetBlock s).fault = false := rfl
@[simp] theorem resetBlock_fcode (s : State) : (resetBlock s).fcode = 0#8 := rfl
@[simp] theorem resetBlock_bs (s : State) : (resetBlock s).bs = ⟨0#32, 0#32, 0#8, 0#4, 0#32⟩ := rfl
@[simp] theorem resetBlock_htv (s : State) : (resetBlock s).htv = Vector.replicate 8 false := rfl
@[simp] theorem resetBlock_qtv (s : State) : (resetBlock s).qtv = Vector.replicate 4 false := rfl
@[simp] theorem resetBlock_ecs (s : State) : (resetBlock s).ecs = ⟨[], Config.resetEcs s.draws, s.ecs.lastWord⟩ := rfl
@[simp] theorem resetBlock_pending (s : State) : (resetBlock s).pending = s.pending := rfl
@[simp] theorem resetBlock_reply (s : State) : (resetBlock s).reply = s.reply := rfl
@[simp] theorem resetBlock_draws (s : State) : (resetBlock s).draws = s.draws + 1 := rfl

end Sys2Proof.Machine
end

