-- ==== Sys2Proof/Laws/Step.lean ====
section
/-! SUPPORT. Sys2Proof/Laws/Step.lean: what a step does, by whose turn it is, and the host's accesses (20_memory.md R61 to R68). -/

namespace Sys2Proof.Machine

/-- A step is the first event of the schedule. -/
theorem step_event {s : State} {e : Event} {rest : List Event} (h : s.pending = e :: rest) :
    step s = happen e { s with pending := rest } := by
  simp [step, scheduleStep, h]

/-- On the engine's turn a step is the engine's (40_command_cycle.md R101). -/
theorem step_engine {s : State} {rest : List Event} (h : s.engineNext rest) :
    step s = engineTurn { s with pending := rest } := by
  rcases h with h | ⟨h, rfl⟩
  · rw [step_event h]; rfl
  · have : ({ s with pending := [] } : State) = s := by rw [← h]
    simp [step, scheduleStep, h, this]

/-- Everything a step that answers can have done. -/
theorem step_cases {s t : State} (h : step s = .next t) :
    (∃ width off rest, s.pending = .read width off :: rest ∧ hostRead width off { s with pending := rest } = .next t) ∨
    (∃ width off v rest, s.pending = .write width off v :: rest ∧
      hostWrite width off v { s with pending := rest } = .next t) ∨
    (∃ rest, s.pending = .reset :: rest ∧ t = resetBlock { s with pending := rest }) ∨
    (∃ rest, s.engineNext rest ∧ engineTurn { s with pending := rest } = .next t) := by
  cases hp : s.pending with
  | nil =>
    have hn : s.engineNext [] := .inr ⟨hp, rfl⟩
    rw [step_engine hn] at h
    exact .inr (.inr (.inr ⟨[], hn, h⟩))
  | cons e rest =>
    have h' := h
    rw [step_event hp] at h'
    cases e with
    | read width off => exact .inl ⟨width, off, rest, rfl, h'⟩
    | write width off v => exact .inr (.inl ⟨width, off, v, rest, rfl, h'⟩)
    | reset => exact .inr (.inr (.inl ⟨rest, rfl, by simpa [happen] using h'.symm⟩))
    | engine => exact .inr (.inr (.inr ⟨rest, .inl hp, h'⟩))

/-- Everything the engine's turn can have done when it answers (R101 to R103). -/
theorem engineTurn_cases {s t : State} (h : engineTurn s = .next t) :
    (s.busy = false ∧ t = s) ∨
    (s.busy = true ∧ blocked s = true ∧ t = complete s) ∨
    (s.busy = true ∧ blocked s = false ∧ (∃ e, decode s.cmdLatch = .error e) ∧
      t = complete (raise .illegalCommand s.bs.pos s)) ∨
    (s.busy = true ∧ blocked s = false ∧ ∃ i u, decode s.cmdLatch = .ok i ∧ exec i s = .next u ∧ t = complete u) := by
  unfold engineTurn engineStep at h
  cases hb : s.busy with
  | false => rw [hb] at h; simp at h; exact .inl ⟨rfl, h.symm⟩
  | true =>
    rw [hb] at h
    simp only [if_true] at h
    cases hk : blocked s with
    | true => rw [hk] at h; simp at h; exact .inr (.inl ⟨rfl, rfl, h.symm⟩)
    | false =>
      rw [hk] at h
      simp only [Bool.false_eq_true, if_false] at h
      cases hd : decode s.cmdLatch with
      | error e => rw [hd] at h; simp at h; exact .inr (.inr (.inl ⟨rfl, rfl, ⟨e, rfl⟩, h.symm⟩))
      | ok i =>
        rw [hd] at h
        simp only at h
        cases hx : exec i s with
        | next u => rw [hx] at h; simp [finish] at h; exact .inr (.inr (.inr ⟨rfl, rfl, i, u, rfl, hx, h.symm⟩))
        | fault f => rw [hx] at h; simp [finish] at h
        | refused r => rw [hx] at h; simp [finish] at h

/-- A blocked command's latch holds neither NOP's nor BS_INIT's OPC, with a fault recorded (R102). -/
theorem blocked_iff (s : State) :
    blocked s = true ↔ s.fault = true ∧ opcodeOf s.cmdLatch ≠ 0x00#8 ∧ opcodeOf s.cmdLatch ≠ 0x20#8 := by
  simp [blocked, and_assoc]

/-! ### Host accesses -/

/-- An access that is not refused for its shape is aligned, 32 bits wide and inside the window (R61, R67). -/
theorem accessRefusal_none {size width off : Nat} (h : accessRefusal size width off = none) :
    width = 32 ∧ off % 4 = 0 ∧ off < 0x10000 + size := by
  unfold accessRefusal at h
  split_ifs at h with h1 h2 h3
  exact ⟨by omega, by omega, by omega⟩

/-- Everything a read that answers can have done (R66, R68). -/
theorem hostRead_cases {width off : Nat} {s t : State} (h : hostRead width off s = .next t) :
    width = 32 ∧ off % 4 = 0 ∧ off < 0x10000 + s.ecs.size ∧
      ((s.busy = true ∧ t = { s with reply := busyWord s.draws off, draws := s.draws + 1 }) ∨
        (s.busy = false ∧ t = { s with reply := windowRead s off })) := by
  unfold hostRead at h
  cases ha : accessRefusal s.ecs.size width off with
  | some r => rw [ha] at h; simp at h
  | none =>
    obtain ⟨h1, h2, h3⟩ := accessRefusal_none ha
    rw [ha] at h
    cases hb : s.busy <;> simp [hb] at h
    · exact ⟨h1, h2, h3, .inr ⟨rfl, h.symm⟩⟩
    · exact ⟨h1, h2, h3, .inl ⟨rfl, h.symm⟩⟩

/-- Everything a write that answers can have done (R66, R68). -/
theorem hostWrite_cases {width off : Nat} {v : Word} {s t : State} (h : hostWrite width off v s = .next t) :
    width = 32 ∧ off % 4 = 0 ∧ off < 0x10000 + s.ecs.size ∧ s.busy = false ∧ t = windowWrite s off v := by
  unfold hostWrite at h
  cases ha : accessRefusal s.ecs.size width off with
  | some r => rw [ha] at h; simp at h
  | none =>
    obtain ⟨h1, h2, h3⟩ := accessRefusal_none ha
    rw [ha] at h
    cases hb : s.busy <;> simp [hb] at h
    exact ⟨h1, h2, h3, rfl, h.symm⟩

/-- Everything a write to the window can do, with the range of the offset (R62, R66). -/
theorem windowWrite_cases (s : State) (off : Nat) (v : Word) :
    windowWrite s off v = s ∨
    (off = 0x004 ∧ windowWrite s off v = { s with ext := v.getLsbD 0 }) ∨
    (off = 0x008 ∧ windowWrite s off v = issue v s) ∨
    (off = 0x01C ∧ windowWrite s off v = { s with ecsStart := v }) ∨
    (off = 0x020 ∧ windowWrite s off v = { s with ecsLen := v }) ∨
    (0x1000 ≤ off ∧ off < 0x1080 ∧ windowWrite s off v = writeHtc s (off - 0x1000) v) ∨
    (0x1800 ≤ off ∧ off < 0x2000 ∧ windowWrite s off v = writeHts s (off - 0x1800) v) ∨
    (0x2000 ≤ off ∧ off < 0x2200 ∧ windowWrite s off v = writeQte s ((off - 0x2000) / 2) v) ∨
    (0x3000 ≤ off ∧ off < 0x3100 ∧
      windowWrite s off v = { s with du := s.du.set (Fin.ofNat 64 ((off - 0x3000) / 4)).val (v.setWidth 16) }) ∨
    (0x3100 ≤ off ∧ off < 0x3200 ∧
      windowWrite s off v = { s with blk := s.blk.set (Fin.ofNat 64 ((off - 0x3100) / 4)).val v }) ∨
    (0x10000 ≤ off ∧ windowWrite s off v = writeEcs s (off - 0x10000) v) := by
  unfold windowWrite
  split_ifs
  · unfold regWrite
    split <;> simp
  · exact .inr (.inr (.inr (.inr (.inr (.inl ⟨by omega, by omega, rfl⟩)))))
  · exact .inl rfl
  · exact .inr (.inr (.inr (.inr (.inr (.inr (.inl ⟨by omega, by omega, rfl⟩))))))
  · exact .inr (.inr (.inr (.inr (.inr (.inr (.inr (.inl ⟨by omega, by omega, rfl⟩)))))))
  · exact .inl rfl
  · exact .inr (.inr (.inr (.inr (.inr (.inr (.inr (.inr (.inl ⟨by omega, by omega, rfl⟩))))))))
  · exact .inr (.inr (.inr (.inr (.inr (.inr (.inr (.inr (.inr (.inl ⟨by omega, by omega, rfl⟩)))))))))
  · exact .inl rfl
  · exact .inr (.inr (.inr (.inr (.inr (.inr (.inr (.inr (.inr (.inr ⟨by omega, rfl⟩)))))))))

/-- An aligned 32-bit access of the window is not refused for its shape (R61, R67). -/
theorem access_ok {size width off : Nat} (hw : width = 32) (ha : off % 4 = 0) (hb : off < 0x10000 + size) :
    accessRefusal size width off = none := by
  unfold accessRefusal
  rw [if_neg (by omega), if_neg (by omega), if_neg (by omega)]

/-- A read while BUSY = 0 answers the window's word. -/
theorem read_idle {s : State} {off : Nat} {rest : List Event} (hbusy : s.busy = false) (h : s.pending = .read 32 off :: rest)
    (ha : off % 4 = 0) (hb : off < 0x10000 + s.ecs.size) :
    step s = .next { s with reply := windowRead { s with pending := rest } off, pending := rest } := by
  rw [step_event h]
  simp [happen, hostRead, access_ok rfl ha hb, hbusy]

/-- The bytes of a packed word (R63). -/
theorem packBytes_byte (f : Nat → Byte) (o : Nat) (b : Fin 4) : (packBytes f o).extractLsb' (8 * b.val) 8 = f (o + b.val) := by
  have key : ∀ (a b c d : Byte), ((a ++ b ++ c ++ d : BitVec (8 + 8 + 8 + 8)).extractLsb' 0 8 = d ∧ (a ++ b ++ c ++ d : BitVec (8 + 8 + 8 + 8)).extractLsb' 8 8 = c ∧
      (a ++ b ++ c ++ d : BitVec (8 + 8 + 8 + 8)).extractLsb' 16 8 = b ∧ (a ++ b ++ c ++ d : BitVec (8 + 8 + 8 + 8)).extractLsb' 24 8 = a) := by
    intro a b c d
    refine ⟨?_, ?_, ?_, ?_⟩ <;>
    · apply BitVec.eq_of_getLsbD_eq
      intro i hi
      simp only [BitVec.getLsbD_extractLsb', BitVec.getLsbD_append, hi, decide_true, Bool.true_and]
      repeat (first | rw [if_pos (by omega)] | rw [if_neg (by omega)])
      congr 1 <;> omega
  obtain ⟨k0, k1, k2, k3⟩ := key (f (o + 3)) (f (o + 2)) (f (o + 1)) (f o)
  fin_cases b
  · exact k0
  · exact k1
  · exact k2
  · exact k3

/-- The entries of a packed word (R63). -/
theorem packHalves_half (f : Nat → Half) (o : Nat) (b : Fin 2) : (packHalves f o).extractLsb' (16 * b.val) 16 = f (o + b.val) := by
  have key : ∀ (a b : Half), ((a ++ b : BitVec (16 + 16)).extractLsb' 0 16 = b ∧ (a ++ b : BitVec (16 + 16)).extractLsb' 16 16 = a) := by
    intro a b
    refine ⟨?_, ?_⟩ <;>
    · apply BitVec.eq_of_getLsbD_eq
      intro i hi
      simp only [BitVec.getLsbD_extractLsb', BitVec.getLsbD_append, hi, decide_true, Bool.true_and]
      repeat (first | rw [if_pos (by omega)] | rw [if_neg (by omega)])
      congr 1 <;> omega
  obtain ⟨k0, k1⟩ := key (f (o + 1)) (f o)
  fin_cases b
  · exact k0
  · exact k1

/-- A write while BUSY = 0 does what the window does. -/
theorem write_idle {s : State} {off : Nat} {v : Word} {rest : List Event} (hbusy : s.busy = false) (h : s.pending = .write 32 off v :: rest)
    (ha : off % 4 = 0) (hb : off < 0x10000 + s.ecs.size) :
    step s = .next (windowWrite { s with pending := rest } off v) := by
  rw [step_event h]
  simp [happen, hostWrite, access_ok rfl ha hb, hbusy]

/-- The row after a word of four bytes is stored. -/
theorem setBytes_get {n : Nat} (row : Vector Byte n) (i : Nat) (v : Word) (j : Nat) (hj : j < n) (hi : i % 4 = 0) :
    (setBytes row i v)[j] = if j / 4 = i / 4 then v.extractLsb' (8 * (j % 4)) 8 else row[j] := by
  unfold setBytes byteOf
  simp only [Vector.getElem_setIfInBounds]
  split_ifs <;> first | omega | rfl | (congr 2; omega)

/-- The row after a word of two entries is stored. -/
theorem setHalves_get {n : Nat} (row : Vector Half n) (i : Nat) (v : Word) (j : Nat) (hj : j < n) (hi : i % 2 = 0) :
    (setHalves row i v)[j] = if j / 2 = i / 2 then v.extractLsb' (16 * (j % 2)) 16 else row[j] := by
  unfold setHalves halfOf
  simp only [Vector.getElem_setIfInBounds]
  split_ifs <;> first | omega | rfl | (congr 2; omega)


end Sys2Proof.Machine
end

