-- ==== Sys2Proof/Laws/Unit.lean ====
section
/-! SUPPORT. Sys2Proof/Laws/Unit.lean: everything the decoding of a data unit can answer, on the bits still to be delivered
(45_scan_decode.md R192). -/

namespace Sys2Proof.Machine

/-- A stream function on the bit source agrees with a function on the bits still to be delivered. -/
def Agrees {α : Type} (m : Memory) (b : BitSource) (r : Except StreamStop (α × BitSource))
    (r' : Except FaultKind (α × List Bool)) : Prop :=
  match r' with
  | .ok (a, rest) => ∃ b' n, r = .ok (a, b') ∧ unreadBits m b' = rest ∧ b.After m b' n ∧
      (unreadBits m b).length = rest.length + n
  | .error k => r = .error (.raise k)

/-- readBits (41_bitsource.md R113) on the bits. -/
theorem readNumber_agrees (m : Memory) (n : Nat) (b : BitSource) (h : b.Good m) :
    Agrees m b (readBits m n b) (readNumber n (unreadBits m b)) := by
  have := readBits_spec m n b h
  unfold readNumber
  split at this
  · rename_i hl
    rw [if_pos hl]
    obtain ⟨b', h1, h2, h3⟩ := this
    exact ⟨b', n, h1, h2, h3, by simp; omega⟩
  · rename_i hl; rw [if_neg hl]; exact this

/-- The magnitude of a DC size (R190, R192) on the bits. -/
theorem readMagnitude_agrees (m : Memory) (n : Nat) (b : BitSource) (h : b.Good m) :
    Agrees m b (readMagnitude m n b) (readNumber n (unreadBits m b)) := by
  unfold readMagnitude
  split
  · rename_i h0; subst h0
    simp [readNumber, valueOf, Agrees]
    exact .refl h
  · exact readNumber_agrees m n b h

/-- What the decoding of a data unit needs of a slot's codes: they fit, none is empty, and they are prefix-free. -/
structure GoodTable (t : List CodeEntry) : Prop where
  fit : CodesFit t
  pos : ∀ e ∈ t, 1 ≤ e.len
  pf : ∀ e ∈ t, ∀ e' ∈ t, e.bits <+: e'.bits → e = e'

/-- hufWalk (42_huffman.md R145) on the bits. -/
theorem readSymbol_agrees (m : Memory) {t : List CodeEntry} (ht : GoodTable t) (b : BitSource) (h : b.Good m) :
    Agrees m b (hufWalk m t b) (readSymbol t (unreadBits m b)) := by
  unfold readSymbol
  rcases hufWalk_spec (m := m) ht.fit ht.pos b h with ⟨e, he, hp, b', w1, w2, w3⟩ | ⟨h1, h2, h3⟩ | ⟨h1, h2, h3, h4⟩
  · have : t.find? (fun e => e.bits.isPrefixOf (unreadBits m b)) = some e := by
      cases hf : t.find? (fun e => e.bits.isPrefixOf (unreadBits m b)) with
      | none =>
        have := List.find?_eq_none.1 hf e he
        simp at this; exact absurd hp this
      | some e' =>
        have h1 := List.mem_of_find?_eq_some hf
        have h2 := List.find?_some hf
        simp at h2
        rcases List.prefix_or_prefix_of_prefix hp h2 with g | g
        · rw [ht.pf e he e' h1 g]
        · rw [ht.pf e' h1 e he g]
    rw [this]
    have hl : e.len ≤ (unreadBits m b).length := by simpa [CodeEntry.bits] using hp.length_le
    exact ⟨b', e.len, w1, w2, w3, by simp; omega⟩
  · have : t.find? (fun e => e.bits.isPrefixOf (unreadBits m b)) = none := by
      rw [List.find?_eq_none]; intro e he; simpa using h1 e he
    rw [this]
    simp only
    rw [if_pos (by rcases h2 with h2 | ⟨e, he, h2⟩; exact .inl h2; exact .inr (by simp; exact ⟨e, he, h2⟩))]
    exact h3
  · have : t.find? (fun e => e.bits.isPrefixOf (unreadBits m b)) = none := by
      rw [List.find?_eq_none]; intro e he; simpa using h1 e he
    rw [this]
    simp only
    rw [if_neg (by
      rintro (g | g)
      · exact h2 g
      · simp at g; obtain ⟨e, he, g⟩ := g; exact h3 e he g)]
    exact h4

theorem Agrees.ok {α : Type} {m : Memory} {b : BitSource} {r : Except StreamStop (α × BitSource)}
    {r' : Except FaultKind (α × List Bool)} (h : Agrees m b r r') {a : α} {rest : List Bool} (hr : r' = .ok (a, rest)) :
    ∃ b' n, r = .ok (a, b') ∧ unreadBits m b' = rest ∧ b.After m b' n ∧ (unreadBits m b).length = rest.length + n := by
  subst hr; exact h

theorem Agrees.trans {α : Type} {m : Memory} {b b' : BitSource} {n : Nat} {r : Except StreamStop (α × BitSource)}
    {r' : Except FaultKind (α × List Bool)} (h : Agrees m b' r r') (ha : b.After m b' n)
    (hl : (unreadBits m b).length = (unreadBits m b').length + n) : Agrees m b r r' := by
  unfold Agrees at *
  split at h
  · obtain ⟨b'', n', h1, h2, h3, h4⟩ := h
    exact ⟨b'', n + n', h1, h2, ha.trans h3, by omega⟩
  · exact h

/-- Path (b) of R192 on the bits. -/
theorem acLoop_agrees (m : Memory) {t : List CodeEntry} (ht : GoodTable t) (lim fuel k : Nat) (du : Vector Half 64)
    (b : BitSource) (h : b.Good m) :
    Agrees m b (acLoop m t lim fuel k du b) (readAcPath t lim fuel k du (unreadBits m b)) := by
  induction fuel generalizing k du b with
  | zero => exact ⟨b, 0, rfl, rfl, .refl h, rfl⟩
  | succ fuel ih =>
    unfold acLoop readAcPath
    by_cases hk : 64 ≤ k
    · rw [if_pos hk, if_pos hk]; exact ⟨b, 0, rfl, rfl, .refl h, rfl⟩
    · rw [if_neg hk, if_neg hk]
      have hs := readSymbol_agrees m ht b h
      cases hr : readSymbol t (unreadBits m b) with
      | error f => rw [hr] at hs; have hs' : hufWalk m t b = _ := hs; rw [hs']; rfl
      | ok p =>
        obtain ⟨rs, rest⟩ := p
        obtain ⟨b1, n1, w1, w2, w3, w4⟩ := hs.ok hr
        rw [w1]
        simp only
        unfold acAction
        by_cases h0 : rs = 0x00#8
        · rw [if_pos h0, if_pos h0]; exact ⟨b1, n1, rfl, w2, w3, w4⟩
        rw [if_neg h0, if_neg h0]
        by_cases hz : rs = 0xF0#8
        · rw [if_pos hz, if_pos hz]
          by_cases ho : 64 < k + 16
          · rw [if_pos ho, if_pos ho]; rfl
          · rw [if_neg ho, if_neg ho]
            subst w2
            exact (ih (k + 16) du b1 w3.good).trans w3 w4
        rw [if_neg hz, if_neg hz]
        by_cases hsz : rs.toNat % 16 = 0 ∨ lim < rs.toNat % 16
        · rw [if_pos hsz, if_pos hsz]; rfl
        rw [if_neg hsz, if_neg hsz]
        by_cases hj : k + rs.toNat / 16 < 64
        · rw [dif_pos hj, if_neg (by omega)]
          simp only
          subst w2
          have hm := readNumber_agrees m (rs.toNat % 16) b1 w3.good
          cases hr2 : readNumber (rs.toNat % 16) (unreadBits m b1) with
          | error f => rw [hr2] at hm; have hm' : readBits _ _ _ = _ := hm; rw [hm']; rfl
          | ok q =>
            obtain ⟨v, rest2⟩ := q
            obtain ⟨b2, n2, x1, x2, x3, x4⟩ := hm.ok hr2
            rw [x1]
            simp only
            subst x2
            have hset : du.setIfInBounds (k + rs.toNat / 16) (BitVec.ofInt 16 (extend v (rs.toNat % 16))) =
                du.set (k + rs.toNat / 16) (BitVec.ofInt 16 (extend v (rs.toNat % 16))) hj := by
              ext i hi; simp [Vector.getElem_setIfInBounds, Vector.getElem_set]
            rw [hset]
            exact ((ih _ _ b2 x3.good).trans x3 x4).trans w3 w4
        · rw [dif_neg hj, if_pos (by omega)]; rfl

/-- Paths (a) and (b) of R192 on the bits. -/
theorem decodeUnit_spec (s : State) (h : s.bs.Good s.ecs) (pred dct act : Fin 4) (dcOnly : Bool)
    (hd : GoodTable (slotCode s (dcSlot dct))) (ha : dcOnly = false → GoodTable (slotCode s (acSlot act))) :
    match readUnit (slotCode s (dcSlot dct)) (slotCode s (acSlot act)) s.ext s.pred[pred] dcOnly (unreadBits s.ecs s.bs) with
    | .ok (p, du, rest) => ∃ b' n, decodeUnit s pred dct act dcOnly = .ok (p, du, b') ∧ unreadBits s.ecs b' = rest ∧
        s.bs.After s.ecs b' n ∧ (unreadBits s.ecs s.bs).length = rest.length + n
    | .error k => decodeUnit s pred dct act dcOnly = .error (.raise k) := by
  unfold readUnit decodeUnit dcPath
  have hs := readSymbol_agrees s.ecs hd s.bs h
  cases hr : readSymbol (slotCode s (dcSlot dct)) (unreadBits s.ecs s.bs) with
  | error f => rw [hr] at hs; have hs' : hufWalk _ _ _ = _ := hs; rw [hs']
  | ok p =>
    obtain ⟨sz, rest⟩ := p
    obtain ⟨b1, n1, w1, w2, w3, w4⟩ := hs.ok hr
    subst w2
    rw [w1]
    simp only
    have hlim : dcLim s.ext = if s.ext then 15 else 11 := rfl
    rw [hlim]
    by_cases hl : (if s.ext then 15 else 11) < sz.toNat
    · rw [if_pos hl, if_pos hl]
    · rw [if_neg hl, if_neg hl]
      have hm := readMagnitude_agrees s.ecs sz.toNat b1 w3.good
      cases hr2 : readNumber sz.toNat (unreadBits s.ecs b1) with
      | error f => rw [hr2] at hm; have hm' : readMagnitude _ _ _ = _ := hm; rw [hm']
      | ok q =>
        obtain ⟨v, rest2⟩ := q
        obtain ⟨b2, n2, x1, x2, x3, x4⟩ := hm.ok hr2
        subst x2
        rw [x1]
        simp only
        cases dcOnly with
        | true => exact ⟨b2, n1 + n2, rfl, rfl, w3.trans x3, by omega⟩
        | false =>
          simp only [Bool.false_eq_true, if_false]
          have hac := acLoop_agrees s.ecs (ha rfl) (acLim s.ext) 63 1 (dcUnit (nextPred s.pred[pred] (extend v sz.toNat))) b2 x3.good
          have e1 : acLim s.ext = if s.ext then 14 else 10 := rfl
          have e2 : (Vector.replicate 64 0#16).set 0 (s.pred[pred] + BitVec.ofInt 16 (extend v sz.toNat)) = dcUnit (nextPred s.pred[pred] (extend v sz.toNat)) := rfl
          rw [← e1, e2]
          cases hr3 : readAcPath (slotCode s (acSlot act)) (acLim s.ext) 63 1 (dcUnit (nextPred s.pred[pred] (extend v sz.toNat))) (unreadBits s.ecs b2) with
          | error f => rw [hr3] at hac; have hac' : acLoop _ _ _ _ _ _ _ = _ := hac; rw [hac']
          | ok q =>
            obtain ⟨du, rest3⟩ := q
            obtain ⟨b3, n3, y1, y2, y3, y4⟩ := hac.ok hr3
            subst y2
            rw [y1]
            exact ⟨b3, n1 + n2 + n3, rfl, rfl, (w3.trans x3).trans y3, by omega⟩

/-- Path (b) leaves DU[0]. -/
theorem readAcPath_zero (t : List CodeEntry) (lim fuel k : Nat) (du du' : Vector Half 64) (bits rest : List Bool) (hk : 1 ≤ k)
    (h : readAcPath t lim fuel k du bits = .ok (du', rest)) : du'[0] = du[0] := by
  induction fuel generalizing k du bits with
  | zero => simp [readAcPath] at h; rw [h.1]
  | succ fuel ih =>
    unfold readAcPath at h
    split at h
    · simp at h; rw [h.1]
    · split at h
      · simp at h
      · rename_i rs bits1 _
        simp only at h
        split at h
        · simp at h; rw [h.1]
        · split at h
          · split at h
            · simp at h
            · exact ih _ _ _ (by omega) h
          · split at h
            · simp at h
            · split at h
              · simp at h
              · split at h
                · simp at h
                · have := ih _ _ _ (by omega) h
                  rw [this, Vector.getElem_setIfInBounds]
                  simp; omega

/-- DU[0] is the new predictor (R192). -/
theorem readUnit_zero {dt at_ : List CodeEntry} {ext : Bool} {pr p : Half} {o : Bool} {bits rest : List Bool} {du : Vector Half 64}
    (h : readUnit dt at_ ext pr o bits = .ok (p, du, rest)) : du[0] = p := by
  unfold readUnit at h
  split at h
  · simp at h
  · generalize (if ext = true then 15 else 11) = lim at h
    split at h
    · simp at h
    · split at h
      · simp at h
      · simp only at h
        cases o with
        | true =>
          simp only [if_true, Except.ok.injEq, Prod.mk.injEq] at h
          obtain ⟨h1, h2, -⟩ := h
          subst h2; subst h1; simp
        | false =>
          simp only [Bool.false_eq_true, if_false] at h
          generalize hl : (if ext = true then 14 else 10) = lim2 at h
          split at h
          · simp at h
          · rename_i hh
            have := readAcPath_zero _ _ _ _ _ _ _ _ (by omega) hh
            simp only [Except.ok.injEq, Prod.mk.injEq] at h
            obtain ⟨h1, h2, -⟩ := h
            subst h2; rw [this, ← h1]; simp

end Sys2Proof.Machine
end

