-- ==== Sys2Proof/Tests/Slice0.lean ====
section
/-! SUPPORT. Sys2Proof/Tests/Slice0.lean: small tests against the spec's own vectors (95_test_vectors.md), and for every
statement with hypotheses a witness that they can be met. -/

namespace Sys2Proof.Machine.Tests

-- One theorem at a time: each one elaborated beside the others would hold a thread's whole stack.
set_option Elab.async false

/-! ## Small states -/

/-- Cells for a byte string from `a` on, over a memory of zeros. -/
def cellsFrom : Nat → List Byte → List Host.Cell
  | _, [] => []
  | a, b :: bs => if b = 0#8 then cellsFrom (a + 1) bs else (a, b) :: cellsFrom (a + 1) bs

/-- The state after reset with every storage cell 0 and CMDLATCH 0. -/
def blank : State :=
  { State.reset with
    cmdLatch := 0#32, htc := Vector.replicate 8 (Vector.replicate 16 0#8),
    hts := Vector.replicate 8 (Vector.replicate 256 0#8), qte := Vector.replicate 4 (Vector.replicate 64 0#16),
    du := Vector.replicate 64 0#16, blk := Vector.replicate 64 0#32, sample := Vector.replicate 64 0#8,
    ecs := { State.reset.ecs with init := 0 } }

/-- `blank` with a window of the given bytes from offset 0, as BS_INIT leaves it. -/
def stream (bytes : List Byte) : State :=
  { blank with ecs := { blank.ecs with cells := cellsFrom 0 bytes }, bs := ⟨0#32, BitVec.ofNat 32 bytes.length, 0#8, 0#4, 0#32⟩ }

/-- A row of sixteen counts. -/
def counts (l : List Byte) : Vector Byte 16 := Vector.ofFn fun i => l.getD i.val 0#8

/-- A row of symbols. -/
def symbols (l : List Byte) : Vector Byte 256 :=
  (l.zipIdx).foldl (fun v p => v.setIfInBounds p.2 p.1) (Vector.replicate 256 0#8)

/-- `s` with a slot loaded and built. -/
def withTable (slot : Fin 8) (c s : List Byte) (t : State) : State :=
  { t with
    htc := t.htc.set slot.val (counts c), hts := t.hts.set slot.val (symbols s), htv := t.htv.set slot.val true }

/-- Table set B of 95_test_vectors.md. -/
def setB (s : State) : State :=
  withTable 1 [0, 2, 2, 1, 2] [0x01, 0x00, 0x02, 0x11, 0xF0, 0x10, 0x0B]
    (withTable 0 [0, 3, 1] [0, 1, 2, 3] s)

/-- Table set C of 95_test_vectors.md. -/
def setC (s : State) : State := withTable 1 [0, 3] [0xF0, 0x00, 0xE1] (withTable 0 [1] [0] s)

/-- `s` with a buffer of `n` bytes (R6), which no window of the state exceeds. -/
def sized (n : Nat) (s : State) : State := { s with ecs := { s.ecs with lastWord := (State.resetSized n).ecs.lastWord } }

/-- The outcome is a next state with the property. -/
def gives (o : Host.Outcome State Fault Refusal) (p : State → Bool) : Bool :=
  match o with
  | .next t => p t
  | _ => false

/-- The state after `i`, or `s` where there is none. -/
def next (i : Instr) (s : State) : State :=
  match exec i s with
  | .next t => t
  | _ => s

/-! ## WellFormed and Decode -/

/-- The one check of WellFormed refuses N = 0 and N = 17 (R86) and accepts 1 and 16. -/
theorem test_wellFormed_bsRead :
    (Instr.bsRead 0).wellFormed = false ∧ (Instr.bsRead 17).wellFormed = false ∧ (Instr.bsRead 1).wellFormed = true ∧
      (Instr.bsRead 16).wellFormed = true := by decide

/-- No two rows of the opcode map select a common word: their OPCs differ and every mask covers OPC (R89). -/
theorem test_opcodeMap_disjoint :
    opcodeMap.Pairwise (fun r r' => r.value &&& 0xFF#32 ≠ r'.value &&& 0xFF#32) ∧
      ∀ r ∈ opcodeMap, r.mask &&& 0xFF#32 = 0xFF#32 := by
  simp [opcodeMap]

/-! One word for each row, its bits written out from the formats F0, FS, FQ, FQP, FN and FD (R82 to R87). -/

theorem test_decode_nop : decode 0b00000000000000000000000000000000#32 = .ok .nop := by decide
/-- SLOT 101 at 10:8, OPC 0x10. -/
theorem test_decode_htBuild : decode 0b00000000000000000000010100010000#32 = .ok (.htBuild 5) := by decide
/-- PREC 1 at 12, QT 10 at 9:8, OPC 0x11 (V30-3). -/
theorem test_decode_qtSet : decode 0b00000000000000000001001000010001#32 = .ok (.qtSet 2 .sixteen) := by decide
theorem test_decode_bsInit : decode 0b00000000000000000000000000100000#32 = .ok .bsInit := by decide
/-- N 10000 at 12:8, OPC 0x21 (V30-5). -/
theorem test_decode_bsRead : decode 0b00000000000000000001000000100001#32 = .ok (.bsRead 16) := by decide
theorem test_decode_bsAlign : decode 0b00000000000000000000000000100010#32 = .ok .bsAlign := by decide
theorem test_decode_bsPeek : decode 0b00000000000000000000000000100011#32 = .ok .bsPeek := by decide
/-- SLOT 110 at 10:8, OPC 0x30. -/
theorem test_decode_hufDecode : decode 0b00000000000000000000011000110000#32 = .ok (.hufDecode 6) := by decide
/-- DCONLY 1 at 20, ACT 11 at 17:16, DCT 01 at 13:12, PRED 10 at 9:8, OPC 0x31. -/
theorem test_decode_duDecode : decode 0b00000000000100110001001000110001#32 = .ok (.duDecode 2 1 3 true) := by decide
theorem test_decode_predReset : decode 0b00000000000000000000000000110010#32 = .ok .predReset := by decide
theorem test_decode_bsRestart : decode 0b00000000000000000000000000110011#32 = .ok .bsRestart := by decide
/-- QT 11 at 9:8, OPC 0x40. -/
theorem test_decode_dequant : decode 0b00000000000000000000001101000000#32 = .ok (.dequant 3) := by decide
theorem test_decode_idct : decode 0b00000000000000000000000001000001#32 = .ok .idct := by decide

/-- DU_DECODE with ACT's upper neighbour, bit 18, set is illegal (R87). -/
theorem test_decode_duDecode_mbz : decode 0x00040031#32 = .error .mustBeZero := by decide

/-- The encoder's words are those of R92's column. -/
theorem test_encode :
    encode (.htBuild 3) = 0x00000310#32 ∧ encode (.qtSet 2 .sixteen) = 0x00001211#32 ∧
      encode (.bsRead 8) = 0x00000821#32 ∧ encode (.duDecode 0 1 3 false) = 0x00031031#32 ∧
      encode (.duDecode 1 0 0 true) = 0x00100131#32 ∧ encode (.dequant 1) = 0x00000140#32 := by decide

/-! ## Commands, one step each -/

/-- NOP runs while a fault is recorded and changes only BUSY (R104). -/
theorem test_nop : gives (step { blank with fault := true, fcode := 7#8, busy := true })
    (fun t => t.fault && t.fcode == 7#8 && !t.busy) = true := by decide +kernel

/-- A blocked PRED_RESET changes nothing but BUSY (R102, note after V30-14). -/
theorem test_blocked : gives (step { blank with
      fault := true, fcode := 1#8, busy := true, cmdLatch := 0x32#32, pred := Vector.replicate 4 9#16 })
    (fun t => t.pred == Vector.replicate 4 9#16 && !t.busy && t.fcode == 1#8) = true := by decide +kernel

/-- V30-12: HUF_DECODE with bit 31 set. -/
theorem test_illegal : gives (step { stream [0x80] with busy := true, cmdLatch := 0x80000030#32 })
    (fun t => statusWord t == 0x102#32 && t.finfo == 0x30#8 && t.fpos == 0#32) = true := by decide +kernel

/-- V42-5: L[1] = 3. -/
theorem test_htBuild_kraft : gives (exec (.htBuild 0) { blank with cmdLatch := 0x10#32, htc := blank.htc.set 0 (counts [3]) })
    (fun t => statusWord t == 0x302#32 && t.finfo == 0x10#8 && t.htv[0] == false) = true := by decide +kernel

/-- V42-4 (N = 257, whose Kraft sum is legal) and V42-6 (an empty table builds). -/
theorem test_htBuild_count :
    gives (exec (.htBuild 3)
        { blank with htc := blank.htc.set 3 (counts [0, 0, 0, 0, 0, 0, 0, 0, 0, 0, 0, 0, 0, 0, 2, 255]) })
      (fun t => statusWord t == 0x302#32) = true ∧
    gives (exec (.htBuild 4) blank) (fun t => tblValidWord t == 0x10#32 && !t.fault) = true := by decide +kernel

/-- V43-4 and V43-5. -/
theorem test_qtSet :
    gives (exec (.qtSet 0 .eight) { blank with qte := Vector.replicate 4 (Vector.replicate 64 0x0101#16) })
      (fun t => t.qte[0][63] == 0x0001#16 && t.qte[1][63] == 0x0101#16 && tblValidWord t == 0x100#32) = true ∧
    gives (exec (.qtSet 1 .sixteen) { blank with qte := Vector.replicate 4 (Vector.replicate 64 0x0101#16) })
      (fun t => t.qte[1][63] == 0x0101#16 && tblValidWord t == 0x2200#32) = true := by decide +kernel

/-- V41-14 and V41-15, with the size that is taken when none is stated (R6). -/
theorem test_bsInit :
    gives (exec .bsInit { blank with ecsStart := 0x10000#32, ecsLen := 1#32, cmdLatch := 0x20#32 })
      (fun t => statusWord t == 0x902#32 && t.finfo == 0x20#8 && t.bs.pos == 0#32 && t.bs.stop == 0#32) = true ∧
    gives (exec .bsInit { blank with ecsStart := 0x10000#32 })
      (fun t => !t.fault && t.bs.pos == 0x10000#32 && t.bs.stop == 0x10000#32) = true := by decide +kernel

/-- The least and the greatest size that can be stated (R6): a window of the whole buffer fits, one byte more does not
(R114). -/
theorem test_bsInit_sizes :
    gives (exec .bsInit (sized 4 { blank with ecsLen := 4#32 })) (fun t => !t.fault && t.bs.stop == 4#32) = true ∧
    gives (exec .bsInit (sized 4 { blank with ecsLen := 5#32 })) (fun t => t.fault && t.fcode == 9#8) = true ∧
    gives (exec .bsInit (sized 0x1000000 { blank with ecsLen := 0x1000000#32 })) (fun t => !t.fault) = true ∧
    gives (exec .bsInit (sized 0x1000000 { blank with ecsStart := 1#32, ecsLen := 0x1000000#32 })) (fun t => t.fault) = true := by
  decide +kernel

/-- V41-5: reads across three bytes. -/
theorem test_bsRead_across : gives (exec (.bsRead 16) (next (.bsRead 4) (stream [0xA5, 0x3C, 0x7E])))
    (fun t => t.result == 0x53C7#32 && t.bs.pos == 3#32 && bsBufWord t == 0x47E#32 && t.bs.bitcnt == 20#32) = true := by
  decide +kernel

/-- V41-3: two fill bytes skipped, and 0xFF 0x00 is a data 0xFF. -/
theorem test_bsRead_stuffed : gives (exec (.bsRead 8) (stream [0xFF, 0xFF, 0xFF, 0x00]))
    (fun t => t.result == 0xFF#32 && t.bs.pos == 4#32) = true := by decide +kernel

/-- BS_POS stays just past the last data byte fetched, before the fill byte and the marker that follow (R112, R118). -/
theorem test_bsRead_stays : gives (exec (.bsRead 8) (stream [0xA5, 0xFF, 0xFF, 0xD9]))
    (fun t => t.result == 0xA5#32 && t.bs.pos == 1#32 && bsBufWord t == 0x0A5#32) = true := by decide +kernel

/-- V41-7. -/
theorem test_bsAlign : gives (exec .bsAlign (next (.bsRead 3) (stream [0xAB])))
    (fun t => bsBufWord t == 0x0AB#32 && t.bs.bitcnt == 3#32 && t.bs.pos == 1#32) = true := by decide +kernel

/-- V41-9, V41-12 and V41-10's lone 0xFF. -/
theorem test_bsPeek :
    gives (exec .bsPeek (stream [0xFF, 0xFF, 0xD9])) (fun t => t.result == 0x1D9#32 && t.bs.pos == 0#32) = true ∧
    gives (exec .bsPeek (stream [0xFF, 0x00])) (fun t => t.result == 0#32) = true ∧
    gives (exec .bsPeek (stream [0xFF])) (fun t => t.result == 0x200#32) = true := by decide +kernel

/-- V42-3: the 16-bit all-ones code. -/
theorem test_hufDecode_long : gives (exec (.hufDecode 3)
      (withTable 3 [1, 1, 1, 1, 1, 1, 1, 1, 1, 1, 1, 1, 1, 1, 1, 2]
        [0x20, 0x21, 0x22, 0x23, 0x24, 0x25, 0x26, 0x27, 0x28, 0x29, 0x2A, 0x2B, 0x2C, 0x2D, 0x2E, 0x2F, 0x30]
        (stream [0xFF, 0x00, 0xFF, 0x00])))
    (fun t => t.result == 0x30#32 && t.bs.bitcnt == 16#32 && t.bs.pos == 4#32) = true := by decide +kernel

/-- V42-7 (never built) and V42-8 (leaves the tree at the second bit). -/
theorem test_hufDecode_faults :
    gives (exec (.hufDecode 6) (stream [0x80]))
      (fun t => statusWord t == 0x202#32 && t.bs.pos == 0#32 && t.bs.bitcnt == 0#32) = true ∧
    gives (exec (.hufDecode 0) (withTable 0 [0, 1] [9] (stream [0x40]))) (fun t => statusWord t == 0x402#32) = true := by
  decide +kernel

/-- V45-2, Program 2 step 5. -/
theorem test_duDecode :
    gives (exec (.duDecode 0 0 0 false) (setB (stream [0x93, 0x53, 0xC2, 0xFF, 0x00, 0xFF, 0xD9])))
      (fun t => t.result == 25#32 && t.bs.pos == 5#32 && bsBufWord t == 0x7FF#32 && t.pred[0] == -2#16 &&
        t.du[0] == -2#16 && t.du[1] == 1#16 && t.du[2] == 0#16 && t.du[3] == -1#16 && t.du[4] == 3#16 &&
        t.du[21] == 1#16 && t.du[63] == 0#16) = true := by decide +kernel

/-- V45-10 (size 11 with EXT = 1) and V45-6 (a ZRL at k = 49). -/
theorem test_duDecode_limits :
    gives (exec (.duDecode 0 0 0 false) { setB (stream [0x37, 0x00, 0x5F]) with ext := true })
      (fun t => t.du[1] == 1025#16 && t.result == 20#32 && bsBufWord t == 0x45F#32) = true ∧
    gives (exec (.duDecode 0 0 0 false) (setC (stream [0x00, 0x7F]))) (fun t => statusWord t == 0x602#32) = true := by
  decide +kernel

/-- V45-17. -/
theorem test_predReset : gives (exec .predReset { blank with pred := Vector.replicate 4 (-7#16) })
    (fun t => t.pred == Vector.replicate 4 0#16) = true := by decide +kernel

/-- V45-14: an out-of-sequence marker is consumed and warned. -/
theorem test_bsRestart : gives (exec .bsRestart (stream [0xFF, 0xD5]))
    (fun t => t.result == 0x1D5#32 && t.rstK == 1#32 && t.seqwarn && t.bs.pos == 2#32 && !t.eos) = true := by
  decide +kernel

/-- V45-16: data after the alignment. -/
theorem test_bsRestart_missing : gives (exec .bsRestart { next (.bsRead 4) (stream [0x12, 0x34]) with cmdLatch := 0x33#32 })
    (fun t => statusWord t == 0x802#32 && t.finfo == 0x33#8 && t.fpos == 1#32 && t.bs.pos == 1#32 &&
      t.bs.nbits == 0#4) = true := by decide +kernel

/-- V43-6: three coefficients scaled by 2, and where they land. -/
theorem test_dequant : gives (exec (.dequant 1) { blank with
      du := ((blank.du.set 0 5#16).set 1 (-3#16)).set 2 2#16,
      qte := Vector.replicate 4 (Vector.replicate 64 2#16), qtv := Vector.replicate 4 true })
    (fun t => t.blk[0] == 10#32 && t.blk[1] == -6#32 && t.blk[8] == 4#32 && t.blk[2] == 0#32) = true := by decide +kernel

/-- V43-8: the extreme product is exact. -/
theorem test_dequant_extreme : gives (exec (.dequant 0) { blank with
      du := blank.du.set 0 0x8000#16, qte := Vector.replicate 4 (Vector.replicate 64 0xFFFF#16),
      qtv := Vector.replicate 4 true })
    (fun t => (t.blk[0]).toInt == -2147450880) = true := by decide +kernel

/-- V44-1: the zero block, whatever the IDCT_CORE. -/
theorem test_idct_zero : gives (exec .idct blank) (fun t => t.sample == Vector.replicate 64 128#8) = true := by
  decide +kernel

/-- V44-8 and V44-9: IDCT_REF of one horizontal and one vertical frequency, before the shift. -/
theorem test_idctRef_rows :
    (List.range 8).map (idctRef ((Vector.replicate 64 0#32).set 1 16#32)) = [3, 2, 2, 1, -1, -2, -2, -3] ∧
    (List.range 8).map (fun y => idctRef ((Vector.replicate 64 0#32).set 8 16#32) (8 * y)) =
      [3, 2, 2, 1, -1, -2, -2, -3] := by decide +kernel

/-- V44-11: row 3 of the mixed block, before the shift. -/
theorem test_idctRef_mixed :
    (List.range 8).map (fun x => idctRef
      (((((Vector.replicate 64 0#32).set 0 (-80#32)).set 2 (-30#32)).set 9 12#32).set 63 40#32) (24 + x) + 128) =
      [112, 122, 112, 133, 113, 128, 110, 114] := by decide +kernel

/-! ## The host -/

/-- Reads of STATUS and BS_BUF, and of a word of the ECS buffer (R24, R31, R63). -/
theorem test_hostRead :
    gives (hostRead 32 0x00C { blank with fault := true, fcode := 7#8, eos := true })
      (fun t => t.reply == 0x70A#32) = true ∧
    gives (hostRead 32 0x02C (next (.bsRead 4) (stream [0xA5]))) (fun t => t.reply == 0x4A5#32) = true ∧
    gives (hostRead 32 0x10000 (stream [0x3F, 0xFF, 0xD9])) (fun t => t.reply == 0x00D9FF3F#32) = true := by
  decide +kernel

/-- V42-11: a write to HTS word 0x1900 clears HTV[1] and stores symbol 0 in the low byte. -/
theorem test_hostWrite : gives (hostWrite 32 0x1900 0x11020001#32 (setB blank))
    (fun t => t.htv[1] == false && t.htv[0] && t.hts[1][0] == 0x01#8 && t.hts[1][3] == 0x11#8) = true := by
  decide +kernel

/-- A write that makes a byte what an unlisted address reads as removes its entry. -/
theorem test_hostWrite_ecs : gives (hostWrite 32 0x10000 0x00000005#32 (stream [0x3F, 0xFF, 0xD9]))
    (fun t => t.ecs.cells == [(0, 5#8)]) = true := by decide +kernel

/-- The first command placed after reset is the one that runs (log 2): a word of each kind gives a next state. -/
theorem test_withFetchWord :
    [0x00, 0x310, 0x1211, 0x20, 0x821, 0x22, 0x23, 0x630, 0x31031, 0x32, 0x33, 0x340, 0x41].all
      (fun w => gives (step (State.reset.withFetchWord 32 w)) (fun t => !t.busy)) = true := by decide +kernel

/-! ## Witnesses: the hypotheses of each statement can be met, clause by clause -/

/-- A next state with a property, from the Boolean test. -/
theorem of_gives {o : Host.Outcome State Fault Refusal} {p : State → Bool} (h : gives o p = true) :
    ∃ t, o = .next t ∧ p t = true := by
  cases o with
  | next t => exact ⟨t, rfl, h⟩
  | fault f => cases h
  | refused r => cases h

/-- The invariant from Boolean tests, for a state with no fault and no quantization table. -/
theorem inv_of_tests {s : State} (h1 : s.ecs.wf = true) (h2 : s.bs.stop.toNat ≤ s.ecs.size)
    (h3 : s.bs.pos.toNat ≤ s.bs.stop.toNat) (h4 : s.bs.nbits.toNat ≤ 7)
    (h5 : s.fault = false ∧ s.fcode = 0#8 ∧ s.finfo = 0#8 ∧ s.fpos = 0#32)
    (h6 : ∀ slot : Fin 8, s.htv[slot] = true → malformedTable s.htc[slot] = false)
    (h7 : ∀ t : Fin 4, s.qtv[t] = false) : s.Inv where
  ecsCanonical := h1
  windowInBuffer := h2
  posInWindow _ := h3
  bufferedBits _ := h4
  noRecord _ := h5.2
  recordedCode h := by rw [h5.1] at h; cases h
  builtTables := h6
  committedTables t h := by rw [h7 t] at h; cases h

theorem setB_inv : (setB (stream [0x93, 0x53, 0xC2, 0x80])).Inv :=
  inv_of_tests (by decide +kernel) (by decide +kernel) (by decide +kernel) (by decide +kernel) (by decide +kernel)
    (by decide +kernel) (by decide +kernel)

theorem setC_inv : (setC (stream [0x3F])).Inv :=
  inv_of_tests (by decide +kernel) (by decide +kernel) (by decide +kernel) (by decide +kernel) (by decide +kernel)
    (by decide +kernel) (by decide +kernel)

theorem blank_inv : blank.Inv :=
  inv_of_tests (by decide +kernel) (by decide +kernel) (by decide +kernel) (by decide +kernel) (by decide +kernel)
    (by decide +kernel) (by decide +kernel)

/-- The invariant does not read the schedule, BUSY or CMDLATCH. -/
theorem inv_scheduled {s : State} (h : s.Inv) (busy : Bool) (w : Word) (pending : List Event) :
    ({ s with busy := busy, cmdLatch := w, pending := pending } : State).Inv :=
  ⟨h.1, h.2, h.3, h.4, h.5, h.6, h.7, h.8⟩

/-- `blank` with a command in flight and the given schedule. -/
def busyWith (w : Word) (pending : List Event) : State :=
  { blank with busy := true, cmdLatch := w, pending := pending }

/-- Both ways in which the engine moves next. -/
theorem witness_engineNext :
    (busyWith 0#32 []).engineNext [] ∧ (busyWith 0#32 [.engine, .reset]).engineNext [.reset] :=
  ⟨.inr ⟨rfl, rfl⟩, .inl rfl⟩

theorem witness_IllegalWordRaisesIllegalCommand :
    ((busyWith 0xFF#32 []).busy = true ∧ (busyWith 0xFF#32 []).cmdLatch = 0xFF#32 ∧ (busyWith 0xFF#32 []).engineNext []) ∧
    (0xFF#32).extractLsb' 0 8 ∉
      [0x00#8, 0x10#8, 0x11#8, 0x20#8, 0x21#8, 0x22#8, 0x23#8, 0x30#8, 0x31#8, 0x32#8, 0x33#8, 0x40#8, 0x41#8] ∧
    ((0x100#32).extractLsb' 0 8 = 0x00#8 ∧ 0x100#32 &&& 0xFFFFFF00#32 ≠ 0#32) ∧
    ((0x80000030#32).extractLsb' 0 8 = 0x30#8 ∧ 0x80000030#32 &&& 0xFFFFF800#32 ≠ 0#32) ∧
    ((0x440#32).extractLsb' 0 8 = 0x40#8 ∧ 0x440#32 &&& 0xFFFFFC00#32 ≠ 0#32) ∧
    ((0x2011#32).extractLsb' 0 8 = 0x11#8 ∧ 0x2011#32 &&& 0xFFFFEC00#32 ≠ 0#32) ∧
    ((0x2121#32).extractLsb' 0 8 = 0x21#8 ∧ 0x2121#32 &&& 0xFFFFE000#32 ≠ 0#32) ∧
    ((0x21#32).extractLsb' 0 8 = 0x21#8 ∧ (0x21#32).extractLsb' 8 5 = 0#5) ∧
    ((0x1121#32).extractLsb' 0 8 = 0x21#8 ∧ 16#5 < (0x1121#32).extractLsb' 8 5) ∧
    ((0x431#32).extractLsb' 0 8 = 0x31#8 ∧ 0x431#32 &&& 0xFFECCC00#32 ≠ 0#32) :=
  ⟨⟨rfl, rfl, .inr ⟨rfl, rfl⟩⟩, by decide⟩

theorem witness_CmdWriteIssuesCommand :
    ({ blank with pending := [.write 32 0x008 0x41#32] } : State).pending = .write 32 0x008 0x41#32 :: [] ∧
    (busyWith 0#32 [.write 32 0x008 0x41#32]).pending = .write 32 0x008 0x41#32 :: [] := ⟨rfl, rfl⟩

theorem witness_StepRunsDecodedInstruction :
    (blank.engineNext [] ∧ blank.busy = false) ∧
    ((busyWith 0x41#32 []).engineNext [] ∧ (busyWith 0x41#32 []).busy = true ∧
      decode (busyWith 0x41#32 []).cmdLatch = .ok .idct ∧ (busyWith 0x41#32 []).fault = false) ∧
    ({ busyWith 0x20#32 [] with fault := true } : State).engineNext [] ∧
    decode ({ busyWith 0x20#32 [] with fault := true } : State).cmdLatch = .ok .bsInit :=
  ⟨⟨.inr ⟨rfl, rfl⟩, rfl⟩, ⟨.inr ⟨rfl, rfl⟩, rfl, by decide, rfl⟩, .inr ⟨rfl, rfl⟩, by decide⟩

theorem witness_BlockedCommandChangesOnlyBusy :
    let s : State := { busyWith 0x821#32 [] with fault := true }
    s.fault = true ∧ s.busy = true ∧ s.engineNext [] ∧ s.cmdLatch.extractLsb' 0 8 ≠ 0x00#8 ∧
      s.cmdLatch.extractLsb' 0 8 ≠ 0x20#8 := ⟨rfl, rfl, .inr ⟨rfl, rfl⟩, by decide, by decide⟩

theorem witness_EngineStepAlwaysCompletes :
    (busyWith 0x41#32 []).Inv ∧ (busyWith 0x41#32 []).busy = true ∧ (busyWith 0x41#32 []).engineNext [] :=
  ⟨inv_scheduled blank_inv true 0x41#32 [], rfl, .inr ⟨rfl, rfl⟩⟩

/-- The sizes at the ends of R6's range. -/
theorem witness_InvariantAtReset :
    (4 ≤ 4 ∧ 4 ≤ 2 ^ 24 ∧ 4 % 4 = 0) ∧ 4 ≤ 2 ^ 24 ∧ 2 ^ 24 ≤ 2 ^ 24 ∧ 2 ^ 24 % 4 = 0 := by decide

theorem witness_InvariantKeptByStep :
    ∃ t, (busyWith 0x32#32 []).Inv ∧ step (busyWith 0x32#32 []) = .next t := by
  obtain ⟨t, h, -⟩ := of_gives (o := step (busyWith 0x32#32 [])) (p := fun _ => true) (by decide +kernel)
  exact ⟨t, inv_scheduled blank_inv true 0x32#32 [], h⟩

/-- A refused access of each kind, from states that keep the invariant: width 16, offset 2, the first offset beyond the
window, and a write while busy; and the last word of the window, which is read. -/
theorem witness_StepStopsOnlyOnRefusedAccess :
    (∀ busy w pending, ({ blank with busy := busy, cmdLatch := w, pending := pending } : State).Inv) ∧
    gives (step { blank with pending := [.read 16 0] }) (fun _ => true) = false ∧
    gives (step { blank with pending := [.write 32 2 0#32] }) (fun _ => true) = false ∧
    gives (step (busyWith 0#32 [.write 32 0 0#32])) (fun _ => true) = false ∧
    step { blank with pending := [.read 32 0x20000] } = .refused .hostOutsideWindow ∧
    gives (step { blank with pending := [.read 32 0x1FFFC] }) (fun _ => true) = true :=
  ⟨fun busy w pending => inv_scheduled blank_inv busy w pending, by decide +kernel, by decide +kernel, by decide +kernel,
    rfl, by decide +kernel⟩

theorem witness_NopDoesNothing :
    (busyWith 0#32 []).busy = true ∧ (busyWith 0#32 []).cmdLatch = 0x00000000#32 ∧ (busyWith 0#32 []).engineNext [] :=
  ⟨rfl, rfl, .inr ⟨rfl, rfl⟩⟩

/-- A window of each form: data, stuffed data with and without fill, a marker with and without fill, fill only, empty;
and a window at the very end of the buffer. -/
theorem witness_ScanAtClassifiesInput :
    ((stream [0xA5, 0x3C]).bs.stop.toNat ≤ (stream [0xA5, 0x3C]).ecs.size ∧
      windowBytes (stream [0xA5, 0x3C]).ecs (stream [0xA5, 0x3C]).bs = 0xA5#8 :: [0x3C#8]) ∧
    windowBytes (stream [0xFF, 0x00, 0x12]).ecs (stream [0xFF, 0x00, 0x12]).bs =
      List.replicate (0 + 1) 0xFF#8 ++ 0x00#8 :: [0x12#8] ∧
    windowBytes (stream [0xFF, 0xFF, 0x00]).ecs (stream [0xFF, 0xFF, 0x00]).bs =
      List.replicate (1 + 1) 0xFF#8 ++ 0x00#8 :: [] ∧
    windowBytes (stream [0xFF, 0x01]).ecs (stream [0xFF, 0x01]).bs = List.replicate (0 + 1) 0xFF#8 ++ 0x01#8 :: [] ∧
    windowBytes (stream [0xFF, 0xFF, 0xFE]).ecs (stream [0xFF, 0xFF, 0xFE]).bs =
      List.replicate (1 + 1) 0xFF#8 ++ 0xFE#8 :: [] ∧
    windowBytes (stream [0xFF, 0xFF]).ecs (stream [0xFF, 0xFF]).bs = List.replicate 2 0xFF#8 ∧
    windowBytes (stream []).ecs (stream []).bs = List.replicate 0 0xFF#8 ∧
    ((0x10000#32).toNat = blank.ecs.size ∧
      windowBytes blank.ecs ⟨0xFFFF#32, 0x10000#32, 0#8, 0#4, 0#32⟩ = 0x00#8 :: []) := by decide +kernel

/-- NBITS 1 and 8, and an empty buffer before data, a marker and the end. -/
theorem witness_ReadBitFetchesAndDelivers :
    ((⟨0#32, 0#32, 1#8, 1#4, 0#32⟩ : BitSource).nbits ≠ 0#4 ∧
      (⟨0#32, 0#32, 1#8, 1#4, 0#32⟩ : BitSource).nbits.toNat ≤ 8) ∧
    ((⟨0#32, 0#32, 1#8, 8#4, 0#32⟩ : BitSource).nbits ≠ 0#4 ∧
      (⟨0#32, 0#32, 1#8, 8#4, 0#32⟩ : BitSource).nbits.toNat ≤ 8) ∧
    ((stream [0xA5]).bs.nbits = 0#4 ∧ scanAtPos (stream [0xA5]).ecs (stream [0xA5]).bs = .ok (.data 0xA5#8 1)) ∧
    scanAtPos (stream [0xFF, 0xD9]).ecs (stream [0xFF, 0xD9]).bs = .ok (.marker 0xD9#8 0 2) ∧
    scanAtPos (stream []).ecs (stream []).bs = .ok .endOfWindow ∧
    ((⟨0#32, 0#32, 0x80#8, 8#4, 0#32⟩ : BitSource).nbits.toNat ≤ 8 ∧
      readBit blank.ecs ⟨0#32, 0#32, 0x80#8, 8#4, 0#32⟩ = .ok (true, ⟨0#32, 0#32, 0x80#8, 7#4, 1#32⟩)) := by decide +kernel

/-- Windows that just fit and just do not, in a buffer of 65536 bytes. -/
theorem witness_BsInitStartsWindow :
    let s (a b : Word) : State := { blank with ecsStart := a, ecsLen := b }
    ((s 0x10000#32 0#32).ecsStart.toNat + (s 0x10000#32 0#32).ecsLen.toNat ≤ (s 0x10000#32 0#32).ecs.size) ∧
    ((s 0#32 0x10000#32).ecsStart.toNat + (s 0#32 0x10000#32).ecsLen.toNat ≤ (s 0#32 0x10000#32).ecs.size) ∧
    ((s 0x10000#32 1#32).ecs.size < (s 0x10000#32 1#32).ecsStart.toNat + (s 0x10000#32 1#32).ecsLen.toNat) ∧
    ((s 0xFFFFFFFF#32 0xFFFFFFFF#32).ecs.size <
      (s 0xFFFFFFFF#32 0xFFFFFFFF#32).ecsStart.toNat + (s 0xFFFFFFFF#32 0xFFFFFFFF#32).ecsLen.toNat) := by decide +kernel

/-- N = 1 and N = 16, with exactly enough bits, and with one bit too few; N = 0 and N = 17 are illegal. -/
theorem witness_BsReadDeliversNextBits :
    ((0 : Fin 32).val = 0 ∧ 16 < (17 : Fin 32).val) ∧
    ((stream [0xA5, 0x3C]).fault = false ∧ (stream [0xA5, 0x3C]).bs.stop.toNat ≤ (stream [0xA5, 0x3C]).ecs.size ∧
      (stream [0xA5, 0x3C]).bs.nbits.toNat ≤ 7) ∧
    (1 ≤ (1 : Fin 32).val ∧ 1 ≤ (unreadBits (stream [0xA5, 0x3C]).ecs (stream [0xA5, 0x3C]).bs).length) ∧
    ((16 : Fin 32).val ≤ 16 ∧ (unreadBits (stream [0xA5, 0x3C]).ecs (stream [0xA5, 0x3C]).bs).length = 16) ∧
    (unreadBits (stream []).ecs (stream []).bs).length < 1 ∧
    (unreadBits (next (.bsRead 1) (stream [0xA5, 0x3C])).ecs (next (.bsRead 1) (stream [0xA5, 0x3C])).bs).length < 16 := by
  decide +kernel

theorem witness_BsPeekReportsMarker :
    (stream [0xFF, 0xD9]).bs.stop.toNat ≤ (stream [0xFF, 0xD9]).ecs.size ∧
    windowBytes (stream [0x12]).ecs (stream [0x12]).bs = 0x12#8 :: [] ∧
    windowBytes (stream [0xFF, 0x00]).ecs (stream [0xFF, 0x00]).bs = List.replicate (0 + 1) 0xFF#8 ++ 0x00#8 :: [] ∧
    windowBytes (stream [0xFF, 0xFF, 0xD9]).ecs (stream [0xFF, 0xFF, 0xD9]).bs =
      List.replicate (1 + 1) 0xFF#8 ++ 0xD9#8 :: [] ∧
    windowBytes (stream []).ecs (stream []).bs = List.replicate 0 0xFF#8 ∧
    windowBytes (stream [0xFF]).ecs (stream [0xFF]).bs = List.replicate 1 0xFF#8 := by decide +kernel

/-- A slot with neighbouring positions, and one with N = 256 exactly. -/
theorem witness_CanonAssignsCanonicalCodes :
    (∑ i : Fin 16, ((counts [0, 3, 1])[i]).toNat) ≤ 256 ∧
    (canon (counts [0, 3, 1]) (symbols [0, 1, 2, 3]))[0]? = some ⟨2, 0, 0#8⟩ ∧
    (canon (counts [0, 3, 1]) (symbols [0, 1, 2, 3]))[2]? = some ⟨2, 2, 2#8⟩ ∧
    (canon (counts [0, 3, 1]) (symbols [0, 1, 2, 3]))[3]? = some ⟨3, 6, 3#8⟩ ∧
    (∑ i : Fin 16, ((counts [0, 0, 0, 0, 0, 0, 0, 0, 255, 1])[i]).toNat) = 256 := by decide +kernel

/-- Kraft sums of exactly 65536 (L[1] = 2) and just above (L[1] = 2, L[16] = 1). -/
theorem witness_KraftSumDecidesWhetherCodesFit :
    (∑ i : Fin 16, ((counts [2])[i]).toNat * 2 ^ (15 - i.val)) = 65536 ∧
    (∑ i : Fin 16, ((counts [2, 0, 0, 0, 0, 0, 0, 0, 0, 0, 0, 0, 0, 0, 0, 1])[i]).toNat * 2 ^ (15 - i.val)) = 65537 ∧
    (canon (counts [2]) (symbols [5, 7])).getLast? = some ⟨1, 1, 7#8⟩ := by
  decide +kernel

theorem witness_CodesArePrefixFree :
    malformedTable (counts [2]) = false ∧ (canon (counts [2]) (symbols [5, 7]))[1]? = some ⟨1, 1, 7#8⟩ ∧
    (⟨1, 1, 7#8⟩ : CodeEntry).bits <+: (⟨1, 1, 7#8⟩ : CodeEntry).bits := by decide +kernel

/-- Set B's DC table: its longest length is 3, and every later count is 0. -/
theorem witness_LeavesLieAtDeclaredDepths :
    malformedTable (counts [0, 3, 1]) = false ∧ (⟨3, 6, 3#8⟩ : CodeEntry) ∈ canon (counts [0, 3, 1]) (symbols [0, 1, 2, 3]) ∧
    0 < ((counts [0, 3, 1])[(2 : Fin 16)]).toNat ∧
    (∀ j : Fin 16, (2 : Fin 16) < j → ((counts [0, 3, 1])[j]).toNat = 0) := by decide +kernel

theorem witness_HtBuildChecksAndCommits : blank.fault = false ∧ (setB blank).fault = false := ⟨rfl, rfl⟩

/-- A slot that is not valid; a code at the head; an end inside a code, and at once; bits that leave the tree. -/
theorem witness_HufDecodeReadsOneSymbol :
    let s := setB (stream [0x93, 0x53, 0xC2, 0x80])
    let one (bytes : List Byte) := withTable 0 [0, 0, 1] [9] (stream bytes)
    let head (bytes : List Byte) := unreadBits (one bytes).ecs (one bytes).bs
    (s.Inv ∧ s.fault = false ∧ s.htv[(2 : Fin 8)] = false ∧ s.htv[(0 : Fin 8)] = true) ∧
    ((⟨2, 2, 2#8⟩ : CodeEntry) ∈ canon s.htc[(0 : Fin 8)] s.hts[(0 : Fin 8)] ∧
      (⟨2, 2, 2#8⟩ : CodeEntry).bits <+: unreadBits s.ecs s.bs) ∧
    (canon (one []).htc[(0 : Fin 8)] (one []).hts[(0 : Fin 8)] = [⟨3, 0, 9#8⟩] ∧ head [] = [] ∧
      (unreadBits (next (.bsRead 6) (one [0x00])).ecs (next (.bsRead 6) (one [0x00])).bs) <+: (⟨3, 0, 9#8⟩ : CodeEntry).bits) ∧
    (¬ (⟨3, 0, 9#8⟩ : CodeEntry).bits <+: head [0x40] ∧ ¬ head [0x40] <+: (⟨3, 0, 9#8⟩ : CodeEntry).bits) :=
  ⟨⟨setB_inv, by decide +kernel⟩, by decide +kernel⟩

/-- A table that is valid and one that is not. -/
theorem witness_DequantMultipliesExactly :
    let s : State := { blank with qtv := blank.qtv.set 1 true }
    s.qtv[(1 : Fin 4)] = true ∧ s.qtv[(0 : Fin 4)] = false ∧ s.fault = false := by decide +kernel

/-- A table with a zero and a non-zero entry. -/
theorem witness_DequantIsRecoveredByDivision :
    ∃ t, let s : State := { blank with qtv := Vector.replicate 4 true, qte := Vector.replicate 4 ((Vector.replicate 64 0#16).set 5 65535#16) }
      s.qtv[(1 : Fin 4)] = true ∧ exec (.dequant 1) s = .next t ∧ 0 < (s.qte[(1 : Fin 4)][(5 : Fin 64)]).toNat ∧
        (s.qte[(1 : Fin 4)][(6 : Fin 64)]).toNat = 0 :=
  ⟨_, by decide +kernel, rfl, by decide +kernel, by decide +kernel⟩

theorem witness_IdctShiftsAndClamps : blank.blk = Vector.replicate 64 0#32 := rfl

/-- The two ends of the range of R181 property 3. -/
theorem witness_IdctCoreMeetsItsBounds :
    ∀ i : Fin 64, |(((Vector.replicate 64 1024#32).set 7 (-1024#32))[i]).toInt| ≤ 1024 := by decide +kernel

/-- The least and the greatest size, and the values at which EXTEND turns. -/
theorem witness_ExtendGivesSignedValue :
    (1 ≤ 1 ∧ 0 < 2 ^ (1 - 1) ∧ 2 ^ (1 - 1) ≤ 1 ∧ 1 < 2 ^ 1) ∧
    (15 ≤ 15 ∧ 2 ^ 14 - 1 < 2 ^ (15 - 1) ∧ 2 ^ (15 - 1) ≤ 2 ^ 14 ∧ 2 ^ 15 - 1 < 2 ^ 15) := by decide

/-- Missing tables, DC only, and complete tables; a data unit that completes and one that faults. -/
theorem witness_DuDecodeDecodesOneUnit :
    let s := setB (stream [0x93, 0x53, 0xC2, 0x80])
    (s.Inv ∧ s.fault = false ∧ s.htv[(2 : Fin 8)] = false ∧ s.htv[(7 : Fin 8)] = false ∧ s.htv[(0 : Fin 8)] = true ∧
      s.htv[(1 : Fin 8)] = true) ∧
    (match readUnit (slotCode s 0) (slotCode s 1) false s.pred[0] false (unreadBits s.ecs s.bs) with
      | .ok (p, _, rest) => decide (p = -2#16) && decide (rest.length = 7)
      | .error _ => false) = true ∧
    (match readUnit (slotCode s 0) (slotCode s 1) false s.pred[0] false [] with
      | .ok _ => false
      | .error k => decide (k = .truncated)) = true :=
  ⟨⟨setB_inv, by decide +kernel⟩, by decide +kernel⟩

/-- V45-4: the bits 0 (DC size 0), 01 (EOB), then padding. -/
theorem witness_EobAfterDcLeavesZeros :
    let s := setC (stream [0x3F])
    s.Inv ∧ s.fault = false ∧ s.htv[dcSlot 0] = true ∧ s.htv[acSlot 0] = true ∧
    (⟨1, 0, 0#8⟩ : CodeEntry) ∈ slotCode s (dcSlot 0) ∧ (0#8).toNat ≤ dcLim s.ext ∧ 0 < 2 ^ (0#8).toNat ∧
    (⟨2, 1, 0#8⟩ : CodeEntry) ∈ slotCode s (acSlot 0) ∧
    unreadBits s.ecs s.bs =
      (⟨1, 0, 0#8⟩ : CodeEntry).bits ++ bitsOf (0#8).toNat 0 ++ (⟨2, 1, 0#8⟩ : CodeEntry).bits ++ List.replicate 5 true :=
  ⟨setC_inv, by decide +kernel⟩

/-- A walk that answers ZRL, and one that answers a run of 15 and size 1, with its magnitude bit. -/
theorem witness_AcCursorBoundaries :
    let z := withTable 1 [1] [0xF0] (stream [0x00])
    let r := withTable 1 [1] [0xF1] (stream [0x00])
    (match hufWalk z.ecs (slotCode z 1) z.bs with | .ok (rs, _) => decide (rs = 0xF0#8) | .error _ => false) = true ∧
    (match hufWalk r.ecs (slotCode r 1) r.bs with
      | .ok (rs, b1) => decide (rs.toNat / 16 = 15) && decide (1 ≤ rs.toNat % 16) && decide (rs.toNat % 16 ≤ acLim false) &&
          (match readBits r.ecs (rs.toNat % 16) b1 with | .ok (v, _) => decide (v = 0) | .error _ => false)
      | .error _ => false) = true := by decide +kernel

/-- V45-13: only the DC slot is built. -/
theorem witness_DcOnlyIgnoresAcPath :
    ∃ t, let s := withTable 0 [1] [0] (stream [0x7F])
      (s.htv.set 1 true)[dcSlot 0] = s.htv[dcSlot 0] ∧ exec (.duDecode 0 0 0 true) s = .next t ∧
        s.htv[dcSlot 0] = true ∧ s.fault = false ∧ t.fault = false := by
  obtain ⟨t, h, ht⟩ := of_gives (o := exec (.duDecode 0 0 0 true) (withTable 0 [1] [0] (stream [0x7F])))
    (p := fun t => t.fault == false) (by decide +kernel)
  exact ⟨t, by decide +kernel, h, by decide +kernel, rfl, by simpa using ht⟩

theorem witness_DuDecodeBitBound :
    ∃ t, let s := setB (stream [0x93, 0x53, 0xC2, 0x80])
      s.Inv ∧ s.fault = false ∧ exec (.duDecode 0 0 0 false) s = .next t ∧ t.fault = false := by
  obtain ⟨t, h, ht⟩ := of_gives
    (o := exec (.duDecode 0 0 0 false) (setB (stream [0x93, 0x53, 0xC2, 0x80])))
    (p := fun t => t.fault == false) (by decide +kernel)
  exact ⟨t, setB_inv, rfl, h, by simpa using ht⟩

/-- The least and greatest restart markers, their neighbours, the end, data and stuffed data. -/
theorem witness_BsRestartConsumesMarker :
    ((stream [0xFF, 0xD0]).bs.stop.toNat ≤ (stream [0xFF, 0xD0]).ecs.size ∧ (stream [0xFF, 0xD0]).fault = false) ∧
    (0xD0 ≤ (0xD0#8).toNat ∧ windowBytes (stream [0xFF, 0xD0]).ecs (stream [0xFF, 0xD0]).bs =
      List.replicate (0 + 1) 0xFF#8 ++ 0xD0#8 :: []) ∧
    ((0xD7#8).toNat ≤ 0xD7 ∧ windowBytes (stream [0xFF, 0xFF, 0xD7]).ecs (stream [0xFF, 0xFF, 0xD7]).bs =
      List.replicate (1 + 1) 0xFF#8 ++ 0xD7#8 :: []) ∧
    (¬ (0xD0 ≤ (0xCF#8).toNat) ∧ windowBytes (stream [0xFF, 0xCF]).ecs (stream [0xFF, 0xCF]).bs =
      List.replicate (0 + 1) 0xFF#8 ++ 0xCF#8 :: []) ∧
    (¬ ((0xD8#8).toNat ≤ 0xD7) ∧ windowBytes (stream [0xFF, 0xD8]).ecs (stream [0xFF, 0xD8]).bs =
      List.replicate (0 + 1) 0xFF#8 ++ 0xD8#8 :: []) ∧
    windowBytes (stream []).ecs (stream []).bs = List.replicate 0 0xFF#8 ∧
    windowBytes (stream [0x12]).ecs (stream [0x12]).bs = 0x12#8 :: [] ∧
    windowBytes (stream [0xFF, 0x00]).ecs (stream [0xFF, 0x00]).bs = List.replicate (0 + 1) 0xFF#8 ++ 0x00#8 :: [] := by
  decide +kernel

/-- The faults that end the seven commands of R222 that can raise one, each from a state with none recorded. They are
the hypotheses of both statements about such commands. -/
theorem witness_faulting :
    gives (exec (.htBuild 0) { blank with htc := blank.htc.set 0 (counts [3]) }) (fun t => t.fault) = true ∧
    gives (exec .bsInit { blank with ecsStart := 0xFFFFFFFF#32 }) (fun t => t.fault) = true ∧
    gives (exec (.bsRead 1) (stream [])) (fun t => t.fault) = true ∧
    gives (exec (.hufDecode 0) blank) (fun t => t.fault) = true ∧
    gives (exec (.hufDecode 0) (setB (stream []))) (fun t => t.fault) = true ∧
    gives (exec (.duDecode 0 0 0 false) blank) (fun t => t.fault) = true ∧
    gives (exec (.duDecode 0 0 0 false) (setC (stream [0x00, 0x7F]))) (fun t => t.fault) = true ∧
    gives (exec .bsRestart (stream [0x12])) (fun t => t.fault) = true ∧
    gives (exec (.dequant 0) blank) (fun t => t.fault) = true := by decide +kernel

theorem witness_CommandsRaiseOnlyTheirFaults :
    ∃ t, (Instr.bsRead 1).wellFormed = true ∧ (stream []).fault = false ∧ exec (.bsRead 1) (stream []) = .next t ∧
      t.fault = true := by
  obtain ⟨t, h, ht⟩ := of_gives witness_faulting.2.2.1
  exact ⟨t, by decide, rfl, h, ht⟩

theorem witness_FaultLeavesStateOfTable :
    ∃ t, (Instr.bsRestart).wellFormed = true ∧ (stream [0x12]).fault = false ∧ exec .bsRestart (stream [0x12]) = .next t ∧
      t.fault = true := by
  obtain ⟨t, h, ht⟩ := of_gives witness_faulting.2.2.2.2.2.2.2.1
  exact ⟨t, by decide, rfl, h, ht⟩

/-- With a fault recorded: a blocked command, BS_INIT, and reset. -/
theorem witness_OnlyBsInitOrResetClearsFault :
    let s : State := { busyWith 0x41#32 [] with fault := true, fcode := 7#8 }
    s.fault = true ∧ gives (step s) (fun t => t.fault) = true ∧
    gives (step { s with cmdLatch := 0x20#32 }) (fun t => !t.fault) = true ∧
    gives (step { s with pending := [.reset] }) (fun t => !t.fault) = true := by decide +kernel

/-- Every command answers a next state somewhere. -/
theorem witness_CommandsLeaveHostStorage :
    [.nop, .htBuild 0, .qtSet 0 .eight, .bsInit, .bsRead 4, .bsAlign, .bsPeek, .hufDecode 0, .duDecode 0 0 0 false,
      .predReset, .bsRestart, .dequant 0, .idct].all
      (fun i => gives (exec i (setB (stream [0x93, 0x53, 0xC2, 0x80]))) (fun t => !t.busy)) = true := by
  decide +kernel

/-- The five commands that write RESULT change it somewhere. -/
theorem witness_ResultWrittenByFiveCommands :
    gives (exec (.bsRead 4) (stream [0xA5])) (fun t => t.result != 0#32) = true ∧
    gives (exec .bsPeek (stream [])) (fun t => t.result != 0#32) = true ∧
    gives (exec (.hufDecode 0) (setB (stream [0x93]))) (fun t => t.result != 0#32) = true ∧
    gives (exec (.duDecode 0 0 0 false) (setC (stream [0x3F]))) (fun t => t.result != 0#32) = true ∧
    gives (exec .bsRestart (stream [])) (fun t => t.result != 0#32) = true := by decide +kernel

/-- The four commands that write a predictor change it somewhere. -/
theorem witness_PredictorsWrittenByTheirCommands :
    let p := Vector.replicate 4 9#16
    gives (exec (.duDecode 2 0 0 true) (setB (stream [0x93]))) (fun t => t.pred[2] != 0#16) = true ∧
    gives (exec .bsInit { blank with pred := p }) (fun t => t.pred[3] != 9#16) = true ∧
    gives (exec .predReset { blank with pred := p }) (fun t => t.pred[3] != 9#16) = true ∧
    gives (exec .bsRestart { stream [0xFF, 0xD0] with pred := p }) (fun t => t.pred[3] != 9#16) = true := by decide +kernel

/-- BS_END changes at reset and at BS_INIT. -/
theorem witness_WindowEndChangesOnlyAtBsInit :
    gives (step { stream [1] with pending := [.reset] }) (fun t => t.bs.stop != 1#32) = true ∧
    gives (step { stream [1] with busy := true, cmdLatch := 0x20#32 }) (fun t => t.bs.stop != 1#32) = true := by
  decide +kernel

/-- A validity bit changes at reset, at a host write to its table (the first and the last word of its range), at a build
that succeeds and at one that fails, and at QT_SET. -/
theorem witness_ValidityBitsFollowTables :
    let s : State := { setB blank with qtv := Vector.replicate 4 true }
    gives (step { s with pending := [.reset] }) (fun t => !t.htv[0] && !t.qtv[0]) = true ∧
    gives (step { s with pending := [.write 32 0x1010 0#32] }) (fun t => !t.htv[1] && t.htv[0]) = true ∧
    gives (step { s with pending := [.write 32 0x101C 0#32] }) (fun t => !t.htv[1] && t.htv[0]) = true ∧
    gives (step { s with pending := [.write 32 0x1900 0#32] }) (fun t => !t.htv[1] && t.htv[0]) = true ∧
    gives (step { s with pending := [.write 32 0x19FC 0#32] }) (fun t => !t.htv[1] && t.htv[0]) = true ∧
    gives (step { s with pending := [.write 32 0x2080 0#32] }) (fun t => !t.qtv[1] && t.qtv[0]) = true ∧
    gives (step { s with pending := [.write 32 0x20FC 0#32] }) (fun t => !t.qtv[1] && t.qtv[0]) = true ∧
    gives (step (busyWith 0x10#32 [])) (fun t => t.htv[0] && !t.fault) = true ∧
    gives (step { busyWith 0x10#32 [] with htv := Vector.replicate 8 true, htc := blank.htc.set 0 (counts [3]) })
      (fun t => !t.htv[0] && t.fault) = true ∧
    gives (step (busyWith 0x11#32 [])) (fun t => t.qtv[0]) = true := by decide +kernel

/-- A warning is set by BS_RESTART and cleared by BS_INIT and reset. -/
theorem witness_WarningsAreSticky :
    gives (step { stream [0xFF, 0xD5] with busy := true, cmdLatch := 0x33#32 }) (fun t => t.seqwarn && !t.eos) = true ∧
    gives (step { stream [] with busy := true, cmdLatch := 0x33#32 }) (fun t => t.eos) = true ∧
    gives (step { busyWith 0x20#32 [] with eos := true, seqwarn := true }) (fun t => !t.eos && !t.seqwarn) = true ∧
    gives (step { blank with eos := true, pending := [.reset] }) (fun t => !t.eos) = true := by decide +kernel

theorem witness_ResetSetsRegisters :
    (busyWith 0x41#32 [.reset, .engine]).pending = .reset :: [.engine] := rfl

/-- Reads of the first and the last register offset. -/
theorem witness_HostReadsRegisters :
    ({ blank with pending := [.read 32 0x000] } : State).busy = false ∧
    ({ blank with pending := [.read 32 0x000] } : State).pending = .read 32 0x000 :: [] ∧
    ({ blank with pending := [.read 32 0xFFC] } : State).pending = .read 32 0xFFC :: [] ∧ 0x000 % 4 = 0 ∧ 0xFFC % 4 = 0 ∧
    0xFFC < 0x1000 ∧ 0x04C = 0x040 + 4 * (3 : Fin 4).val := ⟨rfl, rfl, rfl, by decide⟩

/-- The last word of each storage, and the first unmapped offset after each. -/
theorem witness_HostReadsStorages :
    (∀ off, ({ blank with pending := [.read 32 off] } : State).busy = false ∧
      ({ blank with pending := [.read 32 off] } : State).pending = .read 32 off :: []) ∧
    0x107C = 0x1000 + 16 * (7 : Fin 8).val + 4 * (3 : Fin 4).val ∧
    0x1FFC = 0x1800 + 256 * (7 : Fin 8).val + 4 * (63 : Fin 64).val ∧
    0x21FC = 0x2000 + 128 * (3 : Fin 4).val + 4 * (31 : Fin 32).val ∧
    0x30FC = 0x3000 + 4 * (63 : Fin 64).val ∧ 0x31FC = 0x3100 + 4 * (63 : Fin 64).val ∧
    0x323C = 0x3200 + 4 * (15 : Fin 16).val ∧
    (0x1FFFC < 0x10000 + blank.ecs.size ∧ 0x1FFFC % 4 = 0) ∧
    (0x1080 ≤ 0x1080 ∧ 0x1080 < 0x1800) ∧ (0x2200 ≤ 0x2FFC ∧ 0x2FFC < 0x3000) ∧ (0x3240 ≤ 0xFFFC ∧ 0xFFFC < 0x10000) :=
  ⟨fun _ => ⟨rfl, rfl⟩, by decide +kernel⟩

theorem witness_HostReadHasNoSideEffect :
    ∃ t, ({ blank with pending := [.read 32 0x3000] } : State).pending = .read 32 0x3000 :: [] ∧
      step { blank with pending := [.read 32 0x3000] } = .next t := by
  obtain ⟨t, h, -⟩ := of_gives (o := step { blank with pending := [.read 32 0x3000] }) (p := fun _ => true)
    (by decide +kernel)
  exact ⟨t, rfl, h⟩

/-- STATUS, and the last word of the window, while a command is in flight. -/
theorem witness_AccessWhileBusy :
    (busyWith 0#32 [.read 32 0x00C]).busy = true ∧ (busyWith 0#32 [.read 32 0x00C]).pending = .read 32 0x00C :: [] ∧
    (busyWith 0#32 [.write 32 0x1FFFC 0#32]).pending = .write 32 0x1FFFC 0#32 :: [] ∧ 0x00C % 4 = 0 ∧ 0x1FFFC % 4 = 0 ∧
    0x1FFFC < 0x10000 + (busyWith 0#32 [.write 32 0x1FFFC 0#32]).ecs.size := by decide +kernel

/-- Every host write of the four statements can be scheduled; and the ends of the ranges of the ignored offsets. -/
theorem witness_HostWritesRegisters :
    (∀ off v, ({ blank with pending := [.write 32 off v] } : State).busy = false ∧
      ({ blank with pending := [.write 32 off v] } : State).pending = .write 32 off v :: []) ∧
    (0x024 % 4 = 0 ∧ 0x024 ≤ 0x024 ∧ 0x024 < 0x1000) ∧ (0xFFC % 4 = 0 ∧ 0x024 ≤ 0xFFC ∧ 0xFFC < 0x1000) ∧
    (0x1080 ≤ 0x17FC ∧ 0x17FC < 0x1800) ∧ (0x2200 ≤ 0x2200 ∧ 0x2200 < 0x3000) ∧ (0x3200 ≤ 0xFFFC ∧ 0xFFFC < 0x10000) :=
  ⟨fun _ _ => ⟨rfl, rfl⟩, by decide⟩

theorem witness_HostWritesTables :
    ({ blank with pending := [.write 32 (0x1000 + 16 * (7 : Fin 8).val + 4 * (3 : Fin 4).val) 1#32] } : State).busy = false ∧
    ({ blank with pending := [.write 32 (0x1000 + 16 * (7 : Fin 8).val + 4 * (3 : Fin 4).val) 1#32] } : State).pending =
      .write 32 (0x1000 + 16 * (7 : Fin 8).val + 4 * (3 : Fin 4).val) 1#32 :: [] ∧
    ({ blank with pending := [.write 32 (0x1800 + 256 * (7 : Fin 8).val + 4 * (63 : Fin 64).val) 1#32] } : State).pending =
      .write 32 (0x1800 + 256 * (7 : Fin 8).val + 4 * (63 : Fin 64).val) 1#32 :: [] ∧
    ({ blank with pending := [.write 32 (0x2000 + 128 * (3 : Fin 4).val + 4 * (31 : Fin 32).val) 1#32] } : State).pending =
      .write 32 (0x2000 + 128 * (3 : Fin 4).val + 4 * (31 : Fin 32).val) 1#32 :: [] := ⟨rfl, rfl, rfl, rfl⟩

theorem witness_HostWritesBuffers :
    ({ blank with pending := [.write 32 (0x3000 + 4 * (63 : Fin 64).val) 1#32] } : State).busy = false ∧
    ({ blank with pending := [.write 32 (0x3000 + 4 * (63 : Fin 64).val) 1#32] } : State).pending =
      .write 32 (0x3000 + 4 * (63 : Fin 64).val) 1#32 :: [] ∧
    ({ blank with pending := [.write 32 (0x3100 + 4 * (63 : Fin 64).val) 1#32] } : State).pending =
      .write 32 (0x3100 + 4 * (63 : Fin 64).val) 1#32 :: [] := ⟨rfl, rfl, rfl⟩

/-- The last word of the buffer. -/
theorem witness_HostWritesEcsBuffer :
    let s : State := { stream [0x3F] with pending := [.write 32 (0x10000 + 0xFFFC) 1#32] }
    s.busy = false ∧ s.ecs.wf = true ∧ 0xFFFC % 4 = 0 ∧ 0xFFFC < s.ecs.size ∧
      s.pending = .write 32 (0x10000 + 0xFFFC) 1#32 :: [] := by decide +kernel

end Sys2Proof.Machine.Tests
end

/-! ### O10: what every step keeps

The proof goes through four layers: the stream functions only move the bit source on (`BitSource.After`); the update
rules of the invariant, one for each group of fields it reads; one lemma for each command and each host write; and the
step, by whose turn it is. -/

namespace Sys2Proof.Machine

/-! #### The stream functions move the bit source on -/

theorem readBit_after {m : Memory} {b b' : BitSource} {bit : Bool} (h : b.Good m) (hr : readBit m b = .ok (bit, b')) :
    b.After m b' 1 := by
  rcases readBit_spec m b h with ⟨-, e⟩ | ⟨_, _, e, -, ha⟩
  · rw [e] at hr; cases hr
  · rw [e] at hr; cases hr; exact ha

theorem readBits_after {m : Memory} {b b' : BitSource} {n v : Nat} (h : b.Good m) (hr : readBits m n b = .ok (v, b')) :
    b.After m b' n := by
  have hs := readBits_spec m n b h
  split at hs
  · obtain ⟨_, e, -, ha⟩ := hs
    rw [e] at hr; cases hr; exact ha
  · rw [hs] at hr; cases hr

/-- No condition on the table: that its codes fit decides which symbol a walk answers, not that each bit it reads moves
the bit source on. -/
theorem walkFrom_after {m : Memory} {table : List CodeEntry} {fuel l c : Nat} {b b' : BitSource} {sym : Byte}
    (h : b.Good m) (hr : walkFrom m table fuel l c b = .ok (sym, b')) : ∃ n, b.After m b' n := by
  induction fuel generalizing l c b with
  | zero => cases hr
  | succ fuel ih =>
    unfold walkFrom at hr
    split at hr
    · cases hr
    · next bit b1 hb =>
      have h1 := readBit_after h hb
      split at hr
      · cases hr; exact ⟨1, h1⟩
      · split at hr
        · obtain ⟨n, hn⟩ := ih h1.good hr
          exact ⟨1 + n, h1.trans hn⟩
        · cases hr

theorem hufWalk_after {m : Memory} {table : List CodeEntry} {b b' : BitSource} {sym : Byte} (h : b.Good m)
    (hr : hufWalk m table b = .ok (sym, b')) : ∃ n, b.After m b' n :=
  walkFrom_after h hr

theorem readMagnitude_after {m : Memory} {b b' : BitSource} {n v : Nat} (h : b.Good m)
    (hr : readMagnitude m n b = .ok (v, b')) : b.After m b' n := by
  unfold readMagnitude at hr
  split at hr
  · next h0 => cases hr; rw [h0]; exact .refl h
  · exact readBits_after h hr

theorem dcPath_after {m : Memory} {table : List CodeEntry} {lim : Nat} {b b' : BitSource} {diff : Int} (h : b.Good m)
    (hr : dcPath m table lim b = .ok (diff, b')) : ∃ n, b.After m b' n := by
  unfold dcPath at hr
  split at hr
  · cases hr
  · next sym b1 hw =>
    obtain ⟨n, h1⟩ := hufWalk_after h hw
    split at hr
    · cases hr
    · split at hr
      · cases hr
      · next v b2 hm => cases hr; exact ⟨_, h1.trans (readMagnitude_after h1.good hm)⟩

theorem acLoop_after {m : Memory} {table : List CodeEntry} {lim fuel k : Nat} {du du' : Vector Half 64}
    {b b' : BitSource} (h : b.Good m) (hr : acLoop m table lim fuel k du b = .ok (du', b')) : ∃ n, b.After m b' n := by
  induction fuel generalizing k du b with
  | zero => cases hr; exact ⟨0, .refl h⟩
  | succ fuel ih =>
    unfold acLoop at hr
    split at hr
    · cases hr; exact ⟨0, .refl h⟩
    · split at hr
      · cases hr
      · next rs b1 hw =>
        obtain ⟨n, h1⟩ := hufWalk_after h hw
        split at hr
        · cases hr; exact ⟨n, h1⟩
        · obtain ⟨n', h2⟩ := ih h1.good hr
          exact ⟨_, h1.trans h2⟩
        · cases hr
        · split at hr
          · cases hr
          · next hb =>
            have h2 := readBits_after h1.good hb
            obtain ⟨n', h3⟩ := ih h2.good hr
            exact ⟨_, (h1.trans h2).trans h3⟩

theorem decodeUnit_after {s : State} {pred dct act : Fin 4} {dcOnly : Bool} {p : Half} {du : Vector Half 64}
    {b : BitSource} (h : s.bs.Good s.ecs) (hr : decodeUnit s pred dct act dcOnly = .ok (p, du, b)) :
    ∃ n, s.bs.After s.ecs b n := by
  unfold decodeUnit at hr
  split at hr
  · cases hr
  · next diff b1 hd =>
    obtain ⟨n, h1⟩ := dcPath_after h hd
    dsimp only at hr
    split at hr
    · cases hr; exact ⟨n, h1⟩
    · split at hr
      · cases hr
      · next hac =>
        cases hr
        obtain ⟨n', h2⟩ := acLoop_after h1.good hac
        exact ⟨_, h1.trans h2⟩

/-- A marker found lies inside the window (R111). -/
theorem scanAtPos_marker {m : Memory} {b : BitSource} {x : Byte} {p q : Nat} (hw : b.stop.toNat ≤ m.size)
    (hp : b.pos.toNat ≤ b.stop.toNat) (h : scanAtPos m b = .ok (.marker x p q)) : q ≤ b.stop.toNat := by
  unfold scanAtPos at h
  rcases scanFrom_spec m (b.stop.toNat - b.pos.toNat) b.pos.toNat (by omega) with
    ⟨_, _, e, -⟩ | ⟨_, _, e, -, hq, -⟩ | ⟨e, -⟩
  · rw [e] at h; cases h
  · rw [e] at h; cases h; omega
  · rw [e] at h; cases h

/-! #### Which command runs while a fault is recorded (R102) -/

/-- Each row of the map builds commands of its own OPC (R89). -/
theorem opcodeOf_row : ∀ r ∈ opcodeMap, ∀ w, Laws.Encoding.opcode (r.build w) = opcodeOf r.value := by
  simp [opcodeMap, Laws.Encoding.opcode, opcodeOf]

/-- OPC of a legal word is the OPC of the command it selects (R81, R89). -/
theorem opcodeOf_of_decode {w : Word} {i : Instr} (h : decode w = .ok i) : opcodeOf w = Laws.Encoding.opcode i := by
  obtain ⟨r, hr, hm, -, rfl⟩ := (decode_iff w i).1 h
  rw [opcodeOf_row r hr, ← row_low hr hm]
  simp only [opcodeOf, BitVec.setWidth_and]
  exact (BitVec.and_allOnes).symm

/-- The engine performs a command with no fault recorded, or NOP or BS_INIT (R102). -/
theorem runs_cases {s : State} {i : Instr} (hb : blocked s = false) (hd : decode s.cmdLatch = .ok i) :
    s.fault = false ∨ i = .nop ∨ i = .bsInit := by
  have hn : ¬ (s.fault = true ∧ opcodeOf s.cmdLatch ≠ 0x00#8 ∧ opcodeOf s.cmdLatch ≠ 0x20#8) := by
    rw [← blocked_iff, hb]; decide
  rw [opcodeOf_of_decode hd] at hn
  cases hf : s.fault with
  | false => exact .inl rfl
  | true =>
    right
    by_contra hi
    exact hn ⟨hf, by cases i <;> simp_all [Laws.Encoding.opcode]⟩

/-! #### What the five stream commands can do -/

theorem endStream_cases {e : StreamStop} {s t : State} (h : endStream e s = .next t) :
    ∃ k, e = .raise k ∧ t = streamFault k s := by
  cases e with
  | raise k => cases h; exact ⟨k, rfl, rfl⟩
  | outside => cases h

theorem endUnit_cases {e : StreamStop} {p : Fin 4} {s t : State} (h : endUnit e p s = .next t) :
    ∃ k, e = .raise k ∧ t = duFault k p s := by
  cases e with
  | raise k => cases h; exact ⟨k, rfl, rfl⟩
  | outside => cases h

theorem execBsRead_cases {n : Fin 32} {s t : State} (h : execBsRead n s = .next t) :
    (∃ v b, readBits s.ecs n.val s.bs = .ok (v, b) ∧ t = { s with bs := b, result := BitVec.ofNat 32 v }) ∨
    (∃ k, readBits s.ecs n.val s.bs = .error (.raise k) ∧ t = streamFault k s) ∨
    (¬ (1 ≤ n.val ∧ n.val ≤ 16) ∧ t = raise .illegalCommand s.bs.pos s) := by
  unfold execBsRead at h
  split at h
  · split at h
    · next hr => cases h; exact .inl ⟨_, _, hr, rfl⟩
    · next hr =>
      obtain ⟨k, rfl, rfl⟩ := endStream_cases h
      exact .inr (.inl ⟨k, hr, rfl⟩)
  · next hn => cases h; exact .inr (.inr ⟨hn, rfl⟩)

theorem execBsPeek_cases {s t : State} (h : execBsPeek s = .next t) :
    (∃ r, scanAtPos s.ecs s.bs = .ok r ∧ t = { s with result := peekResult r }) ∨
    (∃ k, scanAtPos s.ecs s.bs = .error (.raise k) ∧ t = streamFault k s) := by
  unfold execBsPeek at h
  split at h
  · next hr => cases h; exact .inl ⟨_, hr, rfl⟩
  · next hr =>
    obtain ⟨k, rfl, rfl⟩ := endStream_cases h
    exact .inr ⟨k, hr, rfl⟩

theorem execHufDecode_cases {slot : Fin 8} {s t : State} (h : execHufDecode slot s = .next t) :
    (s.htv[slot] = false ∧ t = raise .tableMissing s.bs.pos s) ∨
    (s.htv[slot] = true ∧ ∃ sym b, hufWalk s.ecs (slotCode s slot) s.bs = .ok (sym, b) ∧
      t = { s with bs := b, result := sym.setWidth 32 }) ∨
    (s.htv[slot] = true ∧ ∃ k, hufWalk s.ecs (slotCode s slot) s.bs = .error (.raise k) ∧ t = streamFault k s) := by
  unfold execHufDecode at h
  split at h
  · next hv => cases h; exact .inl ⟨hv, rfl⟩
  · next hv =>
    have hv := Bool.eq_true_of_not_eq_false hv
    split at h
    · next hr => cases h; exact .inr (.inl ⟨hv, _, _, hr, rfl⟩)
    · next hr =>
      obtain ⟨k, rfl, rfl⟩ := endStream_cases h
      exact .inr (.inr ⟨hv, k, hr, rfl⟩)

theorem execDuDecode_cases {pred dct act : Fin 4} {dcOnly : Bool} {s t : State}
    (h : execDuDecode pred dct act dcOnly s = .next t) :
    (tablesReady s dct act dcOnly = false ∧ t = raise .tableMissing s.bs.pos s) ∨
    (tablesReady s dct act dcOnly = true ∧ ∃ p du b, decodeUnit s pred dct act dcOnly = .ok (p, du, b) ∧
      t = { s with pred := s.pred.set pred.val p, du := du, bs := b, result := b.bitcnt - s.bs.bitcnt }) ∨
    (tablesReady s dct act dcOnly = true ∧ ∃ k, decodeUnit s pred dct act dcOnly = .error (.raise k) ∧
      t = duFault k pred s) := by
  unfold execDuDecode at h
  split at h
  · next hv =>
    split at h
    · next hr => cases h; exact .inr (.inl ⟨hv, _, _, _, hr, rfl⟩)
    · next hr =>
      obtain ⟨k, rfl, rfl⟩ := endUnit_cases h
      exact .inr (.inr ⟨hv, k, hr, rfl⟩)
  · next hv => cases h; exact .inl ⟨Bool.eq_false_of_not_eq_true hv, rfl⟩

/-- BS_RESTART's state after the alignment (R197). -/
def aligned (s : State) : State := { s with bs := { s.bs with nbits := 0#4 } }

theorem execBsRestart_cases {s t : State} (h : execBsRestart s = .next t) :
    (∃ r, scanAtPos s.ecs (aligned s).bs = .ok r ∧ t = restartOn r (aligned s)) ∨
    (∃ k, scanAtPos s.ecs (aligned s).bs = .error (.raise k) ∧ t = streamFault k s) := by
  unfold execBsRestart at h
  dsimp only at h
  split at h
  · next hr => cases h; exact .inl ⟨_, hr, rfl⟩
  · next hr =>
    obtain ⟨k, rfl, rfl⟩ := endStream_cases h
    exact .inr ⟨k, hr, rfl⟩

/-! #### How the invariant is kept by an update -/

/-- The fields that the invariant reads; a state that agrees on them keeps it (`State.Inv.congr`). -/
def State.watched (s : State) :=
  (s.ecs, s.bs, (s.fault, s.fcode, s.finfo, s.fpos), (s.htv, s.htc), s.qtv, s.qtp, s.qte)

namespace State.Inv

theorem congr {s t : State} (h : s.Inv) (e : t.watched = s.watched) : t.Inv := by
  cases s; cases t; cases e
  exact ⟨h.ecsCanonical, h.windowInBuffer, h.posInWindow, h.bufferedBits, h.noRecord, h.recordedCode, h.builtTables,
    h.committedTables⟩

variable {s : State}

theorem withEcs (h : s.Inv) {m : Memory} (hm : m.wf = true) (hsize : m.size = s.ecs.size) :
    ({ s with ecs := m } : State).Inv :=
  { h with ecsCanonical := hm, windowInBuffer := hsize ▸ h.windowInBuffer }

theorem withBs (h : s.Inv) {b : BitSource} (hstop : b.stop.toNat ≤ s.ecs.size)
    (hpos : s.fault = false → b.pos.toNat ≤ b.stop.toNat) (hbits : s.fault = false → b.nbits.toNat ≤ 7) :
    ({ s with bs := b } : State).Inv :=
  { h with windowInBuffer := hstop, posInWindow := hpos, bufferedBits := hbits }

/-- With a fault recorded the cursor and the buffered bits are free (R30, R227). -/
theorem recorded (h : s.Inv) (k : FaultKind) (finfo : Byte) (fpos : Word) :
    ({ s with fault := true, fcode := k.code, finfo := finfo, fpos := fpos } : State).Inv :=
  { h with
    posInWindow := nofun, bufferedBits := nofun, noRecord := nofun, recordedCode := fun _ => ⟨k, rfl⟩ }

/-- A slot may be rewritten; it is valid only where its counts are well-formed (R143). -/
theorem withSlot (h : s.Inv) (slot : Fin 8) {row : Vector Byte 16} {v : Bool}
    (hv : v = true → malformedTable row = false) :
    ({ s with htc := s.htc.set slot.val row, htv := s.htv.set slot.val v } : State).Inv :=
  { h with
    builtTables := fun i hi => by
      by_cases he : slot.val = i.val
      · simp only [Fin.getElem_fin, Vector.getElem_set, if_pos he] at hi ⊢
        exact hv hi
      · simp only [Fin.getElem_fin, Vector.getElem_set, if_neg he] at hi ⊢
        exact h.builtTables i hi }

/-- A table may be rewritten; at 8-bit precision it is valid only where its entries are below 256 (R163). -/
theorem withTable (h : s.Inv) (qt : Fin 4) {q : Vector Half 64} {p : Precision} {v : Bool}
    (hv : v = true → p = .eight → ∀ k : Fin 64, q[k].toNat ≤ 255) :
    ({ s with
      qte := s.qte.set qt.val q, qtp := s.qtp.set qt.val p, qtv := s.qtv.set qt.val v } : State).Inv :=
  { h with
    committedTables := fun i hi hp => by
      by_cases he : qt.val = i.val
      · simp only [Fin.getElem_fin, Vector.getElem_set, if_pos he] at hi hp ⊢
        exact hv hi hp
      · simp only [Fin.getElem_fin, Vector.getElem_set, if_neg he] at hi hp ⊢
        exact h.committedTables i hi hp }

/-- The bit source of a state without a fault fits the rules on the stream functions. -/
theorem good (h : s.Inv) (hf : s.fault = false) : s.bs.Good s.ecs :=
  ⟨h.windowInBuffer, (h.bufferedBits hf).trans (by decide)⟩

theorem withBsAfter (h : s.Inv) (hf : s.fault = false) {b : BitSource} {n : Nat} (ha : s.bs.After s.ecs b n) :
    ({ s with bs := b } : State).Inv :=
  h.withBs ha.good.window (fun _ => ha.pos (h.posInWindow hf)) fun _ => ha.buffered (.inr (h.bufferedBits hf))

theorem raise (h : s.Inv) (k : FaultKind) (s0 : Word) : (raise k s0 s).Inv := by
  cases hf : s.fault with
  | true => rwa [raise_kept k s0 hf]
  | false => rw [raise_first k s0 hf]; exact h.recorded k _ _

theorem streamFault (h : s.Inv) (k : FaultKind) : (streamFault k s).Inv :=
  ((h.raise k s.bs.pos).withBs (b := (Machine.streamFault k s).bs) (by simpa using h.windowInBuffer) (by simp)
    (by simp)).congr rfl

theorem duFault (h : s.Inv) (k : FaultKind) (p : Fin 4) : (duFault k p s).Inv := (h.streamFault k).congr rfl

theorem setHtv (h : s.Inv) (slot : Fin 8) (v : Bool) (hv : v = true → malformedTable s.htc[slot] = false) :
    (setHtv slot v s).Inv :=
  (h.withSlot slot hv).congr (by simp [watched])

end State.Inv

/-! #### Commands -/

theorem execHtBuild_inv {slot : Fin 8} {s t : State} (h : s.Inv) (hx : execHtBuild slot s = .next t) : t.Inv := by
  cases hx
  split
  · exact (h.setHtv slot false nofun).raise _ _
  · next hm => exact h.setHtv slot true fun _ => Bool.eq_false_of_not_eq_true hm

/-- Entries committed at 8-bit precision are bytes (R163). -/
theorem committed_eight_le (q : Vector Half 64) (k : Fin 64) : (committed .eight q)[k].toNat ≤ 255 := by
  simp only [committed, Fin.getElem_fin, Vector.getElem_map, BitVec.toNat_and]
  exact Nat.and_le_right

theorem execQtSet_inv {qt : Fin 4} {prec : Precision} {s t : State} (h : s.Inv) (hx : execQtSet qt prec s = .next t) :
    t.Inv := by
  cases hx
  exact h.withTable qt fun _ hp k => by subst hp; exact committed_eight_le _ k

/-- BS_INIT's clearing, with a window in the buffer that starts empty of bits (R114, R230). -/
theorem initialised_inv {s : State} (h : s.Inv) {b : BitSource} (hstop : b.stop.toNat ≤ s.ecs.size)
    (hpos : b.pos.toNat ≤ b.stop.toNat) (hbits : b.nbits.toNat ≤ 7) : (initialised b s).Inv :=
  { h with
    windowInBuffer := hstop, posInWindow := fun _ => hpos, bufferedBits := fun _ => hbits,
    noRecord := fun _ => ⟨rfl, rfl, rfl⟩, recordedCode := nofun }

theorem execBsInit_inv {s t : State} (h : s.Inv) (hx : execBsInit s = .next t) : t.Inv := by
  cases hx
  split
  · next hw =>
    have hend := windowEnd_toNat hw
    rw [windowFits_iff] at hw
    exact initialised_inv h (by simp only [hend]; exact hw) (by simp only [hend]; omega) (Nat.zero_le _)
  · exact (initialised_inv h (Nat.zero_le _) le_rfl (by decide)).raise _ _

theorem execBsRead_inv {n : Fin 32} {s t : State} (h : s.Inv) (hf : s.fault = false) (hx : execBsRead n s = .next t) :
    t.Inv := by
  rcases execBsRead_cases hx with ⟨v, b, hr, rfl⟩ | ⟨k, -, rfl⟩ | ⟨-, rfl⟩
  · exact (h.withBsAfter hf (readBits_after (h.good hf) hr)).congr rfl
  · exact h.streamFault k
  · exact h.raise _ _

theorem aligned_inv {s : State} (h : s.Inv) : (aligned s).Inv :=
  h.withBs h.windowInBuffer h.posInWindow fun _ => Nat.zero_le _

theorem execBsPeek_inv {s t : State} (h : s.Inv) (hx : execBsPeek s = .next t) : t.Inv := by
  rcases execBsPeek_cases hx with ⟨r, -, rfl⟩ | ⟨k, -, rfl⟩
  · exact h.congr rfl
  · exact h.streamFault k

theorem execHufDecode_inv {slot : Fin 8} {s t : State} (h : s.Inv) (hf : s.fault = false)
    (hx : execHufDecode slot s = .next t) : t.Inv := by
  rcases execHufDecode_cases hx with ⟨-, rfl⟩ | ⟨-, sym, b, hr, rfl⟩ | ⟨-, k, -, rfl⟩
  · exact h.raise _ _
  · obtain ⟨n, ha⟩ := hufWalk_after (h.good hf) hr
    exact (h.withBsAfter hf ha).congr rfl
  · exact h.streamFault k

theorem execDuDecode_inv {pred dct act : Fin 4} {dcOnly : Bool} {s t : State} (h : s.Inv) (hf : s.fault = false)
    (hx : execDuDecode pred dct act dcOnly s = .next t) : t.Inv := by
  rcases execDuDecode_cases hx with ⟨-, rfl⟩ | ⟨-, p, du, b, hr, rfl⟩ | ⟨-, k, -, rfl⟩
  · exact h.raise _ _
  · obtain ⟨n, ha⟩ := decodeUnit_after (h.good hf) hr
    exact (h.withBsAfter hf ha).congr rfl
  · exact h.duFault k pred

/-- A restart marker moves BS_POS just past it, which is inside the window (R197). -/
theorem restartOn_inv {r : Scan} {s : State} (h : s.Inv) (hr : scanAtPos s.ecs s.bs = .ok r) : (restartOn r s).Inv := by
  cases r with
  | data b q => exact h.raise _ _
  | endOfWindow => exact h.congr rfl
  | marker x p q =>
    simp only [restartOn]
    split
    · refine (h.withBs (b := { s.bs with pos := BitVec.ofNat 32 q }) h.windowInBuffer (fun hf => ?_)
        h.bufferedBits).congr rfl
      have hq := scanAtPos_marker h.windowInBuffer (h.posInWindow hf) hr
      exact (BitVec.toNat_ofNat q 32 ▸ Nat.mod_le q _).trans hq
    · exact h.congr rfl

theorem execBsRestart_inv {s t : State} (h : s.Inv) (hx : execBsRestart s = .next t) : t.Inv := by
  rcases execBsRestart_cases hx with ⟨r, hr, rfl⟩ | ⟨k, -, rfl⟩
  · exact restartOn_inv (aligned_inv h) hr
  · exact h.streamFault k

theorem execDequant_inv {qt : Fin 4} {s t : State} (h : s.Inv) (hx : execDequant qt s = .next t) : t.Inv := by
  cases hx
  split
  · exact h.congr (by simp only [State.watched])
  · exact h.raise _ _

/-- Every command keeps the invariant where the engine performs it: with no fault recorded, or NOP or BS_INIT (R102). -/
theorem exec_inv {i : Instr} {s t : State} (h : s.Inv) (hrun : s.fault = false ∨ i = .nop ∨ i = .bsInit)
    (hx : exec i s = .next t) : t.Inv := by
  have hf (hn : i ≠ .nop) (hi : i ≠ .bsInit) : s.fault = false := by simpa [hn, hi] using hrun
  cases i with
  | nop => cases hx; exact h
  | htBuild slot => exact execHtBuild_inv h hx
  | qtSet qt prec => exact execQtSet_inv h hx
  | bsInit => exact execBsInit_inv h hx
  | bsRead n => exact execBsRead_inv h (hf nofun nofun) hx
  | bsAlign => cases hx; exact aligned_inv h
  | bsPeek => exact execBsPeek_inv h hx
  | hufDecode slot => exact execHufDecode_inv h (hf nofun nofun) hx
  | duDecode pred dct act dcOnly => exact execDuDecode_inv h (hf nofun nofun) hx
  | predReset => cases hx; exact h.congr rfl
  | bsRestart => exact execBsRestart_inv h hx
  | dequant qt => exact execDequant_inv h hx
  | idct => cases hx; exact h.congr (by simp only [State.watched])

@[simp] theorem initialised_ecs (b : BitSource) (s : State) : (initialised b s).ecs = s.ecs := rfl

@[simp] theorem restartOn_ecs (r : Scan) (s : State) : (restartOn r s).ecs = s.ecs := by
  cases r with
  | data b q => exact raise_ecs _ _ _
  | endOfWindow => rfl
  | marker x p q => simp only [restartOn]; split <;> rfl

/-- No command writes the ECS buffer (R64). -/
theorem exec_ecs {i : Instr} {s t : State} (hx : exec i s = .next t) : t.ecs = s.ecs := by
  cases i with
  | nop => cases hx; rfl
  | htBuild slot => cases hx; split <;> simp
  | qtSet qt prec => cases hx; rfl
  | bsInit => cases hx; split <;> simp
  | bsRead n => rcases execBsRead_cases hx with ⟨v, b, -, rfl⟩ | ⟨k, -, rfl⟩ | ⟨-, rfl⟩ <;> simp
  | bsAlign => cases hx; rfl
  | bsPeek => rcases execBsPeek_cases hx with ⟨r, -, rfl⟩ | ⟨k, -, rfl⟩ <;> simp
  | hufDecode slot =>
    rcases execHufDecode_cases hx with ⟨-, rfl⟩ | ⟨-, sym, b, -, rfl⟩ | ⟨-, k, -, rfl⟩ <;> simp
  | duDecode pred dct act dcOnly =>
    rcases execDuDecode_cases hx with ⟨-, rfl⟩ | ⟨-, p, du, b, -, rfl⟩ | ⟨-, k, -, rfl⟩ <;> simp
  | predReset => cases hx; rfl
  | bsRestart => rcases execBsRestart_cases hx with ⟨r, -, rfl⟩ | ⟨k, -, rfl⟩ <;> simp [aligned]
  | dequant qt => cases hx; split <;> simp
  | idct => cases hx; rfl

/-! #### Host writes, the reset and the step -/

theorem writeHtc_inv {s : State} (h : s.Inv) (n : Nat) (v : Word) : (writeHtc s n v).Inv :=
  h.withSlot _ nofun

theorem writeHts_inv {s : State} (h : s.Inv) (n : Nat) (v : Word) : (writeHts s n v).Inv :=
  (h.setHtv (Fin.ofNat 8 (n / 256)) false nofun).congr rfl

theorem writeQte_inv {s : State} (h : s.Inv) (m : Nat) (v : Word) : (writeQte s m v).Inv :=
  (h.withTable (Fin.ofNat 4 (m / 64)) (q := setHalves s.qte[Fin.ofNat 4 (m / 64)] (m % 64) v)
    (p := s.qtp[Fin.ofNat 4 (m / 64)]) (v := false) nofun).congr (by simp [State.watched, writeQte])

/-- A word write inside the buffer keeps the invariant; its offset is aligned, so the whole word lies in the buffer. -/
theorem writeEcs_inv {s : State} (h : s.Inv) {a : Nat} (v : Word) (h4 : a % 4 = 0) (ha : a < s.ecs.size) :
    (writeEcs s a v).Inv := by
  have hsize := s.ecs.size_bounds
  exact h.withEcs (Memory.writeWord_wf v (by omega) h.ecsCanonical) rfl

theorem windowWrite_keeps {s : State} (h : s.Inv) {off : Nat} (v : Word) (h4 : off % 4 = 0)
    (hoff : off < 0x10000 + s.ecs.size) : (windowWrite s off v).Inv ∧ (windowWrite s off v).ecs.size = s.ecs.size := by
  rcases windowWrite_cases s off v with e | ⟨-, e⟩ | ⟨-, e⟩ | ⟨-, e⟩ | ⟨-, e⟩ | ⟨-, -, e⟩ | ⟨-, -, e⟩ | ⟨-, -, e⟩ |
    ⟨-, -, e⟩ | ⟨-, -, e⟩ | ⟨hlo, e⟩ <;> rw [e]
  · exact ⟨h, rfl⟩
  · exact ⟨h.congr rfl, rfl⟩
  · exact ⟨h.congr rfl, rfl⟩
  · exact ⟨h.congr rfl, rfl⟩
  · exact ⟨h.congr rfl, rfl⟩
  · exact ⟨writeHtc_inv h _ v, rfl⟩
  · exact ⟨writeHts_inv h _ v, rfl⟩
  · exact ⟨writeQte_inv h _ v, rfl⟩
  · exact ⟨h.congr rfl, rfl⟩
  · exact ⟨h.congr rfl, rfl⟩
  · exact ⟨writeEcs_inv h v (by omega) (by omega), rfl⟩

/-- Right after a reset the invariant holds, whatever the storages hold: nothing is valid and the window is empty. -/
theorem afterReset_inv (lastWord : BitVec 22) (d : Nat) (pending : List Event) (reply : Word) (draws : Nat) :
    (State.afterReset lastWord d pending reply draws).Inv where
  ecsCanonical := rfl
  windowInBuffer := Nat.zero_le _
  posInWindow _ := le_rfl
  bufferedBits _ := Nat.zero_le _
  noRecord _ := ⟨rfl, rfl, rfl⟩
  recordedCode := nofun
  builtTables slot hv := by simp [State.afterReset] at hv
  committedTables t hv := by simp [State.afterReset] at hv

theorem engineTurn_keeps {s t : State} (h : s.Inv) (ht : engineTurn s = .next t) :
    t.Inv ∧ t.ecs.size = s.ecs.size := by
  rcases engineTurn_cases ht with ⟨-, rfl⟩ | ⟨-, -, rfl⟩ | ⟨-, -, -, rfl⟩ | ⟨-, hb, i, u, hd, hx, rfl⟩
  · exact ⟨h, rfl⟩
  · exact ⟨h.congr rfl, rfl⟩
  · exact ⟨(h.raise _ _).congr rfl, by simp⟩
  · exact ⟨(exec_inv h (runs_cases hb hd) hx).congr rfl, by rw [complete_ecs, exec_ecs hx]⟩

/-- Settles O10: by whose turn it is, from the rule for each host write, for the reset and for each command. -/
theorem invariantKeptByStep : Obligations.InvariantKeptByStep := by
  intro s t h hs
  have hp (rest : List Event) : ({ s with pending := rest } : State).Inv := h.congr rfl
  rcases step_cases hs with ⟨_, _, rest, -, hr⟩ | ⟨_, off, v, rest, -, hw⟩ | ⟨rest, -, rfl⟩ | ⟨rest, -, he⟩
  · obtain ⟨-, -, -, ⟨-, rfl⟩ | ⟨-, rfl⟩⟩ := hostRead_cases hr <;> exact ⟨h.congr rfl, rfl⟩
  · obtain ⟨-, h4, hoff, -, rfl⟩ := hostWrite_cases hw
    exact windowWrite_keeps (hp rest) v h4 hoff
  · exact ⟨afterReset_inv _ _ _ _ _, rfl⟩
  · exact engineTurn_keeps (s := { s with pending := rest }) (hp rest) he

end Sys2Proof.Machine

/-! ### O47, O48, O49, O50, O9, O52: who writes a register, and reset

Two rules carry the four statements about writers: what each command leaves to others (`exec_leaves`), and which steps
can change a field that the schedule, the host's reply, the handshake and the fault record leave alone (`step_changes`).
O9 and O52 are read off `State.afterReset`. -/

namespace Sys2Proof.Machine

/-- A write of one entry changes no other. -/
theorem eq_of_getElem_set_ne {α : Type} {n : Nat} {v : Vector α n} {i j : Fin n} {x : α}
    (h : (v.set i.val x)[j] ≠ v[j]) : i = j ∧ (v.set i.val x)[j] = x := by
  by_cases hij : i = j
  · subst hij; exact ⟨rfl, by simp⟩
  · exact absurd (by simp [Fin.val_inj, hij]) h

/-! #### The stream functions go on by readBit alone -/

/-- `b'` is the bit source `b` after some number of readBits (41_bitsource.md R112), with no condition on either. -/
def BitSource.ReadsOnTo (m : Memory) : BitSource → BitSource → Prop :=
  Relation.ReflTransGen fun b b' => ∃ bit, readBit m b = .ok (bit, b')

theorem BitSource.ReadsOnTo.trans {m : Memory} {b b' b'' : BitSource} (h : b.ReadsOnTo m b') (h' : b'.ReadsOnTo m b'') :
    b.ReadsOnTo m b'' := Relation.ReflTransGen.trans h h'

theorem readBit_readsOnTo {m : Memory} {b b' : BitSource} {bit : Bool} (hr : readBit m b = .ok (bit, b')) :
    b.ReadsOnTo m b' := .single ⟨bit, hr⟩

theorem readBitsFrom_readsOnTo {m : Memory} {n v r : Nat} {b b' : BitSource} (hr : readBitsFrom m n v b = .ok (r, b')) :
    b.ReadsOnTo m b' := by
  induction n generalizing v b with
  | zero => cases hr; exact .refl
  | succ n ih =>
    unfold readBitsFrom at hr
    split at hr
    · cases hr
    · next hb => exact (readBit_readsOnTo hb).trans (ih hr)

theorem walkFrom_readsOnTo {m : Memory} {table : List CodeEntry} {fuel l c : Nat} {b b' : BitSource} {sym : Byte}
    (hr : walkFrom m table fuel l c b = .ok (sym, b')) : b.ReadsOnTo m b' := by
  induction fuel generalizing l c b with
  | zero => cases hr
  | succ fuel ih =>
    unfold walkFrom at hr
    split at hr
    · cases hr
    · next hb =>
      split at hr
      · cases hr; exact readBit_readsOnTo hb
      · split at hr
        · exact (readBit_readsOnTo hb).trans (ih hr)
        · cases hr

theorem readMagnitude_readsOnTo {m : Memory} {n v : Nat} {b b' : BitSource} (hr : readMagnitude m n b = .ok (v, b')) :
    b.ReadsOnTo m b' := by
  unfold readMagnitude at hr
  split at hr
  · cases hr; exact .refl
  · exact readBitsFrom_readsOnTo hr

theorem dcPath_readsOnTo {m : Memory} {table : List CodeEntry} {lim : Nat} {b b' : BitSource} {diff : Int}
    (hr : dcPath m table lim b = .ok (diff, b')) : b.ReadsOnTo m b' := by
  unfold dcPath at hr
  split at hr
  · cases hr
  · next hw =>
    split at hr
    · cases hr
    · split at hr
      · cases hr
      · next hm => cases hr; exact (walkFrom_readsOnTo hw).trans (readMagnitude_readsOnTo hm)

theorem acLoop_readsOnTo {m : Memory} {table : List CodeEntry} {lim fuel k : Nat} {du du' : Vector Half 64}
    {b b' : BitSource} (hr : acLoop m table lim fuel k du b = .ok (du', b')) : b.ReadsOnTo m b' := by
  induction fuel generalizing k du b with
  | zero => cases hr; exact .refl
  | succ fuel ih =>
    unfold acLoop at hr
    split at hr
    · cases hr; exact .refl
    · split at hr
      · cases hr
      · next hw =>
        have hsym := walkFrom_readsOnTo hw
        split at hr
        · cases hr; exact hsym
        · exact hsym.trans (ih hr)
        · cases hr
        · split at hr
          · cases hr
          · next hb => exact (hsym.trans (readBitsFrom_readsOnTo hb)).trans (ih hr)

theorem decodeUnit_readsOnTo {s : State} {pred dct act : Fin 4} {dcOnly : Bool} {p : Half} {du : Vector Half 64}
    {b : BitSource} (hr : decodeUnit s pred dct act dcOnly = .ok (p, du, b)) : s.bs.ReadsOnTo s.ecs b := by
  unfold decodeUnit at hr
  split at hr
  · cases hr
  · next hd =>
    dsimp only at hr
    split at hr
    · cases hr; exact dcPath_readsOnTo hd
    · split at hr
      · cases hr
      · next hac => cases hr; exact (dcPath_readsOnTo hd).trans (acLoop_readsOnTo hac)

/-- A byte fetch leaves BS_END (R112). -/
theorem fetchByte_stop {m : Memory} {b b' : BitSource} (hr : fetchByte m b = .ok b') : b'.stop = b.stop := by
  unfold fetchByte at hr
  split at hr
  · cases hr; rfl
  · split at hr <;> cases hr
    rfl

theorem readBit_stop {m : Memory} {b b' : BitSource} {bit : Bool} (hr : readBit m b = .ok (bit, b')) :
    b'.stop = b.stop := by
  unfold readBit at hr
  split at hr
  · cases hr
  · next hf =>
    have hstop := fetchByte_stop hf
    cases hr
    exact hstop

/-- No read moves BS_END (10_state.md R30). -/
theorem BitSource.ReadsOnTo.stop {m : Memory} {b b' : BitSource} (h : b.ReadsOnTo m b') : b'.stop = b.stop := by
  induction h with
  | refl => rfl
  | tail _ hr ih =>
    obtain ⟨bit, hr⟩ := hr
    exact (readBit_stop hr).trans ih

/-! #### What each command leaves of RESULT, the predictors, BS_END and the validity bits -/

@[simp] theorem initialised_result (b : BitSource) (s : State) : (initialised b s).result = s.result := rfl
@[simp] theorem initialised_pred (b : BitSource) (s : State) : (initialised b s).pred = Vector.replicate 4 0#16 := rfl
@[simp] theorem initialised_htv (b : BitSource) (s : State) : (initialised b s).htv = s.htv := rfl
@[simp] theorem initialised_qtv (b : BitSource) (s : State) : (initialised b s).qtv = s.qtv := rfl

/-- Everything a restart can do once aligned: no marker found, another marker or the end, or a restart marker consumed
(45_scan_decode.md R197). -/
theorem restartOn_cases (r : Scan) (s : State) :
    restartOn r s = raise .missingRestart s.bs.pos s ∨
    (∃ w, restartOn r s = { s with eos := true, result := w }) ∨
    (∃ x q, restartOn r s = { clearPreds s with
      seqwarn := s.seqwarn || (x != expectedRst s.rstK), bs := { s.bs with pos := q }, rstK := s.rstK + 1#32,
      result := 0x100#32 ||| x.setWidth 32 }) := by
  cases r with
  | data b q => exact .inl rfl
  | endOfWindow => exact .inr (.inl ⟨_, rfl⟩)
  | marker x p q =>
    simp only [restartOn]
    split
    · exact .inr (.inr ⟨x, _, rfl⟩)
    · exact .inr (.inl ⟨_, rfl⟩)

/-- The registers that only commands named by a rule write: each is left by every other command, faults included. -/
structure LeftByOthers (i : Instr) (s t : State) : Prop where
  /-- RESULT (10_state.md R25) -/
  result : match i with
    | .bsRead _ | .bsPeek | .hufDecode _ | .duDecode _ _ _ _ | .bsRestart => True
    | _ => t.result = s.result
  /-- PRED (R35) -/
  pred : match i with
    | .duDecode _ _ _ _ | .bsInit | .predReset | .bsRestart => True
    | _ => t.pred = s.pred
  /-- BS_END (R30) -/
  stop : match i with
    | .bsInit => True
    | _ => t.bs.stop = s.bs.stop
  /-- HTV (R34) -/
  htv : match i with
    | .htBuild _ => True
    | _ => t.htv = s.htv
  /-- QTV (R34) -/
  qtv : match i with
    | .qtSet _ _ => True
    | _ => t.qtv = s.qtv

/-- By the command; a read moves the bit source on by readBit alone, which leaves BS_END. -/
theorem exec_leaves {i : Instr} {s t : State} (hx : exec i s = .next t) : LeftByOthers i s t := by
  cases i with
  | nop | bsAlign | predReset | idct => cases hx; constructor <;> simp
  | qtSet qt prec => cases hx; constructor <;> simp
  | htBuild slot => cases hx; split <;> constructor <;> simp
  | bsInit => cases hx; split <;> constructor <;> simp
  | dequant qt => cases hx; split <;> constructor <;> simp
  | bsRead n =>
    rcases execBsRead_cases hx with ⟨v, b, hr, rfl⟩ | ⟨k, -, rfl⟩ | ⟨-, rfl⟩
    · constructor <;> simp [(readBitsFrom_readsOnTo hr).stop]
    · constructor <;> simp
    · constructor <;> simp
  | bsPeek => rcases execBsPeek_cases hx with ⟨r, -, rfl⟩ | ⟨k, -, rfl⟩ <;> constructor <;> simp
  | hufDecode slot =>
    rcases execHufDecode_cases hx with ⟨-, rfl⟩ | ⟨-, sym, b, hr, rfl⟩ | ⟨-, k, -, rfl⟩
    · constructor <;> simp
    · constructor <;> simp [(walkFrom_readsOnTo hr).stop]
    · constructor <;> simp
  | duDecode pred dct act dcOnly =>
    rcases execDuDecode_cases hx with ⟨-, rfl⟩ | ⟨-, p, du, b, hr, rfl⟩ | ⟨-, k, -, rfl⟩
    · constructor <;> simp
    · constructor <;> simp [(decodeUnit_readsOnTo hr).stop]
    · constructor <;> simp
  | bsRestart =>
    rcases execBsRestart_cases hx with ⟨r, -, rfl⟩ | ⟨k, -, rfl⟩
    · rcases restartOn_cases r (aligned s) with e | ⟨w, e⟩ | ⟨x, q, e⟩ <;> rw [e] <;> constructor <;> simp [aligned]
    · constructor <;> simp

/-- Settles O47: the reset value is 0, and the other eight commands leave RESULT (R25). -/
theorem resultWrittenByFiveCommands : Obligations.ResultWrittenByFiveCommands := by
  refine ⟨rfl, fun i s t hx hne => ?_⟩
  cases i with
  | bsRead _ | bsPeek | hufDecode _ | duDecode _ _ _ _ | bsRestart => trivial
  | _ => exact hne (exec_leaves hx).result

/-! #### Predictors -/

/-- DU_DECODE writes no predictor but its operand's, a stream fault included (45_scan_decode.md R192, R227). -/
theorem execDuDecode_pred {p dct act : Fin 4} {dcOnly : Bool} {s t : State} {j : Fin 4}
    (hx : execDuDecode p dct act dcOnly s = .next t) (hne : t.pred[j] ≠ s.pred[j]) : p = j := by
  rcases execDuDecode_cases hx with ⟨-, rfl⟩ | ⟨-, q, du, b, -, rfl⟩ | ⟨-, k, -, rfl⟩
  · exact absurd (by simp) hne
  · exact (eq_of_getElem_set_ne hne).1
  · rw [duFault_pred] at hne
    exact (eq_of_getElem_set_ne hne).1

/-- BS_RESTART changes a predictor only where it consumes a restart marker, and then clears it (R197). -/
theorem execBsRestart_pred {s t : State} {j : Fin 4} (hx : execBsRestart s = .next t) (hne : t.pred[j] ≠ s.pred[j]) :
    t.pred[j] = 0#16 ∧ t.rstK = s.rstK + 1#32 := by
  rcases execBsRestart_cases hx with ⟨r, -, rfl⟩ | ⟨k, -, rfl⟩
  · rcases restartOn_cases r (aligned s) with e | ⟨w, e⟩ | ⟨x, q, e⟩ <;> rw [e] at hne ⊢
    · exact absurd (by simp [aligned]) hne
    · exact absurd rfl hne
    · exact ⟨by simp, rfl⟩
  · exact absurd (by simp) hne

/-- Settles O48: by the command; DU_DECODE and BS_RESTART have a rule of their own above (R35). -/
theorem predictorsWrittenByTheirCommands : Obligations.PredictorsWrittenByTheirCommands := by
  intro i s t j hx hne
  cases i with
  | duDecode p dct act dcOnly => exact execDuDecode_pred hx hne
  | bsRestart => exact execBsRestart_pred hx hne
  | bsInit => cases hx; dsimp only; split <;> simp
  | predReset => cases hx; simp
  | _ => exact hne (by rw [(exec_leaves hx).pred])

/-! #### Which step changes a field of the block -/

/-- A field that the schedule, the model's reply and draws, the end of a command and the fault record leave alone. -/
structure Unrecorded {α : Type} (f : State → α) : Prop where
  pending (s : State) (l : List Event) : f { s with pending := l } = f s
  reply (s : State) (w : Word) (d : Nat) : f { s with reply := w, draws := d } = f s
  complete (s : State) : f (complete s) = f s
  raise (k : FaultKind) (s0 : Word) (s : State) : f (raise k s0 s) = f s

/-- Where a step changes such a field, it is a reset, a host write, or the engine performing a legal command that no
fault blocks (R101 to R103). -/
theorem step_changes {α : Type} {f : State → α} (hf : Unrecorded f) {s t : State} (hs : step s = .next t)
    (hne : f t ≠ f s) :
    (∃ rest, s.pending = .reset :: rest ∧ t = resetBlock { s with pending := rest }) ∨
    (∃ off v rest, s.pending = .write 32 off v :: rest ∧ t = windowWrite { s with pending := rest } off v) ∨
    (∃ i u rest, s.engineNext rest ∧ s.busy = true ∧ decode s.cmdLatch = .ok i ∧
      (s.fault = false ∨ i = .nop ∨ i = .bsInit) ∧ exec i { s with pending := rest } = .next u ∧ t = complete u) := by
  rcases step_cases hs with ⟨_, _, rest, -, hr⟩ | ⟨_, off, v, rest, hp, hw⟩ | hreset | ⟨rest, hn, he⟩
  · obtain ⟨-, -, -, ⟨-, rfl⟩ | ⟨-, rfl⟩⟩ := hostRead_cases hr
    · exact absurd ((hf.reply { s with pending := rest } _ _).trans (hf.pending s rest)) hne
    · exact absurd ((hf.reply { s with pending := rest } _ s.draws).trans (hf.pending s rest)) hne
  · obtain ⟨rfl, -, -, -, rfl⟩ := hostWrite_cases hw
    exact .inr (.inl ⟨off, v, rest, hp, rfl⟩)
  · exact .inl hreset
  · rcases engineTurn_cases he with ⟨-, rfl⟩ | ⟨-, -, rfl⟩ | ⟨-, -, -, rfl⟩ | ⟨hb, hk, i, u, hd, hx, rfl⟩
    · exact absurd (hf.pending s rest) hne
    · exact absurd ((hf.complete _).trans (hf.pending s rest)) hne
    · exact absurd (((hf.complete _).trans (hf.raise _ _ _)).trans (hf.pending s rest)) hne
    · exact .inr (.inr ⟨i, u, rest, hn, hb, hd, runs_cases hk hd, hx, rfl⟩)

/-! #### BS_END -/

theorem unrecorded_stop : Unrecorded fun s => s.bs.stop where
  pending _ _ := rfl
  reply _ _ _ := rfl
  complete _ := rfl
  raise k s0 s := by simp

/-- No host write reaches the bit source (20_memory.md R66). -/
theorem windowWrite_bs (s : State) (off : Nat) (v : Word) : (windowWrite s off v).bs = s.bs := by
  rcases windowWrite_cases s off v with e | ⟨-, e⟩ | ⟨-, e⟩ | ⟨-, e⟩ | ⟨-, e⟩ | ⟨-, -, e⟩ | ⟨-, -, e⟩ | ⟨-, -, e⟩ |
    ⟨-, -, e⟩ | ⟨-, -, e⟩ | ⟨-, e⟩ <;> rw [e] <;> rfl

/-- The word of BS_INIT, which has no operand bits (30_encoding.md R82, R89). -/
theorem decode_bsInit {w : Word} (h : decode w = .ok .bsInit) : w = 0x00000020#32 := by
  obtain ⟨r, hr, hm, -, hb⟩ := (decode_iff w .bsInit).1 h
  simp only [opcodeMap, List.mem_cons, List.not_mem_nil, or_false] at hr
  rcases hr with rfl | rfl | rfl | rfl | rfl | rfl | rfl | rfl | rfl | rfl | rfl | rfl | rfl <;> cases hb
  exact BitVec.and_allOnes.symm.trans hm

/-- Settles O49: of the steps that can change BS_END, a host write does not, and of the commands only BS_INIT does. -/
theorem windowEndChangesOnlyAtBsInit : Obligations.WindowEndChangesOnlyAtBsInit := by
  intro s t hs hne
  rcases step_changes unrecorded_stop hs hne with ⟨rest, hp, -⟩ | ⟨off, v, rest, -, rfl⟩ |
    ⟨i, u, rest, hn, hb, hd, -, hx, rfl⟩
  · exact .inl ⟨rest, hp⟩
  · exact absurd (by rw [windowWrite_bs]) hne
  · cases i with
    | bsInit => exact .inr ⟨rest, hn, hb, decode_bsInit hd⟩
    | _ => exact absurd (exec_leaves hx).stop hne

/-! #### The validity bits -/

theorem unrecorded_htv (slot : Fin 8) : Unrecorded fun s => s.htv[slot] where
  pending _ _ := rfl
  reply _ _ _ := rfl
  complete _ := rfl
  raise k s0 s := by simp

theorem unrecorded_qtv (u : Fin 4) : Unrecorded fun s => s.qtv[u] where
  pending _ _ := rfl
  reply _ _ _ := rfl
  complete _ := rfl
  raise k s0 s := by simp

/-- The three ways a host write can reach a validity bit (20_memory.md R66). -/
theorem windowWrite_valid_cases (s : State) (off : Nat) (v : Word) :
    ((windowWrite s off v).htv = s.htv ∧ (windowWrite s off v).qtv = s.qtv) ∨
    (0x1000 ≤ off ∧ off < 0x1080 ∧ windowWrite s off v = writeHtc s (off - 0x1000) v) ∨
    (0x1800 ≤ off ∧ off < 0x2000 ∧ windowWrite s off v = writeHts s (off - 0x1800) v) ∨
    (0x2000 ≤ off ∧ off < 0x2200 ∧ windowWrite s off v = writeQte s ((off - 0x2000) / 2) v) := by
  rcases windowWrite_cases s off v with e | ⟨-, e⟩ | ⟨-, e⟩ | ⟨-, e⟩ | ⟨-, e⟩ | htc | hts | qte |
    ⟨-, -, e⟩ | ⟨-, -, e⟩ | ⟨-, e⟩
  iterate 5 exact .inl (by rw [e]; exact ⟨rfl, rfl⟩)
  · exact .inr (.inl htc)
  · exact .inr (.inr (.inl hts))
  · exact .inr (.inr (.inr qte))
  iterate 3 exact .inl (by rw [e]; exact ⟨rfl, rfl⟩)

/-- A host write changes HTV[slot] only within the slot's HTC or HTS range, and clears it (10_state.md R34). -/
theorem windowWrite_htv {s : State} {off : Nat} {v : Word} {slot : Fin 8}
    (hne : (windowWrite s off v).htv[slot] ≠ s.htv[slot]) :
    (windowWrite s off v).htv[slot] = false ∧
      ((0x1000 + 16 * slot.val ≤ off ∧ off < 0x1000 + 16 * slot.val + 16) ∨
        (0x1800 + 256 * slot.val ≤ off ∧ off < 0x1800 + 256 * slot.val + 256)) := by
  rcases windowWrite_valid_cases s off v with ⟨e, -⟩ | ⟨hlo, hhi, e⟩ | ⟨hlo, hhi, e⟩ | ⟨-, -, e⟩ <;> rw [e] at hne ⊢
  · exact absurd rfl hne
  · obtain ⟨rfl, hv⟩ := eq_of_getElem_set_ne hne
    exact ⟨hv, .inl (by simp only [Fin.ofNat]; omega)⟩
  · obtain ⟨rfl, hv⟩ := eq_of_getElem_set_ne hne
    exact ⟨hv, .inr (by simp only [Fin.ofNat]; omega)⟩
  · exact absurd rfl hne

/-- A host write changes QTV[u] only within the table's QTE range, and clears it (R34). -/
theorem windowWrite_qtv {s : State} {off : Nat} {v : Word} {u : Fin 4}
    (hne : (windowWrite s off v).qtv[u] ≠ s.qtv[u]) :
    (windowWrite s off v).qtv[u] = false ∧ 0x2000 + 128 * u.val ≤ off ∧ off < 0x2000 + 128 * u.val + 128 := by
  rcases windowWrite_valid_cases s off v with ⟨-, e⟩ | ⟨-, -, e⟩ | ⟨-, -, e⟩ | ⟨hlo, hhi, e⟩ <;> rw [e] at hne ⊢
  · exact absurd rfl hne
  · exact absurd rfl hne
  · exact absurd rfl hne
  · obtain ⟨rfl, hv⟩ := eq_of_getElem_set_ne hne
    exact ⟨hv, by simp only [Fin.ofNat]; omega⟩

/-- HT_BUILD from a state without a fault sets HTV of its slot, or clears it and records the fault (42_huffman.md R143). -/
theorem execHtBuild_valid {slot : Fin 8} {s t : State} (hf : s.fault = false) (hx : execHtBuild slot s = .next t) :
    t.htv[slot] = true ↔ t.fault = false := by
  cases hx
  split <;> simp [hf]

/-- Only HT_BUILD of the slot changes HTV[slot] (R34). -/
theorem exec_htv {i : Instr} {s t : State} {slot : Fin 8} (hx : exec i s = .next t) (hne : t.htv[slot] ≠ s.htv[slot]) :
    i = .htBuild slot := by
  cases i with
  | htBuild slot' =>
    have ht : ∃ v, t.htv = s.htv.set slot'.val v := by
      cases hx
      split
      · exact ⟨false, by simp⟩
      · exact ⟨true, by simp⟩
    obtain ⟨v, hv⟩ := ht
    rw [hv] at hne
    rw [(eq_of_getElem_set_ne hne).1]
  | _ => exact absurd (by rw [(exec_leaves hx).htv]) hne

/-- Only QT_SET of the table changes QTV[u], and sets it (43_quant_zigzag.md R163). -/
theorem exec_qtv {i : Instr} {s t : State} {u : Fin 4} (hx : exec i s = .next t) (hne : t.qtv[u] ≠ s.qtv[u]) :
    ∃ prec, i = .qtSet u prec ∧ t.qtv[u] = true := by
  cases i with
  | qtSet qt prec =>
    cases hx
    obtain ⟨rfl, hv⟩ := eq_of_getElem_set_ne hne
    exact ⟨prec, rfl, hv⟩
  | _ => exact absurd (by rw [(exec_leaves hx).qtv]) hne

/-- Settles O50: of the steps that can change a validity bit, by the rules above for a host write, HT_BUILD and QT_SET. -/
theorem validityBitsFollowTables : Obligations.ValidityBitsFollowTables := by
  intro s t hs
  constructor
  · intro slot hne
    rcases step_changes (unrecorded_htv slot) hs hne with ⟨rest, hp, rfl⟩ | ⟨off, v, rest, hp, rfl⟩ |
      ⟨i, w, rest, hn, hb, hd, hrun, hx, rfl⟩
    · exact .inl ⟨rest, hp, by simp⟩
    · exact .inr (.inl ⟨off, v, rest, hp, windowWrite_htv hne⟩)
    · obtain rfl := exec_htv hx hne
      have hf : s.fault = false := by simpa using hrun
      have hv := execHtBuild_valid (s := { s with pending := rest }) hf hx
      exact .inr (.inr ⟨rest, hn, hb, hd, hv⟩)
  · intro u hne
    rcases step_changes (unrecorded_qtv u) hs hne with ⟨rest, hp, rfl⟩ | ⟨off, v, rest, hp, rfl⟩ |
      ⟨i, w, rest, hn, hb, hd, -, hx, rfl⟩
    · exact .inl ⟨rest, hp, by simp⟩
    · exact .inr (.inl ⟨off, v, rest, hp, windowWrite_qtv hne⟩)
    · obtain ⟨prec, rfl, hv⟩ := exec_qtv hx hne
      exact .inr (.inr ⟨prec, rest, hn, hb, hd, hv⟩)

/-! #### Reset -/

/-- Settles O9: the state right after a reset keeps the invariant at any size, and any size of R6 can be stated. -/
theorem invariantAtReset : Obligations.InvariantAtReset :=
  ⟨⟨afterReset_inv _ _ _ _ _, reset_size⟩,
    fun _ h4 hn hd => ⟨afterReset_inv _ _ _ _ _, resetSized_size h4 hn hd⟩⟩

/-- Settles O52: the machine's start and the platform's reset are both `State.afterReset` (R46, R240). -/
theorem resetSetsRegisters : Obligations.ResetSetsRegisters := by
  unfold Obligations.ResetSetsRegisters
  intro resetValues
  have after (lastWord : BitVec 22) (d : Nat) (pending : List Event) (reply : Word) (draws : Nat) :
      resetValues (State.afterReset lastWord d pending reply draws) := by
    simp [resetValues, State.afterReset]
  exact ⟨after _ _ _ _ _, fun _ => after _ _ _ _ _, fun s rest hp => ⟨_, step_event hp, after _ _ _ _ _, rfl, rfl⟩⟩

end Sys2Proof.Machine

/-! ### O11, O46: where a step stops, and what no command writes

O11 turns on one fact: while the window lies in the ECS buffer no stream function reads outside it, so the engine always
answers. O46 gathers the fields in question in one tuple, `State.hostHeld`, and shows that every command leaves it. -/

namespace Sys2Proof.Machine

/-! #### No read outside the buffer (20_memory.md R64) -/

theorem readBit_inside {m : Memory} {b : BitSource} (h : b.Good m) : readBit m b ≠ .error .outside := by
  rcases readBit_spec m b h with ⟨-, e⟩ | ⟨_, _, e, -⟩ <;> rw [e] <;> nofun

theorem readBits_inside {m : Memory} {n : Nat} {b : BitSource} (h : b.Good m) : readBits m n b ≠ .error .outside := by
  have hs := readBits_spec m n b h
  split at hs
  · obtain ⟨_, e, -⟩ := hs
    rw [e]; nofun
  · rw [hs]; nofun

theorem walkFrom_inside {m : Memory} {table : List CodeEntry} {fuel l c : Nat} {b : BitSource} (h : b.Good m) :
    walkFrom m table fuel l c b ≠ .error .outside := by
  induction fuel generalizing l c b with
  | zero => nofun
  | succ fuel ih =>
    unfold walkFrom
    split
    · next hb => rintro ⟨⟩; exact readBit_inside h hb
    · next hb =>
      split
      · nofun
      · split
        · exact ih (readBit_after h hb).good
        · nofun

theorem hufWalk_inside {m : Memory} {table : List CodeEntry} {b : BitSource} (h : b.Good m) :
    hufWalk m table b ≠ .error .outside :=
  walkFrom_inside h

theorem readMagnitude_inside {m : Memory} {n : Nat} {b : BitSource} (h : b.Good m) :
    readMagnitude m n b ≠ .error .outside := by
  unfold readMagnitude
  split
  · nofun
  · exact readBits_inside h

theorem dcPath_inside {m : Memory} {table : List CodeEntry} {lim : Nat} {b : BitSource} (h : b.Good m) :
    dcPath m table lim b ≠ .error .outside := by
  unfold dcPath
  split
  · next hw => rintro ⟨⟩; exact hufWalk_inside h hw
  · next hw =>
    obtain ⟨_, h1⟩ := hufWalk_after h hw
    split
    · nofun
    · split
      · next hm => rintro ⟨⟩; exact readMagnitude_inside h1.good hm
      · nofun

theorem acLoop_inside {m : Memory} {table : List CodeEntry} {lim fuel k : Nat} {du : Vector Half 64} {b : BitSource}
    (h : b.Good m) : acLoop m table lim fuel k du b ≠ .error .outside := by
  induction fuel generalizing k du b with
  | zero => nofun
  | succ fuel ih =>
    unfold acLoop
    split
    · nofun
    · split
      · next hw => rintro ⟨⟩; exact hufWalk_inside h hw
      · next hw =>
        obtain ⟨_, h1⟩ := hufWalk_after h hw
        split
        · nofun
        · exact ih h1.good
        · nofun
        · split
          · next hb => rintro ⟨⟩; exact readBits_inside h1.good hb
          · next hb => exact ih (readBits_after h1.good hb).good

theorem decodeUnit_inside {s : State} (pred dct act : Fin 4) (dcOnly : Bool) (h : s.bs.Good s.ecs) :
    decodeUnit s pred dct act dcOnly ≠ .error .outside := by
  unfold decodeUnit
  split
  · next hd => rintro ⟨⟩; exact dcPath_inside h hd
  · next hd =>
    obtain ⟨_, h1⟩ := dcPath_after h hd
    dsimp only
    split
    · nofun
    · split
      · next hac => rintro ⟨⟩; exact acLoop_inside h1.good hac
      · nofun

/-! #### The engine always answers -/

theorem endStream_answers {e : StreamStop} (he : e ≠ .outside) (s : State) : ∃ t, endStream e s = .next t := by
  cases e with
  | raise k => exact ⟨_, rfl⟩
  | outside => exact absurd rfl he

theorem endUnit_answers {e : StreamStop} (he : e ≠ .outside) (p : Fin 4) (s : State) : ∃ t, endUnit e p s = .next t := by
  cases e with
  | raise k => exact ⟨_, rfl⟩
  | outside => exact absurd rfl he

theorem execBsRead_answers (n : Fin 32) {s : State} (h : s.bs.Good s.ecs) : ∃ t, execBsRead n s = .next t := by
  unfold execBsRead
  split
  · split
    · exact ⟨_, rfl⟩
    · next hr => exact endStream_answers (fun he => readBits_inside h (he ▸ hr)) s
  · exact ⟨_, rfl⟩

theorem execBsPeek_answers {s : State} (h : s.bs.stop.toNat ≤ s.ecs.size) : ∃ t, execBsPeek s = .next t := by
  obtain ⟨r, hr⟩ := scanAtPos_ok s.ecs s.bs h
  exact ⟨_, by rw [execBsPeek, hr]⟩

theorem execHufDecode_answers (slot : Fin 8) {s : State} (h : s.bs.Good s.ecs) : ∃ t, execHufDecode slot s = .next t := by
  unfold execHufDecode
  split
  · exact ⟨_, rfl⟩
  · split
    · exact ⟨_, rfl⟩
    · next hr => exact endStream_answers (fun he => hufWalk_inside h (he ▸ hr)) s

theorem execDuDecode_answers (pred dct act : Fin 4) (dcOnly : Bool) {s : State} (h : s.bs.Good s.ecs) :
    ∃ t, execDuDecode pred dct act dcOnly s = .next t := by
  unfold execDuDecode
  split
  · split
    · exact ⟨_, rfl⟩
    · next hr => exact endUnit_answers (fun he => decodeUnit_inside pred dct act dcOnly h (he ▸ hr)) pred s
  · exact ⟨_, rfl⟩

theorem execBsRestart_answers {s : State} (h : s.bs.stop.toNat ≤ s.ecs.size) : ∃ t, execBsRestart s = .next t := by
  obtain ⟨r, hr⟩ := scanAtPos_ok s.ecs (aligned s).bs h
  unfold execBsRestart
  dsimp only
  split
  · exact ⟨_, rfl⟩
  · next he => exact absurd (hr.symm.trans he) nofun

/-- Every command answers where the engine performs it: with no fault recorded, or NOP or BS_INIT (R102). -/
theorem exec_answers {i : Instr} {s : State} (h : s.Inv) (hrun : s.fault = false ∨ i = .nop ∨ i = .bsInit) :
    ∃ t, exec i s = .next t := by
  have good (hn : i ≠ .nop) (hi : i ≠ .bsInit) : s.bs.Good s.ecs := h.good (by simpa [hn, hi] using hrun)
  cases i with
  | bsRead n => exact execBsRead_answers n (good nofun nofun)
  | bsPeek => exact execBsPeek_answers h.windowInBuffer
  | hufDecode slot => exact execHufDecode_answers slot (good nofun nofun)
  | duDecode pred dct act dcOnly => exact execDuDecode_answers pred dct act dcOnly (good nofun nofun)
  | bsRestart => exact execBsRestart_answers h.windowInBuffer
  | nop | htBuild slot | qtSet qt prec | bsInit | bsAlign | predReset | dequant qt | idct => exact ⟨_, rfl⟩

theorem engineTurn_answers {s : State} (h : s.Inv) : ∃ t, engineTurn s = .next t := by
  unfold engineTurn
  split
  · unfold engineStep
    split
    · exact ⟨_, rfl⟩
    · next hb =>
      split
      · exact ⟨_, rfl⟩
      · next i hd =>
        obtain ⟨u, hx⟩ := exec_answers h (runs_cases (Bool.eq_false_of_not_eq_true hb) hd)
        exact ⟨complete u, by rw [hx]; rfl⟩
  · exact ⟨_, rfl⟩

/-! #### When a host access answers (R61, R67, R68) -/

theorem hostRead_answers_iff (width off : Nat) (s : State) :
    (∃ t, hostRead width off s = .next t) ↔ width = 32 ∧ off % 4 = 0 ∧ off < 0x10000 + s.ecs.size := by
  constructor
  · rintro ⟨t, ht⟩
    obtain ⟨hw, ha, hb, -⟩ := hostRead_cases ht
    exact ⟨hw, ha, hb⟩
  · rintro ⟨hw, ha, hb⟩
    simp only [hostRead, access_ok hw ha hb]
    split <;> exact ⟨_, rfl⟩

theorem hostWrite_answers_iff (width off : Nat) (v : Word) (s : State) :
    (∃ t, hostWrite width off v s = .next t) ↔
      width = 32 ∧ off % 4 = 0 ∧ off < 0x10000 + s.ecs.size ∧ s.busy = false := by
  constructor
  · rintro ⟨t, ht⟩
    obtain ⟨hw, ha, hb, hbusy, -⟩ := hostWrite_cases ht
    exact ⟨hw, ha, hb, hbusy⟩
  · rintro ⟨hw, ha, hb, hbusy⟩
    exact ⟨windowWrite s off v, by simp [hostWrite, access_ok hw ha hb, hbusy]⟩

/-- Settles O11: by the next event; the reset and the engine's turn always answer. -/
theorem stepStopsOnlyOnRefusedAccess : Obligations.StepStopsOnlyOnRefusedAccess := by
  intro s h
  have hinv (rest : List Event) : ({ s with pending := rest } : State).Inv := h.congr rfl
  cases hp : s.pending with
  | nil =>
    obtain ⟨t, ht⟩ := engineTurn_answers (hinv [])
    simp [step_engine (.inr ⟨hp, rfl⟩), ht]
  | cons e rest =>
    rw [step_event hp]
    cases e with
    | engine =>
      obtain ⟨t, ht⟩ := engineTurn_answers (hinv rest)
      simp [happen, ht]
    | reset => simp [happen]
    | read width off =>
      rw [happen, hostRead_answers_iff]
      constructor
      · exact fun hn => ⟨width, off, rest, .inl ⟨.inl rfl, by dsimp only at hn; omega⟩⟩
      · rintro ⟨_, _, _, ⟨he | ⟨_, he⟩, hbad⟩ | ⟨⟨_, he⟩, -⟩⟩ <;> cases he
        dsimp only
        omega
    | write width off v =>
      rw [happen, hostWrite_answers_iff]
      constructor
      · intro hn
        cases hb : s.busy with
        | true => exact ⟨width, off, rest, .inr ⟨⟨v, rfl⟩, rfl⟩⟩
        | false =>
          simp only [hb, and_true] at hn
          exact ⟨width, off, rest, .inl ⟨.inr ⟨v, rfl⟩, by omega⟩⟩
      · rintro ⟨_, _, _, ⟨he | ⟨_, he⟩, hbad⟩ | ⟨⟨_, he⟩, hb⟩⟩ <;> cases he
        · dsimp only
          omega
        · simp [hb]

/-! #### What no command writes -/

/-- The fields that the host alone writes, and the handshake's: no command writes any of them. -/
def State.hostHeld (s : State) :=
  (s.ecs, s.htc, s.hts, s.ext, s.ecsStart, s.ecsLen, s.cmdLatch, s.busy, s.pending, s.reply)

@[simp] theorem raise_hostHeld (k : FaultKind) (s0 : Word) (s : State) : (raise k s0 s).hostHeld = s.hostHeld := by
  simp [State.hostHeld]

@[simp] theorem streamFault_hostHeld (k : FaultKind) (s : State) : (streamFault k s).hostHeld = s.hostHeld := by
  simp [State.hostHeld]

@[simp] theorem duFault_hostHeld (k : FaultKind) (p : Fin 4) (s : State) : (duFault k p s).hostHeld = s.hostHeld := by
  simp [State.hostHeld]

@[simp] theorem initialised_hostHeld (b : BitSource) (s : State) : (initialised b s).hostHeld = s.hostHeld := rfl

@[simp] theorem setHtv_hostHeld (slot : Fin 8) (v : Bool) (s : State) : (setHtv slot v s).hostHeld = s.hostHeld := rfl

@[simp] theorem restartOn_hostHeld (r : Scan) (s : State) : (restartOn r s).hostHeld = s.hostHeld := by
  rcases restartOn_cases r s with e | ⟨w, e⟩ | ⟨x, q, e⟩ <;> rw [e]
  · exact raise_hostHeld _ _ _
  · rfl
  · rfl

/-- By the command, faults included. -/
theorem exec_hostHeld {i : Instr} {s t : State} (hx : exec i s = .next t) : t.hostHeld = s.hostHeld := by
  cases i with
  | nop | qtSet qt prec | bsAlign | predReset | idct => cases hx; simp only [State.hostHeld, clearPreds]
  | htBuild slot => cases hx; split <;> simp
  | bsInit => cases hx; split <;> simp
  | bsRead n =>
    rcases execBsRead_cases hx with ⟨v, b, -, rfl⟩ | ⟨k, -, rfl⟩ | ⟨-, rfl⟩
    · rfl
    · exact streamFault_hostHeld k s
    · exact raise_hostHeld _ _ s
  | bsPeek =>
    rcases execBsPeek_cases hx with ⟨r, -, rfl⟩ | ⟨k, -, rfl⟩
    · rfl
    · exact streamFault_hostHeld k s
  | hufDecode slot =>
    rcases execHufDecode_cases hx with ⟨-, rfl⟩ | ⟨-, sym, b, -, rfl⟩ | ⟨-, k, -, rfl⟩
    · exact raise_hostHeld _ _ s
    · rfl
    · exact streamFault_hostHeld k s
  | duDecode pred dct act dcOnly =>
    rcases execDuDecode_cases hx with ⟨-, rfl⟩ | ⟨-, p, du, b, -, rfl⟩ | ⟨-, k, -, rfl⟩
    · exact raise_hostHeld _ _ s
    · rfl
    · exact duFault_hostHeld k pred s
  | bsRestart =>
    rcases execBsRestart_cases hx with ⟨r, -, rfl⟩ | ⟨k, -, rfl⟩
    · exact restartOn_hostHeld r (aligned s)
    · exact streamFault_hostHeld k s
  | dequant qt =>
    cases hx
    split
    · simp only [State.hostHeld]
    · exact raise_hostHeld _ _ s

/-- Settles O46: the components of `exec_hostHeld`. -/
theorem commandsLeaveHostStorage : Obligations.CommandsLeaveHostStorage := by
  intro i s t hx
  have h := exec_hostHeld hx
  simp only [State.hostHeld, Prod.mk.injEq] at h
  exact ⟨fun a => by rw [h.1], h⟩

end Sys2Proof.Machine

/-! ### O53 to O60: the host window

Reads: the word at each offset of the window (`windowRead`), then one lemma for each register whose word is made of
fields, and one for each storage. Writes: what the window does at each range of offsets (`windowWrite`), then the cells
of the range. -/

namespace Sys2Proof.Machine

/-! #### Every read (O55, O56) -/

/-- Settles O55: both ways a read can answer (R66, R68). -/
theorem hostReadHasNoSideEffect : Obligations.HostReadHasNoSideEffect := by
  intro s t width off rest hp hs
  rw [step_event hp] at hs
  obtain ⟨-, -, -, ⟨-, rfl⟩ | ⟨-, rfl⟩⟩ := hostRead_cases hs <;> rfl

/-- Whatever is read from STATUS while BUSY = 1, bit 0 of it is 1 (R68). -/
theorem busyWord_status (d : Nat) : (busyWord d 0x00C).getLsbD 0 = true := by
  simp [busyWord]

/-- Settles O56: the access is refused on no other ground, so BUSY decides. -/
theorem accessWhileBusy : Obligations.AccessWhileBusy := by
  intro s off rest hbusy ha hb
  constructor
  · intro hp
    refine ⟨{ s with reply := busyWord s.draws off, draws := s.draws + 1, pending := rest }, ?_, rfl, ?_⟩
    · simp [step_event hp, happen, hostRead, access_ok rfl ha hb, hbusy]
    · rintro rfl
      exact busyWord_status s.draws
  · intro v hp
    simp [step_event hp, happen, hostWrite, access_ok rfl ha hb, hbusy]

/-! #### Words made of fields -/

/-- A concatenation as a number. -/
theorem toNat_append_eq_add {m n : Nat} (x : BitVec m) (y : BitVec n) :
    (x ++ y).toNat = x.toNat * 2 ^ n + y.toNat := by
  rw [BitVec.toNat_append, ← Nat.shiftLeft_add_eq_or_of_lt y.isLt, Nat.shiftLeft_eq]

theorem statusWord_idle {s : State} (h : s.busy = false) :
    statusWord s = 0#16 ++ s.fcode ++ 0#4 ++ BitVec.ofBool s.eos ++ BitVec.ofBool s.seqwarn ++
      BitVec.ofBool s.fault ++ 0#1 := by
  apply BitVec.eq_of_toNat_eq
  have hc := s.fcode.isLt
  simp only [toNat_append_eq_add, statusWord, flagBits, h, BitVec.toNat_ofNat, BitVec.toNat_ofBool]
  have h1 := s.eos.toNat_le
  have h2 := s.seqwarn.toNat_le
  have h3 := s.fault.toNat_le
  simp only [Bool.toNat_false]
  omega

theorem bsBufWord_eq (s : State) : bsBufWord s = 0#20 ++ s.bs.nbits ++ s.bs.cur := by
  apply BitVec.eq_of_toNat_eq
  have hc := s.bs.cur.isLt
  have hn := s.bs.nbits.isLt
  simp only [toNat_append_eq_add, bsBufWord, BitVec.toNat_ofNat]
  omega

theorem testBit_flagBits (l : List Bool) (i : Nat) : (flagBits l).testBit i = l.getD i false := by
  induction l generalizing i with
  | nil => simp [flagBits]
  | cons b l ih =>
    cases i with
    | zero => cases b <;> simp [flagBits, Nat.testBit_zero]
    | succ i =>
      rw [flagBits, Nat.testBit_succ, show (b.toNat + 2 * flagBits l) / 2 = flagBits l by have := b.toNat_le; omega, ih]
      rfl

/-- Bit `i` of TBL_VALID is flag `i` of the three groups in a row, and 0 above them (R34). -/
theorem getLsbD_tblValidWord (s : State) {i : Nat} (hi : i < 32) :
    (tblValidWord s).getLsbD i =
      (s.htv.toList ++ s.qtv.toList ++ s.qtp.toList.map precIsSixteen).getD i false := by
  rw [tblValidWord, BitVec.getLsbD_ofNat, testBit_flagBits]
  simp [hi]

theorem tblValidWord_htv (s : State) (i : Fin 8) : (tblValidWord s).getLsbD i.val = s.htv[i] := by
  rw [getLsbD_tblValidWord s (by omega)]
  simp [List.getElem?_append]

theorem tblValidWord_qtv (s : State) (i : Fin 4) : (tblValidWord s).getLsbD (8 + i.val) = s.qtv[i] := by
  rw [getLsbD_tblValidWord s (by omega)]
  simp [List.getElem?_append]

theorem precIsSixteen_eq (p : Precision) : precIsSixteen p = decide (p = .sixteen) := by cases p <;> rfl

theorem tblValidWord_qtp (s : State) (i : Fin 4) :
    (tblValidWord s).getLsbD (12 + i.val) = decide (s.qtp[i] = .sixteen) := by
  rw [getLsbD_tblValidWord s (by omega), ← precIsSixteen_eq, List.getD_eq_getElem?_getD,
    List.getElem?_append_right (by simp), show 12 + i.val - (s.htv.toList ++ s.qtv.toList).length = i.val by simp]
  simp

theorem tblValidWord_high (s : State) : (tblValidWord s).extractLsb' 16 16 = 0#16 := by
  apply BitVec.eq_of_getLsbD_eq
  intro i hi
  rw [BitVec.getLsbD_extractLsb', getLsbD_tblValidWord s (by omega)]
  simp

/-! #### Reads of registers (O53) -/

theorem regWord_pred (s : State) (j : Fin 4) : regWord s (0x040 + 4 * j.val) = s.pred[j].signExtend 32 := by
  fin_cases j <;> rfl

/-- CMD and the unmapped offsets below 0x1000 (R23, R67). -/
theorem regWord_zero (s : State) {off : Nat} (h : off = 0x008 ∨ off = 0x03C ∨ 0x050 ≤ off) : regWord s off = 0#32 := by
  unfold regWord
  split <;> first | rfl | omega

theorem windowRead_reg (s : State) {off : Nat} (h : off < 0x1000) : windowRead s off = regWord s off := if_pos h

/-- Settles O53: the word of each register, by its lemma above where it is made of fields. -/
theorem hostReadsRegisters : Obligations.HostReadsRegisters := by
  intro s off rest hbusy hp ha hoff
  refine ⟨_, read_idle hbusy hp ha (by omega), rfl, ?_⟩
  rw [windowRead_reg _ hoff]
  refine ⟨?_, ?ext, ?status, ?_, ?_, ?_, ?_, ?_, ?_, ?_, ?bsBuf, ?_, ?_, ?tblValid, ?pred, regWord_zero _⟩
  case ext => rintro rfl; cases s.ext <;> simp [regWord]
  case status => rintro rfl; exact statusWord_idle (s := { s with pending := rest }) hbusy
  case bsBuf => rintro rfl; exact bsBufWord_eq _
  case tblValid =>
    rintro rfl
    exact ⟨tblValidWord_htv _, tblValidWord_qtv _, tblValidWord_qtp _, tblValidWord_high _⟩
  case pred =>
    rintro j rfl
    rw [regWord_pred]
    exact BitVec.toInt_signExtend_of_le (by decide)
  all_goals rintro rfl; rfl

/-! #### The position of a cell in its storage's range (R62) -/

theorem ofNat_row {k n : Nat} [NeZero k] (r : Fin k) {i : Nat} (hi : i < n) : Fin.ofNat k ((n * r.val + i) / n) = r := by
  apply Fin.ext
  rw [Fin.val_ofNat, Nat.mul_add_div (by omega), Nat.div_eq_of_lt hi, Nat.add_zero, Nat.mod_eq_of_lt r.isLt]

theorem ofNat_column {n : Nat} [NeZero n] (r : Nat) (i : Fin n) : Fin.ofNat n (n * r + i.val) = i := by
  apply Fin.ext
  rw [Fin.val_ofNat, Nat.mul_add_mod, Nat.mod_eq_of_lt i.isLt]

theorem ofNat_word {n : Nat} [NeZero n] (k : Fin n) : Fin.ofNat n (4 * k.val / 4) = k := by
  rw [Nat.mul_div_cancel_left _ (by decide), Fin.ofNat_val_eq_self]

theorem htcByte_cell (s : State) (slot : Fin 8) (i : Fin 16) : htcByte s (16 * slot.val + i.val) = s.htc[slot][i] := by
  simp only [htcByte, ofNat_row slot i.isLt, ofNat_column]

theorem htsByte_cell (s : State) (slot : Fin 8) (j : Fin 256) : htsByte s (256 * slot.val + j.val) = s.hts[slot][j] := by
  simp only [htsByte, ofNat_row slot j.isLt, ofNat_column]

theorem qteHalf_cell (s : State) (u : Fin 4) (k : Fin 64) : qteHalf s (64 * u.val + k.val) = s.qte[u][k] := by
  simp only [qteHalf, ofNat_row u k.isLt, ofNat_column]

theorem sampleByte_cell (s : State) (n : Fin 64) : sampleByte s n.val = s.sample[n] := by
  simp only [sampleByte, Fin.ofNat_val_eq_self]

/-! #### Reads of storages (O54) -/

theorem windowRead_htc (s : State) {n : Nat} (h : n < 0x80) : windowRead s (0x1000 + n) = packBytes (htcByte s) n := by
  simp (disch := omega) only [windowRead, if_pos, if_neg, Nat.add_sub_cancel_left]

theorem windowRead_hts (s : State) {n : Nat} (h : n < 0x800) : windowRead s (0x1800 + n) = packBytes (htsByte s) n := by
  simp (disch := omega) only [windowRead, if_pos, if_neg, Nat.add_sub_cancel_left]

theorem windowRead_qte (s : State) {n : Nat} (h : n < 0x200) :
    windowRead s (0x2000 + n) = packHalves (qteHalf s) (n / 2) := by
  simp (disch := omega) only [windowRead, if_pos, if_neg, Nat.add_sub_cancel_left]

theorem windowRead_du (s : State) (k : Fin 64) : windowRead s (0x3000 + 4 * k.val) = s.du[k].signExtend 32 := by
  simp (disch := omega) only [windowRead, if_pos, if_neg, Nat.add_sub_cancel_left, ofNat_word]

theorem windowRead_blk (s : State) (k : Fin 64) : windowRead s (0x3100 + 4 * k.val) = s.blk[k] := by
  simp (disch := omega) only [windowRead, if_pos, if_neg, Nat.add_sub_cancel_left, ofNat_word]

theorem windowRead_sample (s : State) {n : Nat} (h : n < 0x40) :
    windowRead s (0x3200 + n) = packBytes (sampleByte s) n := by
  simp (disch := omega) only [windowRead, if_pos, if_neg, Nat.add_sub_cancel_left]

theorem windowRead_ecs (s : State) (a : Nat) : windowRead s (0x10000 + a) = packBytes s.ecs.read a := by
  simp (disch := omega) only [windowRead, if_neg, Nat.add_sub_cancel_left]

/-- The unmapped offsets from 0x1000 on (R67). -/
theorem windowRead_unmapped (s : State) {off : Nat}
    (h : (0x1080 ≤ off ∧ off < 0x1800) ∨ (0x2200 ≤ off ∧ off < 0x3000) ∨ (0x3240 ≤ off ∧ off < 0x10000)) :
    windowRead s off = 0#32 := by
  rcases h with h | h | h <;> simp (disch := omega) only [windowRead, if_pos, if_neg]

/-- Settles O54: the word of each range, and the cell at each place of the word. -/
theorem hostReadsStorages : Obligations.HostReadsStorages := by
  intro s off rest hbusy hp ha hlo hhi
  refine ⟨_, read_idle hbusy hp ha hhi, rfl, ?htc, ?hts, ?qte, ?du, ?blk, ?sample, ?ecs, windowRead_unmapped _⟩
  case htc =>
    rintro slot m b rfl
    rw [Nat.add_assoc, windowRead_htc _ (by omega), packBytes_byte, Nat.add_assoc]
    exact htcByte_cell _ slot ⟨4 * m.val + b.val, by omega⟩
  case hts =>
    rintro slot m b rfl
    rw [Nat.add_assoc, windowRead_hts _ (by omega), packBytes_byte, Nat.add_assoc]
    exact htsByte_cell _ slot ⟨4 * m.val + b.val, by omega⟩
  case qte =>
    rintro u m h rfl
    rw [Nat.add_assoc, windowRead_qte _ (by omega), packHalves_half,
      show (128 * u.val + 4 * m.val) / 2 + h.val = 64 * u.val + (2 * m.val + h.val) by omega]
    exact qteHalf_cell _ u ⟨2 * m.val + h.val, by omega⟩
  case du =>
    rintro k rfl
    rw [windowRead_du]
    exact BitVec.toInt_signExtend_of_le (by decide)
  case blk =>
    rintro k rfl
    exact windowRead_blk _ k
  case sample =>
    rintro m b rfl
    rw [windowRead_sample _ (by omega), packBytes_byte]
    exact sampleByte_cell _ ⟨4 * m.val + b.val, by omega⟩
  case ecs =>
    rintro a b rfl
    rw [windowRead_ecs, packBytes_byte]

/-! #### Writes of registers (O57) -/

/-- The read-only registers, SAMPLE and the unmapped offsets (R66, R67). -/
theorem windowWrite_ignored (s : State) {off : Nat} (v : Word)
    (h : off = 0x000 ∨ off = 0x00C ∨ off = 0x010 ∨ off = 0x014 ∨ off = 0x018 ∨ (0x024 ≤ off ∧ off < 0x1000) ∨
      (0x1080 ≤ off ∧ off < 0x1800) ∨ (0x2200 ≤ off ∧ off < 0x3000) ∨ (0x3200 ≤ off ∧ off < 0x10000)) :
    windowWrite s off v = s := by
  rcases windowWrite_cases s off v with e | e
  · exact e
  · omega

/-- Settles O57: the three registers that store, and the offsets of `windowWrite_ignored`. -/
theorem hostWritesRegisters : Obligations.HostWritesRegisters := by
  intro s off v rest hbusy hp
  refine ⟨?_, ?_, ?_, ?ignored⟩
  case ignored =>
    intro ha h
    rw [write_idle hbusy hp ha (by omega), windowWrite_ignored _ v h]
  all_goals
    rintro rfl
    exact write_idle hbusy hp (by decide) (by omega)

/-! #### Writes of table storages (O58) -/

theorem windowWrite_htc (s : State) {n : Nat} (v : Word) (h : n < 0x80) :
    windowWrite s (0x1000 + n) v = writeHtc s n v := by
  simp (disch := omega) only [windowWrite, if_pos, if_neg, Nat.add_sub_cancel_left]

theorem windowWrite_hts (s : State) {n : Nat} (v : Word) (h : n < 0x800) :
    windowWrite s (0x1800 + n) v = writeHts s n v := by
  simp (disch := omega) only [windowWrite, if_pos, if_neg, Nat.add_sub_cancel_left]

theorem windowWrite_qte (s : State) {n : Nat} (v : Word) (h : n < 0x200) :
    windowWrite s (0x2000 + n) v = writeQte s (n / 2) v := by
  simp (disch := omega) only [windowWrite, if_pos, if_neg, Nat.add_sub_cancel_left]

theorem writeHtc_row (s : State) (slot : Fin 8) {i : Nat} (hi : i < 16) (v : Word) :
    writeHtc s (16 * slot.val + i) v =
      { s with htc := s.htc.set slot.val (setBytes s.htc[slot] i v), htv := s.htv.set slot.val false } := by
  simp only [writeHtc, ofNat_row slot hi, Nat.mul_add_mod, Nat.mod_eq_of_lt hi]

theorem writeHts_row (s : State) (slot : Fin 8) {j : Nat} (hj : j < 256) (v : Word) :
    writeHts s (256 * slot.val + j) v =
      { s with hts := s.hts.set slot.val (setBytes s.hts[slot] j v), htv := s.htv.set slot.val false } := by
  simp only [writeHts, ofNat_row slot hj, Nat.mul_add_mod, Nat.mod_eq_of_lt hj]

theorem writeQte_row (s : State) (u : Fin 4) {k : Nat} (hk : k < 64) (v : Word) :
    writeQte s (64 * u.val + k) v =
      { s with qte := s.qte.set u.val (setHalves s.qte[u] k v), qtv := s.qtv.set u.val false } := by
  simp only [writeQte, ofNat_row u hk, Nat.mul_add_mod, Nat.mod_eq_of_lt hk]

/-- The rows after word `m` of row `q` is stored as four bytes (R63). -/
theorem set_setBytes_cell {k n : Nat} (rows : Vector (Vector Byte n) k) (q r : Fin k) (i : Fin n) (m : Nat) (v : Word) :
    (rows.set q.val (setBytes rows[q] (4 * m) v))[r][i] =
      if r = q ∧ i.val / 4 = m then v.extractLsb' (8 * (i.val % 4)) 8 else rows[r][i] := by
  by_cases hr : q = r
  · subst hr
    have h := setBytes_get rows[q] (4 * m) v i.val i.isLt (by omega)
    rw [Nat.mul_div_cancel_left m (by decide)] at h
    simpa using h
  · simp [Fin.val_inj, hr, Ne.symm hr]

/-- The rows after word `m` of row `q` is stored as two entries (R63). -/
theorem set_setHalves_cell {k n : Nat} (rows : Vector (Vector Half n) k) (q r : Fin k) (i : Fin n) (m : Nat) (v : Word) :
    (rows.set q.val (setHalves rows[q] (2 * m) v))[r][i] =
      if r = q ∧ i.val / 2 = m then v.extractLsb' (16 * (i.val % 2)) 16 else rows[r][i] := by
  by_cases hr : q = r
  · subst hr
    have h := setHalves_get rows[q] (2 * m) v i.val i.isLt (by omega)
    rw [Nat.mul_div_cancel_left m (by decide)] at h
    simpa using h
  · simp [Fin.val_inj, hr, Ne.symm hr]

/-- Settles O58: the row each write sets, and its cells. -/
theorem hostWritesTables : Obligations.HostWritesTables := by
  intro s v rest hbusy
  refine ⟨fun slot m hp => ?_, fun slot m hp => ?_, fun u m hp => ?_⟩
  · have hs := write_idle hbusy hp (by omega) (by omega)
    rw [Nat.add_assoc, windowWrite_htc _ v (by omega), writeHtc_row _ slot (by omega)] at hs
    exact ⟨_, hs, rfl, fun r i => set_setBytes_cell s.htc slot r i m.val v⟩
  · have hs := write_idle hbusy hp (by omega) (by omega)
    rw [Nat.add_assoc, windowWrite_hts _ v (by omega), writeHts_row _ slot (by omega)] at hs
    exact ⟨_, hs, rfl, fun r j => set_setBytes_cell s.hts slot r j m.val v⟩
  · have hs := write_idle hbusy hp (by omega) (by omega)
    rw [Nat.add_assoc, windowWrite_qte _ v (by omega),
      show (128 * u.val + 4 * m.val) / 2 = 64 * u.val + 2 * m.val by omega, writeQte_row _ u (by omega)] at hs
    exact ⟨_, hs, rfl, fun r k => set_setHalves_cell s.qte u r k m.val v⟩

/-! #### Writes of DU, BLK and the ECS buffer (O59, O60) -/

theorem windowWrite_du (s : State) (k : Fin 64) (v : Word) :
    windowWrite s (0x3000 + 4 * k.val) v = { s with du := s.du.set k.val (v.extractLsb' 0 16) } := by
  rw [← BitVec.setWidth_eq_extractLsb' (by decide)]
  simp (disch := omega) only [windowWrite, if_pos, if_neg, Nat.add_sub_cancel_left, ofNat_word]

theorem windowWrite_blk (s : State) (k : Fin 64) (v : Word) :
    windowWrite s (0x3100 + 4 * k.val) v = { s with blk := s.blk.set k.val v } := by
  simp (disch := omega) only [windowWrite, if_pos, if_neg, Nat.add_sub_cancel_left, ofNat_word]

theorem windowWrite_ecs (s : State) (a : Nat) (v : Word) : windowWrite s (0x10000 + a) v = writeEcs s a v := by
  simp (disch := omega) only [windowWrite, if_neg, Nat.add_sub_cancel_left]

/-- The one entry a write sets, and the others. -/
theorem set_entry {α : Type} {n : Nat} (row : Vector α n) (k : Fin n) (x : α) :
    (row.set k.val x)[k] = x ∧ ∀ j : Fin n, j ≠ k → (row.set k.val x)[j] = row[j] :=
  ⟨by simp, fun _ hj => by simp [Fin.val_inj, hj.symm]⟩

/-- Settles O59: the entry each write sets. -/
theorem hostWritesBuffers : Obligations.HostWritesBuffers := by
  intro s v k rest hbusy
  constructor <;> intro hp
  · have hs := write_idle hbusy hp (by omega) (by omega)
    rw [windowWrite_du] at hs
    exact ⟨_, hs, rfl, set_entry s.du k _⟩
  · have hs := write_idle hbusy hp (by omega) (by omega)
    rw [windowWrite_blk] at hs
    exact ⟨_, hs, rfl, set_entry s.blk k v⟩

/-- Settles O60: by the rules on a word write; the offset is aligned, so the whole word lies in the buffer. -/
theorem hostWritesEcsBuffer : Obligations.HostWritesEcsBuffer := by
  intro s a v rest hbusy hwf ha hin hp
  have hsize := s.ecs.size_bounds
  have hword : a + 3 < s.ecs.size := by omega
  have hs := write_idle hbusy hp (by omega) (by omega)
  rw [windowWrite_ecs] at hs
  exact ⟨_, hs, rfl, Memory.writeWord_wf v hword hwf, rfl, Memory.read_writeWord v hword hwf⟩

end Sys2Proof.Machine

/-! ### O1 to O4: command words

Which row of the opcode map is a command's (`rowOf`), so that decoding to it is that row's test and fields alone; the
fields as bits of the word, which with the row's mask give the word back; and the illegal words, row by row. -/

namespace Sys2Proof.Machine

/-! #### The row of a command (O2) -/

/-- The row of the opcode map a command belongs to (30_encoding.md R89). -/
def rowOf : Instr → OpcodeRow
  | .nop => opcodeMap[0]
  | .htBuild _ => opcodeMap[1]
  | .qtSet _ _ => opcodeMap[2]
  | .bsInit => opcodeMap[3]
  | .bsRead _ => opcodeMap[4]
  | .bsAlign => opcodeMap[5]
  | .bsPeek => opcodeMap[6]
  | .hufDecode _ => opcodeMap[7]
  | .duDecode _ _ _ _ => opcodeMap[8]
  | .predReset => opcodeMap[9]
  | .bsRestart => opcodeMap[10]
  | .dequant _ => opcodeMap[11]
  | .idct => opcodeMap[12]

theorem rowOf_mem (i : Instr) : rowOf i ∈ opcodeMap := by
  cases i <;> exact List.getElem_mem _

theorem rowOf_build : ∀ r ∈ opcodeMap, ∀ w, rowOf (r.build w) = r := by
  simp [opcodeMap, rowOf]

/-- No row but that of `i` builds `i`. -/
theorem decode_iff_rowOf (w : Word) (i : Instr) : decode w = .ok i ↔
    w &&& (rowOf i).mask = (rowOf i).value ∧ (rowOf i).build w = i ∧ i.wellFormed = true := by
  rw [decode_iff]
  constructor
  · rintro ⟨r, hr, hm, hwf, rfl⟩
    rw [rowOf_build r hr]
    exact ⟨hm, rfl, hwf⟩
  · rintro ⟨hm, hb, hwf⟩
    exact ⟨rowOf i, rowOf_mem i, hm, by rwa [hb], hb⟩

theorem precField_eq (w : Word) (p : Precision) : precField w = p ↔ (p = .sixteen ↔ w.getLsbD 12 = true) := by
  unfold precField
  split <;> cases p <;> simp_all

/-- Settles O2: the row's test and its fields, each as its bits (`finField_eq`, `precField_eq`). -/
theorem decodeFollowsOpcodeMap : Obligations.DecodeFollowsOpcodeMap := by
  intro w i
  have slotField (x : Fin 8) : finField w 8 8 = x ↔ x.val = (w.extractLsb' 8 3).toNat := finField_eq (m := 3) rfl x
  have countField (x : Fin 32) : finField w 8 32 = x ↔ x.val = (w.extractLsb' 8 5).toNat := finField_eq (m := 5) rfl x
  have pairField (lo : Nat) (x : Fin 4) : finField w lo 4 = x ↔ x.val = (w.extractLsb' lo 2).toNat :=
    finField_eq (m := 2) rfl x
  rw [decode_iff_rowOf]
  cases i with
  | htBuild | hufDecode => simp [rowOf, opcodeMap, Instr.wellFormed, slotField, -BitVec.extractLsb'_toNat]
  | bsRead => simp [rowOf, opcodeMap, Instr.wellFormed, countField, -BitVec.extractLsb'_toNat]
  | qtSet => simp [rowOf, opcodeMap, Instr.wellFormed, pairField, precField_eq, -BitVec.extractLsb'_toNat]
  | dequant => simp [rowOf, opcodeMap, Instr.wellFormed, pairField, -BitVec.extractLsb'_toNat]
  | duDecode p d a o =>
    simp [rowOf, opcodeMap, Instr.wellFormed, pairField, dcSlot, acSlot, eq_comm (a := o), -BitVec.extractLsb'_toNat]
  | _ => simp [rowOf, opcodeMap, Instr.wellFormed]

/-! #### A row's fields and its mask give the word (O1) -/

theorem getLsbD_eq_of_finField_eq {w v : Word} {lo n m j : Nat} [NeZero n] (hn : n = 2 ^ m)
    (h : finField w lo n = finField v lo n) (hj : lo ≤ j ∧ j < lo + m) : w.getLsbD j = v.getLsbD j := by
  have hbits : w.extractLsb' lo m = v.extractLsb' lo m :=
    BitVec.eq_of_toNat_eq (((finField_eq hn _).1 h).symm.trans ((finField_eq hn _).1 rfl))
  have hbit := congrArg (fun x => x.getLsbD (j - lo)) hbits
  simpa [BitVec.getLsbD_extractLsb', show j - lo < m by omega, Nat.add_sub_cancel' hj.1] using hbit

theorem getLsbD_eq_of_precField_eq {w v : Word} (h : precField w = precField v) : w.getLsbD 12 = v.getLsbD 12 := by
  rw [precField_eq] at h
  simpa [precField] using h.symm

/-- Words that agree under a mask and at each bit the mask leaves open are equal. -/
theorem eq_of_and_mask_eq {w v mask : Word} (h : w &&& mask = v &&& mask)
    (hopen : ∀ j < 32, mask.getLsbD j = false → w.getLsbD j = v.getLsbD j) : w = v := by
  apply BitVec.eq_of_getLsbD_eq
  intro j hj
  cases hm : mask.getLsbD j with
  | false => exact hopen j hj hm
  | true => simpa [-BitVec.getLsbD_eq_getElem, hm] using congrArg (fun x => x.getLsbD j) h

/-- The formats with one field (FS, FQ, FN): the mask leaves no bit open but the field's. -/
theorem eq_of_mask_of_field {w v mask : Word} {lo n m : Nat} [NeZero n] (hn : n = 2 ^ m)
    (hopen : ∀ j < 32, mask.getLsbD j = false → lo ≤ j ∧ j < lo + m) (h : w &&& mask = v &&& mask)
    (hf : finField w lo n = finField v lo n) : w = v :=
  eq_of_and_mask_eq h fun j hj hz => getLsbD_eq_of_finField_eq hn hf (hopen j hj hz)

/-- Every bit of a word is under its row's mask or in one of its fields (R82 to R88). -/
theorem word_eq_of_row (i : Instr) {w v : Word} (hm : w &&& (rowOf i).mask = v &&& (rowOf i).mask)
    (hb : (rowOf i).build w = (rowOf i).build v) : w = v := by
  cases i with
  | htBuild =>
    exact eq_of_mask_of_field (mask := 0xFFFFF8FF#32) (m := 3) rfl (by decide) hm (Instr.htBuild.inj hb)
  | hufDecode =>
    exact eq_of_mask_of_field (mask := 0xFFFFF8FF#32) (m := 3) rfl (by decide) hm (Instr.hufDecode.inj hb)
  | bsRead =>
    exact eq_of_mask_of_field (mask := 0xFFFFE0FF#32) (m := 5) rfl (by decide) hm (Instr.bsRead.inj hb)
  | dequant =>
    exact eq_of_mask_of_field (mask := 0xFFFFFCFF#32) (m := 2) rfl (by decide) hm (Instr.dequant.inj hb)
  | qtSet =>
    obtain ⟨hqt, hprec⟩ := Instr.qtSet.inj hb
    have hopen : ∀ j < 32, (0xFFFFECFF#32).getLsbD j = false → (8 ≤ j ∧ j < 8 + 2) ∨ j = 12 := by decide
    refine eq_of_and_mask_eq hm fun j hj hz => ?_
    rcases hopen j hj hz with hj | rfl
    · exact getLsbD_eq_of_finField_eq rfl hqt hj
    · exact getLsbD_eq_of_precField_eq hprec
  | duDecode =>
    obtain ⟨hpred, hdct, hact, hdcOnly⟩ := Instr.duDecode.inj hb
    have hopen : ∀ j < 32, (0xFFECCCFF#32).getLsbD j = false →
        (8 ≤ j ∧ j < 8 + 2) ∨ (12 ≤ j ∧ j < 12 + 2) ∨ (16 ≤ j ∧ j < 16 + 2) ∨ j = 20 := by decide
    refine eq_of_and_mask_eq hm fun j hj hz => ?_
    rcases hopen j hj hz with hj | hj | hj | rfl
    · exact getLsbD_eq_of_finField_eq rfl hpred hj
    · exact getLsbD_eq_of_finField_eq rfl hdct hj
    · exact getLsbD_eq_of_finField_eq rfl hact hj
    · exact hdcOnly
  | _ => exact BitVec.and_allOnes.symm.trans (hm.trans BitVec.and_allOnes)

/-- The encoder's word passes its command's row and carries the operands in the fields (R92). -/
theorem encode_row (i : Instr) : encode i &&& (rowOf i).mask = (rowOf i).value ∧ (rowOf i).build (encode i) = i := by
  cases i with
  | htBuild x | hufDecode x | bsRead x | dequant x => revert x; decide
  | qtSet qt prec => cases prec <;> (revert qt; decide)
  | duDecode pred dct act dcOnly => revert pred dct act dcOnly; decide +kernel
  | _ => decide

/-- Settles O1: the encoder's word meets the row of its command, and no other word does with the same fields. -/
theorem decodeInvertsEncode : Obligations.DecodeInvertsEncode := by
  intro w i
  obtain ⟨hmask, hbuild⟩ := encode_row i
  rw [decode_iff_rowOf]
  constructor
  · rintro ⟨hm, hb, hwf⟩
    exact ⟨hwf, word_eq_of_row i (hmask.trans hm.symm) (hbuild.trans hb.symm)⟩
  · rintro ⟨hwf, rfl⟩
    exact ⟨hmask, hbuild, hwf⟩

/-! #### Illegal words (O3) -/

theorem decode_error_iff (w : Word) : (∃ e, decode w = .error e) ↔ ¬ ∃ i, decode w = .ok i := by
  cases decode w <;> simp

/-- A row's mask and value, put together from its must-be-zero bits and its OPC (R81 to R87). -/
theorem rows_split : ∀ r ∈ opcodeMap, r.mask = (r.mask &&& 0xFFFFFF00#32) ||| 0xFF#32 ∧
    r.value = (r.value.setWidth 8).setWidth 32 := by
  simp [opcodeMap]

/-- A row's test is its OPC test and its must-be-zero test. -/
theorem row_iff {r : OpcodeRow} (hr : r ∈ opcodeMap) (w : Word) : w &&& r.mask = r.value ↔
    w.extractLsb' 0 8 = r.value.setWidth 8 ∧ w &&& (r.mask &&& 0xFFFFFF00#32) = 0#32 := by
  obtain ⟨hmask, hvalue⟩ := rows_split r hr
  rw [← mask_iff w _ _ (by simp [BitVec.and_assoc]), ← hmask, ← hvalue]

theorem row_eq_of_opcode {r r' : OpcodeRow} (hr : r ∈ opcodeMap) (hr' : r' ∈ opcodeMap)
    (h : r.value.setWidth 8 = r'.value.setWidth 8) : r = r' := by
  refine List.inj_on_of_nodup_map (List.pairwise_map.2 rows_inj) hr hr' ?_
  rw [(rows_split r hr).2, h, ← (rows_split r' hr').2]

theorem decode_error_of_unassigned {w : Word} (h : ∀ r ∈ opcodeMap, w.extractLsb' 0 8 ≠ r.value.setWidth 8) :
    ∃ e, decode w = .error e := by
  rw [decode_error_iff]
  rintro ⟨i, hi⟩
  obtain ⟨r, hr, hm, -⟩ := (decode_iff w i).1 hi
  exact h r hr ((row_iff hr w).1 hm).1

/-- With the OPC of a row only that row can be met, so the word is illegal by its must-be-zero bits or its count. -/
theorem decode_error_of_opcode {w : Word} {r : OpcodeRow} (hr : r ∈ opcodeMap)
    (ho : w.extractLsb' 0 8 = r.value.setWidth 8) : (∃ e, decode w = .error e) ↔
      w &&& (r.mask &&& 0xFFFFFF00#32) ≠ 0#32 ∨ (r.build w).wellFormed = false := by
  rw [decode_error_iff, ← not_iff_not, not_not, not_or, not_not, Bool.not_eq_false]
  constructor
  · rintro ⟨i, hi⟩
    obtain ⟨r', hr', hm, hwf, -⟩ := (decode_iff w i).1 hi
    obtain ⟨ho', hz⟩ := (row_iff hr' w).1 hm
    rw [row_eq_of_opcode hr hr' (ho.symm.trans ho')]
    exact ⟨hz, hwf⟩
  · rintro ⟨hz, hwf⟩
    exact ⟨r.build w, (decode_iff w _).2 ⟨r, hr, (row_iff hr w).2 ⟨ho, hz⟩, hwf, rfl⟩⟩

/-- The count field of BS_READ outside 1..16 (R86, R90). -/
theorem bsRead_illFormed_iff (w : Word) : (Instr.bsRead (finField w 8 32)).wellFormed = false ↔
    w.extractLsb' 8 5 = 0#5 ∨ 16#5 < w.extractLsb' 8 5 := by
  have hval : (finField w 8 32).val = (w.extractLsb' 8 5).toNat := (finField_eq (m := 5) rfl _).1 rfl
  rw [← BitVec.toNat_inj, BitVec.lt_def, ← hval]
  simp only [Instr.wellFormed, BitVec.toNat_ofNat, Bool.and_eq_false_iff, decide_eq_false_iff_not]
  omega

/-- IllegalCommand is raised; where the command is blocked instead, a fault is recorded and `raise` keeps it. -/
theorem engineStep_illegal {s : State} (h : ∃ e, decode s.cmdLatch = .error e) :
    engineStep s = .next (complete (raise .illegalCommand s.bs.pos s)) := by
  obtain ⟨e, he⟩ := h
  cases hb : blocked s with
  | true => simp [engineStep, hb, raise, ((blocked_iff s).1 hb).1]
  | false => simp [engineStep, hb, he]

theorem complete_raise (k : FaultKind) (s : State) : complete (raise k s.bs.pos s) =
    if s.fault then { s with busy := false } else { s.recorded k with busy := false } := by
  unfold raise
  split <;> rfl

/-- Settles O3: a word with no row's OPC is illegal, and with a row's OPC it is so by that row's clause of R90. -/
theorem illegalWordRaisesIllegalCommand : Obligations.IllegalWordRaisesIllegalCommand := by
  intro w opc illegal
  have hillegal : (∃ e, decode w = .error e) ↔ illegal := by
    by_cases hrow : ∃ r ∈ opcodeMap, opc = r.value.setWidth 8
    · obtain ⟨r, hr, ho⟩ := hrow
      rw [decode_error_of_opcode hr ho]
      simp only [opcodeMap, List.mem_cons, List.not_mem_nil, or_false] at hr
      rcases hr with rfl | rfl | rfl | rfl | rfl | rfl | rfl | rfl | rfl | rfl | rfl | rfl | rfl <;>
        dsimp only at ho ⊢ <;> simp [illegal, ho, ↓bsRead_illFormed_iff, Instr.wellFormed]
    · exact iff_of_true (decode_error_of_unassigned (by simpa using hrow)) (.inl (by simpa [opcodeMap] using hrow))
  refine ⟨hillegal, fun s rest hill hbusy hw hn => ?_⟩
  subst hw
  rw [step_engine hn, engineTurn, if_pos hbusy, engineStep_illegal (s := { s with pending := rest }) (hillegal.2 hill),
    complete_raise]
  rfl

/-! #### The spec's vectors (O4) -/

/-- Settles O4: closed words, decoded by evaluation. -/
theorem encodingVectorsDecode : Obligations.EncodingVectorsDecode := by
  unfold Obligations.EncodingVectorsDecode
  decide

end Sys2Proof.Machine

/-! ### O5 to O8, O12: the command cycle

With BUSY = 1 the engine's turn is `engineStep` (`step_engine_busy`): nothing but BUSY for a blocked command, `exec` of
the decoded word where R102 lets it run (`blocked_of_runs`). O8 reads off what each end of the step leaves of BUSY and of
the schedule. -/

namespace Sys2Proof.Machine

/-- On the engine's turn with BUSY = 1 the step is the engine's one step (R101). -/
theorem step_engine_busy {s : State} {rest : List Event} (hn : s.engineNext rest) (hbusy : s.busy = true) :
    step s = engineStep { s with pending := rest } := by
  rw [step_engine hn, engineTurn, if_pos hbusy]

theorem engineStep_blocked {s : State} (hb : blocked s = true) : engineStep s = .next (complete s) := by
  rw [engineStep, if_pos hb]

theorem engineStep_decoded {s : State} {i : Instr} (hb : blocked s = false) (hd : decode s.cmdLatch = .ok i) :
    engineStep s = finish (exec i s) := by
  simp [engineStep, hb, hd]

/-- With no fault recorded every command runs, and NOP and BS_INIT run in any case (R102). -/
theorem blocked_of_runs {s : State} {i : Instr} (hd : decode s.cmdLatch = .ok i)
    (hrun : s.fault = false ∨ i = .nop ∨ i = .bsInit) : blocked s = false := by
  rw [Bool.eq_false_iff, ne_eq, blocked_iff, opcodeOf_of_decode hd]
  rintro ⟨hf, hnop, hinit⟩
  rcases hrun with hrun | rfl | rfl
  · exact Bool.false_ne_true (hrun.symm.trans hf)
  · exact hnop rfl
  · exact hinit rfl

/-- A step of the engine that answers ends with BUSY = 0 and leaves the schedule as it is (R101). -/
theorem engineTurn_completes {s t : State} (h : engineTurn s = .next t) : t.busy = false ∧ t.pending = s.pending := by
  rcases engineTurn_cases h with ⟨hbusy, rfl⟩ | ⟨-, -, rfl⟩ | ⟨-, -, -, rfl⟩ | ⟨-, -, i, u, -, hx, rfl⟩
  · exact ⟨hbusy, rfl⟩
  · exact ⟨rfl, rfl⟩
  · exact ⟨rfl, raise_pending _ _ s⟩
  · have hheld := exec_hostHeld hx
    simp only [State.hostHeld, Prod.mk.injEq] at hheld
    obtain ⟨-, -, -, -, -, -, -, -, hpending, -⟩ := hheld
    exact ⟨rfl, hpending⟩

/-- Settles O8: under the invariant the engine answers, whatever the latched word, and it answers completed. -/
theorem engineStepAlwaysCompletes : Obligations.EngineStepAlwaysCompletes := by
  intro s rest h _ hn
  have hinv : ({ s with pending := rest } : State).Inv := h.congr rfl
  obtain ⟨t, ht⟩ := engineTurn_answers hinv
  exact ⟨t, (step_engine hn).trans ht, engineTurn_completes ht⟩

/-- A write while BUSY = 1 is refused (R68). -/
theorem write_busy {s : State} {off : Nat} {v : Word} {rest : List Event} (hbusy : s.busy = true)
    (h : s.pending = .write 32 off v :: rest) (ha : off % 4 = 0) (hb : off < 0x10000 + s.ecs.size) :
    step s = .refused .hostWriteWhileBusy := by
  rw [step_event h]
  simp [happen, hostWrite, access_ok rfl ha hb, hbusy]

/-- Settles O5: CMD is an aligned offset of the window, so only BUSY can refuse the write. -/
theorem cmdWriteIssuesCommand : Obligations.CmdWriteIssuesCommand := by
  intro s w rest hp
  cases hbusy : s.busy with
  | true => exact write_busy hbusy hp (by decide) (by omega)
  | false => exact write_idle hbusy hp (by decide) (by omega)

/-- Settles O6: with BUSY = 0 the engine's turn is idle, and a command that runs is decoded and executed. -/
theorem stepRunsDecodedInstruction : Obligations.StepRunsDecodedInstruction := by
  intro s i rest hn
  constructor
  · intro hbusy
    simp [step_engine hn, engineTurn, hbusy]
  · intro hbusy hd hrun
    have hb : blocked { s with pending := rest } = false := blocked_of_runs hd hrun
    rw [step_engine_busy hn hbusy, engineStep_decoded hb hd]
    cases exec i { s with pending := rest } <;> rfl

/-- Settles O7: such a command is blocked (`blocked_iff`). -/
theorem blockedCommandChangesOnlyBusy : Obligations.BlockedCommandChangesOnlyBusy := by
  intro s rest hf hbusy hn hnop hinit
  rw [← BitVec.setWidth_eq_extractLsb' (by decide)] at hnop hinit
  have hb : blocked { s with pending := rest } = true := (blocked_iff _).2 ⟨hf, hnop, hinit⟩
  rw [step_engine_busy hn hbusy, engineStep_blocked hb]
  rfl

/-- Settles O12: the word 0 decodes to NOP, which is never blocked, so the step is `exec` of it (O6). -/
theorem nopDoesNothing : Obligations.NopDoesNothing := by
  have hnop : decode 0x00000000#32 = .ok .nop := by decide
  refine ⟨hnop, ⟨.mustBeZero, by decide⟩, fun _ => rfl, fun s rest hbusy hw hn => ?_⟩
  exact (stepRunsDecodedInstruction s .nop rest hn).2 hbusy (hw ▸ hnop) (.inr (.inl rfl))

end Sys2Proof.Machine

/-! ### O13 to O18: the bit source

O13 and O18: a run of fill bytes is skipped (`scanFrom_skips_fill`), and the byte after its last 0xFF decides
(`scanFrom_ff`). O14: what a byte fetch does, by NBITS and by what scanAt finds, gives readBit. O16 is `readBits_spec`
with the frame of the command around it. -/

namespace Sys2Proof.Machine

/-! #### scanAt on the shapes of the window (O13) -/

theorem bytesFrom_eq_cons {m : Memory} {p left : Nat} {x : Byte} {rest : List Byte}
    (h : bytesFrom m p left = x :: rest) : ∃ n, left = n + 1 ∧ m.read p = x ∧ bytesFrom m (p + 1) n = rest := by
  cases left with
  | zero => cases h
  | succ n =>
    rw [bytesFrom_succ, List.cons.injEq] at h
    exact ⟨n, rfl, h⟩

theorem bytesFrom_eq_append {m : Memory} {p left : Nat} {l l' : List Byte} (h : bytesFrom m p left = l ++ l') :
    bytesFrom m (p + l.length) (left - l.length) = l' := by
  induction l generalizing p left with
  | nil => exact h
  | cons x l ih =>
    obtain ⟨n, rfl, -, htail⟩ := bytesFrom_eq_cons h
    rw [List.length_cons, Nat.add_sub_add_right, ← ih htail, Nat.add_assoc, Nat.add_comm 1]

theorem scanFrom_byte {m : Memory} {p left : Nat} (hp : p < m.size) (hx : m.read p ≠ 0xFF#8) :
    scanFrom m (left + 1) p = .ok (.data (m.read p) (p + 1)) := by
  simp [scanFrom, memRead_ok hp, hx]

theorem scanFrom_lone {m : Memory} {p : Nat} (hp : p < m.size) (hx : m.read p = 0xFF#8) :
    scanFrom m 1 p = .ok .endOfWindow := by
  simp [scanFrom, memRead_ok hp, hx]

/-- After 0xFF the next byte of the window decides (41_bitsource.md R111). -/
theorem scanFrom_ff {m : Memory} {p left : Nat} (hp : p + 1 < m.size) (hx : m.read p = 0xFF#8) :
    scanFrom m (left + 2) p =
      if m.read (p + 1) = 0x00#8 then .ok (.data 0xFF#8 (p + 2))
      else if m.read (p + 1) = 0xFF#8 then scanFrom m (left + 1) (p + 1)
      else .ok (.marker (m.read (p + 1)) p (p + 2)) := by
  rw [scanFrom, memRead_ok (by omega), memRead_ok hp]
  simp [hx]

/-- The fill bytes before the last 0xFF of a run are skipped (R111). -/
theorem scanFrom_skips_fill {m : Memory} {p left k : Nat} {rest : List Byte} (hin : left ≠ 0 → p + left ≤ m.size)
    (h : bytesFrom m p left = List.replicate (k + 1) 0xFF#8 ++ rest) :
    scanFrom m left p = scanFrom m (left - k) (p + k) := by
  induction k generalizing p left with
  | zero => rfl
  | succ k ih =>
    obtain ⟨n, rfl, hff, htail⟩ := bytesFrom_eq_cons h
    obtain ⟨n, rfl, hnext, -⟩ := bytesFrom_eq_cons htail
    rw [scanFrom_ff (by omega) hff, if_neg (by simp [hnext]), if_pos hnext, ih (by omega) htail]
    congr 1 <;> omega

/-- Where a byte follows a run of 0xFF, scanAt answers by the run's last 0xFF and that byte (R111). -/
theorem scanFrom_run {m : Memory} {p left k : Nat} {x : Byte} {rest : List Byte} (hx : x ≠ 0xFF#8)
    (hin : left ≠ 0 → p + left ≤ m.size) (h : bytesFrom m p left = List.replicate (k + 1) 0xFF#8 ++ x :: rest) :
    scanFrom m left p = .ok (if x = 0x00#8 then .data 0xFF#8 (p + k + 2) else .marker x (p + k) (p + k + 2)) := by
  have hlast : bytesFrom m (p + k) (left - k) = 0xFF#8 :: x :: rest := by
    rw [List.replicate_succ', List.append_assoc] at h
    simpa using bytesFrom_eq_append h
  rw [scanFrom_skips_fill hin h]
  obtain ⟨n, hn, hff, htail⟩ := bytesFrom_eq_cons hlast
  obtain ⟨n, rfl, rfl, -⟩ := bytesFrom_eq_cons htail
  rw [hn, scanFrom_ff (by omega) hff, if_neg hx]
  split <;> rfl

/-- A window of 0xFF bytes only, or an empty one, is End (R111). -/
theorem scanFrom_only_fill {m : Memory} {p left k : Nat} (hin : left ≠ 0 → p + left ≤ m.size)
    (h : bytesFrom m p left = List.replicate k 0xFF#8) : scanFrom m left p = .ok .endOfWindow := by
  cases k with
  | zero =>
    obtain rfl : left = 0 := by simpa [bytesFrom] using h
    rfl
  | succ k =>
    have hlast : bytesFrom m (p + k) (left - k) = [0xFF#8] := by
      rw [List.replicate_succ'] at h
      simpa using bytesFrom_eq_append h
    rw [scanFrom_skips_fill (rest := []) hin (by simpa using h)]
    obtain ⟨n, hn, hff, htail⟩ := bytesFrom_eq_cons hlast
    obtain rfl : n = 0 := by simpa [bytesFrom] using htail
    rw [hn]
    exact scanFrom_lone (by omega) hff

/-- Settles O13: the window's bytes are those scanFrom goes through, all of them inside the buffer. -/
theorem scanAtClassifiesInput : Obligations.ScanAtClassifiesInput := by
  intro m b hw
  have hin : b.stop.toNat - b.pos.toNat ≠ 0 → b.pos.toNat + (b.stop.toNat - b.pos.toNat) ≤ m.size := by omega
  refine ⟨fun x rest hx h => ?_, fun k rest h => ?_, fun k x rest h0 hF h => ?_, fun k h => ?_⟩ <;>
    rw [windowBytes_eq] at h <;> rw [scanAtPos]
  · obtain ⟨n, hn, rfl, -⟩ := bytesFrom_eq_cons h
    rw [hn]
    exact scanFrom_byte (by omega) hx
  · exact scanFrom_run (by decide) hin h
  · rw [scanFrom_run hF hin h, if_neg h0]
  · exact scanFrom_only_fill hin h

/-! #### readBit (O14) -/

theorem fetchByte_buffered {m : Memory} {b : BitSource} (h : b.nbits ≠ 0#4) : fetchByte m b = .ok b := by
  rw [fetchByte, if_pos h]

theorem fetchByte_data {m : Memory} {b : BitSource} {x : Byte} {q : Nat} (h : b.nbits = 0#4)
    (hs : scanAtPos m b = .ok (.data x q)) :
    fetchByte m b = .ok { b with cur := x, nbits := 8#4, pos := BitVec.ofNat 32 q } := by
  simp [fetchByte, h, hs]

theorem fetchByte_marker {m : Memory} {b : BitSource} {x : Byte} {p q : Nat} (h : b.nbits = 0#4)
    (hs : scanAtPos m b = .ok (.marker x p q)) : fetchByte m b = .error (.raise .truncated) := by
  simp [fetchByte, h, hs]

theorem fetchByte_end {m : Memory} {b : BitSource} (h : b.nbits = 0#4) (hs : scanAtPos m b = .ok .endOfWindow) :
    fetchByte m b = .error (.raise .truncated) := by
  simp [fetchByte, h, hs]

/-- A fetch that answers leaves at least one bit in the buffer, and at most 8 (41_bitsource.md R112). -/
theorem fetchByte_nbits {m : Memory} {b c : BitSource} (h8 : b.nbits.toNat ≤ 8) (h : fetchByte m b = .ok c) :
    1 ≤ c.nbits.toNat ∧ c.nbits.toNat ≤ 8 := by
  unfold fetchByte at h
  split at h
  · next h0 =>
    cases h
    have hne : b.nbits.toNat ≠ 0 := fun hz => h0 (BitVec.eq_of_toNat_eq hz)
    omega
  · split at h <;> cases h
    exact ⟨by simp, by simp⟩

theorem takeBit_nbits {b : BitSource} (h : 1 ≤ b.nbits.toNat) : (takeBit b).2.nbits.toNat = b.nbits.toNat - 1 :=
  BitVec.toNat_sub_of_le h

/-- Settles O14: the bit is taken from what the fetch left. -/
theorem readBitFetchesAndDelivers : Obligations.ReadBitFetchesAndDelivers := by
  intro m b
  refine ⟨fun h0 _ => ?_, fun x q h0 hs => ?_, fun x p q h0 hs => ?_, fun h0 hs => ?_, fun bit b' h8 hr => ?_⟩
  · rw [readBit, fetchByte_buffered h0]
    rfl
  · rw [readBit, fetchByte_data h0 hs]
    simp [takeBit]
  · rw [readBit, fetchByte_marker h0 hs]
  · rw [readBit, fetchByte_end h0 hs]
  · unfold readBit at hr
    split at hr
    · cases hr
    · next c hc =>
      obtain ⟨hlo, hhi⟩ := fetchByte_nbits h8 hc
      cases hr
      exact (takeBit_nbits hlo).trans_le (by omega)

/-! #### BS_INIT (O15) -/

/-- Settles O15: `windowFits_iff` decides the window, and the cleared record takes BadWindow as the first fault. -/
theorem bsInitStartsWindow : Obligations.BsInitStartsWindow := by
  refine ⟨by decide, fun s => ⟨fun hfit => ?_, fun hover => ?_⟩⟩
  · have hw : windowFits s = true := (windowFits_iff s).2 hfit
    refine ⟨s.ecsStart + s.ecsLen, windowEnd_toNat hw, ?_⟩
    rw [exec, execBsInit, if_pos hw]
    rfl
  · have hw : ¬ windowFits s = true := fun hw => by rw [windowFits_iff] at hw; omega
    rw [exec, execBsInit, if_neg hw, raise_first _ _ rfl]
    rfl

/-! #### BS_READ (O16) -/

/-- The word of a BS_READ with a count in 1..16 is legal (30_encoding.md R86). -/
theorem decode_bsRead {n : Fin 32} (h1 : 1 ≤ n.val) (h16 : n.val ≤ 16) :
    decode (encode (.bsRead n)) = .ok (.bsRead n) :=
  (decodeInvertsEncode _ _).2 ⟨by simp [Instr.wellFormed, h1, h16], rfl⟩

/-- With any other count it is illegal: it passes the row's test and carries a count out of range (R90). -/
theorem decode_bsRead_illegal {n : Fin 32} (h : n.val = 0 ∨ 16 < n.val) :
    ∃ e, decode (encode (.bsRead n)) = .error e := by
  obtain ⟨hmask, hbuild⟩ := encode_row (.bsRead n)
  have hrow := rowOf_mem (.bsRead n)
  obtain ⟨hopcode, -⟩ := (row_iff hrow _).1 hmask
  refine (decode_error_of_opcode hrow hopcode).2 (.inr ?_)
  rw [hbuild]
  simp only [Instr.wellFormed, Bool.and_eq_false_iff, decide_eq_false_iff_not]
  omega

/-- What a stream fault leaves where none was recorded (60_exceptions.md R223, R227). -/
theorem streamFaulted_streamFault (k : FaultKind) {s : State} (hf : s.fault = false) :
    s.streamFaulted k (streamFault k s) := by
  rw [State.streamFaulted, streamFault, raise_first _ _ hf]
  rfl

theorem execBsRead_of_read {n : Fin 32} {s : State} {v : Nat} {b : BitSource} (h1 : 1 ≤ n.val) (h16 : n.val ≤ 16)
    (h : readBits s.ecs n.val s.bs = .ok (v, b)) :
    execBsRead n s = .next { s with bs := b, result := BitVec.ofNat 32 v } := by
  rw [execBsRead, if_pos ⟨h1, h16⟩, h]

theorem execBsRead_of_fault {n : Fin 32} {s : State} {k : FaultKind} (h1 : 1 ≤ n.val) (h16 : n.val ≤ 16)
    (h : readBits s.ecs n.val s.bs = .error (.raise k)) : execBsRead n s = .next (streamFault k s) := by
  rw [execBsRead, if_pos ⟨h1, h16⟩, h]
  rfl

/-- Settles O16: readBits answers the bits or Truncated (`readBits_spec`), and the command adds its frame. -/
theorem bsReadDeliversNextBits : Obligations.BsReadDeliversNextBits := by
  refine ⟨fun n h => decode_bsRead_illegal h, fun n s h1 h16 hf hw h7 => ⟨decode_bsRead h1 h16, ?_, ?_⟩⟩ <;>
    intro hlen <;> have hspec := readBits_spec s.ecs n.val s.bs ⟨hw, by omega⟩
  · rw [if_pos hlen] at hspec
    obtain ⟨b, hread, hunread, hafter⟩ := hspec
    exact ⟨_, execBsRead_of_read h1 h16 hread, rfl, hunread, hafter.delivered, hafter.buffered (.inr h7), rfl⟩
  · rw [if_neg (by omega)] at hspec
    exact ⟨_, execBsRead_of_fault h1 h16 hspec, streamFaulted_streamFault .truncated hf⟩

/-! #### BS_ALIGN and BS_PEEK (O17, O18) -/

/-- Settles O17: NBITS is set to 0 whatever it was. -/
theorem bsAlignDropsBufferedBits : Obligations.BsAlignDropsBufferedBits :=
  ⟨by decide, fun s => ⟨aligned s, rfl, rfl, rfl⟩⟩

theorem execBsPeek_of_scan {s : State} {r : Scan} (h : scanAtPos s.ecs s.bs = .ok r) :
    execBsPeek s = .next { s with result := peekResult r } := by
  rw [execBsPeek, h]

/-- Settles O18: RESULT is what scanAt found, which is O13's by the shape of the window. -/
theorem bsPeekReportsMarker : Obligations.BsPeekReportsMarker := by
  refine ⟨by decide, fun s hw => ?_⟩
  obtain ⟨r, hr⟩ := scanAtPos_ok s.ecs s.bs hw
  have peeked {r' : Scan} (hr' : scanAtPos s.ecs s.bs = .ok r') : peekResult r = peekResult r' := by
    rw [Except.ok.inj (hr.symm.trans hr')]
  obtain ⟨hdata, hstuffed, hmarker, hend⟩ := scanAtClassifiesInput s.ecs s.bs hw
  exact ⟨{ s with result := peekResult r }, execBsPeek_of_scan hr, rfl, fun x rest hx h => peeked (hdata x rest hx h),
    fun k rest h => peeked (hstuffed k rest h), fun k x rest h0 hF h => peeked (hmarker k x rest h0 hF h),
    fun k h => peeked (hend k h)⟩

end Sys2Proof.Machine

/-! ### O19 to O24: Huffman tables

What the loops of canon give, read for a whole slot (R141, R142). Each code is above every extension of every earlier one
(`canonFrom_pairwise`), so of two codes that fit their lengths neither begins with the other: a well-formed slot is a
`GoodTable`. On such a table a walk finds the code at the head of the data, if there is one, and no other (R145). -/

namespace Sys2Proof.Machine

/-! #### The canonical code (O19) -/

theorem symAt_eq_some {syms : Vector Byte 256} {k : Nat} (h : k < 256) : syms[k]? = some (symAt syms k) := by
  simp [symAt, Vector.getD, h]

theorem canon_length (counts : Vector Byte 16) (syms : Vector Byte 256) :
    (canon counts syms).length = ∑ i : Fin 16, (counts[i]).toNat := by
  rw [canon, canonFrom_length, count_eq]

theorem canon_sym {counts : Vector Byte 16} {syms : Vector Byte 256} {k : Nat} {e : CodeEntry}
    (h : (canon counts syms)[k]? = some e) : e.sym = symAt syms k := by
  simpa using canonFrom_sym _ _ _ _ _ _ _ h

theorem canon_len_bounds {counts : Vector Byte 16} {syms : Vector Byte 256} {e : CodeEntry}
    (he : e ∈ canon counts syms) : 1 ≤ e.len ∧ e.len ≤ 16 := by
  obtain ⟨hlo, hhi, -⟩ := canonFrom_len _ _ _ _ _ e he
  exact ⟨hlo, by simpa [Nat.add_comm 1, Nat.lt_succ_iff] using hhi⟩

theorem canon_filter_len (counts : Vector Byte 16) (syms : Vector Byte 256) (i : Fin 16) :
    ((canon counts syms).filter fun e => e.len == i.val + 1).length = (counts[i]).toNat := by
  simpa [canon, Nat.add_comm 1] using canonFrom_filter syms counts.toList 1 0 0 i.val (by simp)

/-- Lengths do not decrease, and each code is above every extension of every earlier one (R141, R144). -/
theorem canon_ordered {counts : Vector Byte 16} {syms : Vector Byte 256} {j k : Nat} {e e' : CodeEntry} (hjk : j < k)
    (hj : (canon counts syms)[j]? = some e) (hk : (canon counts syms)[k]? = some e') :
    e.len ≤ e'.len ∧ e.code < e'.code >>> (e'.len - e.len) := by
  obtain ⟨hj', rfl⟩ := List.getElem?_eq_some_iff.1 hj
  obtain ⟨hk', rfl⟩ := List.getElem?_eq_some_iff.1 hk
  exact List.pairwise_iff_getElem.1 (canonFrom_pairwise _ _ _ _ _) j k hj' hk' hjk

/-- Settles O19: the loops of R141, read from their first length on. -/
theorem canonAssignsCanonicalCodes : Obligations.CanonAssignsCanonicalCodes := by
  intro counts syms hN
  refine ⟨canon_length counts syms, fun k e h => ?_, canon_filter_len counts syms, fun e h => ?_, fun k e e' h h' => ?_⟩
  · obtain ⟨hk, -⟩ := List.getElem?_eq_some_iff.1 h
    rw [canon_length] at hk
    exact ⟨canon_sym h ▸ symAt_eq_some (by omega), canon_len_bounds (List.mem_of_getElem? h)⟩
  · simpa using (canonFrom_head _ _ _ _ _ _ h).2
  · exact ⟨(canon_ordered (Nat.lt_succ_self k) h h').1, canonFrom_next _ _ _ _ _ _ _ _ h h'⟩

/-! #### The Kraft sum (O20) -/

/-- The two conditions of R142, over the sums as the spec writes them. -/
theorem malformedTable_iff (counts : Vector Byte 16) : malformedTable counts = true ↔
    256 < (∑ i : Fin 16, (counts[i]).toNat) ∨ 65536 < ∑ i : Fin 16, (counts[i]).toNat * 2 ^ (15 - i.val) := by
  simp [malformedTable, count_eq, kraft_eq]

theorem canon_fits {counts : Vector Byte 16} {syms : Vector Byte 256} (h : kraft counts ≤ 65536) :
    ∀ e ∈ canon counts syms, e.code < 2 ^ e.len :=
  canonFrom_fit _ _ _ _ _ fun _ => by simpa [kraft] using h

theorem canon_overflows {counts : Vector Byte 16} {syms : Vector Byte 256} (h : 65536 < kraft counts) :
    ∃ e ∈ canon counts syms, 2 ^ e.len ≤ e.code := by
  have hne : counts.toList ≠ [] := List.ne_nil_of_length_pos (by simp)
  exact canonFrom_nofit _ _ _ _ _ (by decide) hne (by simpa [kraft] using h)

theorem kraftFrom_eq_zero {cs : List Byte} (E : Nat) (h : countSum cs = 0) : kraftFrom E cs = 0 := by
  induction cs generalizing E with
  | nil => rfl
  | cons c cs ih =>
    obtain ⟨hc, hcs⟩ := Nat.add_eq_zero_iff.1 h
    rw [kraftFrom, hc, ih _ hcs, Nat.zero_mul]

/-- The inner loop ends at the last of its consecutive codes. -/
theorem codesOfLen_getLast {syms : Vector Byte 256} {len n code k : Nat} {e : CodeEntry}
    (h : (codesOfLen syms len n code k).getLast? = some e) : e.len = len ∧ e.code + 1 = code + n := by
  cases n with
  | zero => cases h
  | succ n =>
    rw [codesOfLen_eq, List.range_succ, List.map_append, List.map_singleton, List.getLast?_concat] at h
    cases h
    exact ⟨rfl, rfl⟩

/-- The code after the last one, extended to `len + E` bits, is `code` so extended and the Kraft weights of all the codes
given (R142). -/
theorem canonFrom_last {syms : Vector Byte 256} {cs : List Byte} {len code k E : Nat} {e : CodeEntry}
    (hE : cs.length ≤ E + 1) (h : (canonFrom syms cs len code k).getLast? = some e) :
    (e.code + 1) * 2 ^ (len + E - e.len) = code * 2 ^ E + kraftFrom E cs := by
  induction cs generalizing len code k E with
  | nil => cases h
  | cons c cs ih =>
    rw [canonFrom, List.getLast?_append] at h
    cases hlast : (canonFrom syms cs (len + 1) (2 * (code + c.toNat)) (k + c.toNat)).getLast? with
    | none =>
      have hcs : countSum cs = 0 := by
        rw [← canonFrom_length, List.getLast?_eq_none_iff.1 hlast, List.length_nil]
      rw [hlast, Option.none_or] at h
      obtain ⟨hlen, hcode⟩ := codesOfLen_getLast h
      rw [hlen, hcode, kraftFrom, kraftFrom_eq_zero _ hcs, Nat.add_sub_cancel_left, Nat.add_zero, Nat.add_mul]
    | some e' =>
      rw [hlast, Option.some_or] at h
      cases h
      cases cs with
      | nil => cases hlast
      | cons d ds =>
        cases E with
        | zero => simp at hE
        | succ E =>
          rw [← Nat.add_assoc, Nat.add_right_comm]
          calc (e.code + 1) * 2 ^ (len + 1 + E - e.len)
              = 2 * (code + c.toNat) * 2 ^ E + kraftFrom E (d :: ds) := ih (by simpa using hE) hlast
            _ = code * 2 ^ (E + 1) + (c.toNat * 2 ^ (E + 1) + kraftFrom E (d :: ds)) := by ring

/-- A complete code ends with the code of all ones (R142). -/
theorem canon_last_of_complete {counts : Vector Byte 16} {syms : Vector Byte 256} {e : CodeEntry}
    (h : kraft counts = 65536) (he : (canon counts syms).getLast? = some e) : e.code + 1 = 2 ^ e.len := by
  have hfill := canonFrom_last (E := 15) (by simp) he
  have hlen := (canon_len_bounds (List.mem_of_getLast? he)).2
  rw [← kraft, h, Nat.zero_mul, Nat.zero_add] at hfill
  have hsplit : 65536 = 2 ^ e.len * 2 ^ (1 + 15 - e.len) := by
    rw [← pow_add, Nat.add_sub_cancel' hlen]
    norm_num
  exact Nat.eq_of_mul_eq_mul_right (by positivity) (hfill.trans hsplit)

/-- Settles O20: the fit of the codes is that of the Kraft sum, which the last code fills. -/
theorem kraftSumDecidesWhetherCodesFit : Obligations.KraftSumDecidesWhetherCodesFit := by
  intro counts syms
  refine ⟨malformedTable_iff counts, ?_⟩
  rw [← kraft_eq]
  exact ⟨canon_fits, canon_overflows, fun h _ => canon_last_of_complete h⟩

/-! #### No code begins with another (O21) -/

theorem kraft_le_of_wellFormed {counts : Vector Byte 16} (h : malformedTable counts = false) : kraft counts ≤ 65536 := by
  simp only [malformedTable, Bool.or_eq_false_iff, decide_eq_false_iff_not, not_lt] at h
  exact h.2

@[simp] theorem CodeEntry.length_bits (e : CodeEntry) : e.bits.length = e.len := length_bitsOf _ _

/-- A code that is below the other's bits at its own length does not begin it (R144). -/
theorem CodeEntry.not_prefix_of_lt {e e' : CodeEntry} (he : e.code < 2 ^ e.len) (he' : e'.code < 2 ^ e'.len)
    (h : e.code < e'.code >>> (e'.len - e.len)) : ¬ e.bits <+: e'.bits := by
  rw [CodeEntry.prefix_bits_iff he', length_bits]
  rintro ⟨-, hbits⟩
  rw [hbits, CodeEntry.bits, valueOf_bitsOf he] at h
  exact lt_irrefl _ h

/-- Of two positions of a slot whose codes fit, neither code begins the other: the later one is not shorter. -/
theorem canon_prefix_free {counts : Vector Byte 16} {syms : Vector Byte 256} (h : kraft counts ≤ 65536) {j k : Nat}
    {e e' : CodeEntry} (hjk : j < k) (hj : (canon counts syms)[j]? = some e) (hk : (canon counts syms)[k]? = some e') :
    ¬ e.bits <+: e'.bits ∧ ¬ e'.bits <+: e.bits := by
  obtain ⟨hlen, hlt⟩ := canon_ordered hjk hj hk
  have hno : ¬ e.bits <+: e'.bits :=
    CodeEntry.not_prefix_of_lt (canon_fits h _ (List.mem_of_getElem? hj)) (canon_fits h _ (List.mem_of_getElem? hk)) hlt
  refine ⟨hno, fun hp => hno ?_⟩
  rw [hp.eq_of_length_le (by simpa using hlen)]

/-- Settles O21: of two different positions one is the earlier. -/
theorem codesArePrefixFree : Obligations.CodesArePrefixFree := by
  intro counts syms hwf j k e e' hj hk hp
  have hkraft := kraft_le_of_wellFormed hwf
  rcases lt_trichotomy j k with hlt | heq | hgt
  · exact absurd hp (canon_prefix_free hkraft hlt hj hk).1
  · exact heq
  · exact absurd hp (canon_prefix_free hkraft hgt hk hj).2

/-! #### The depths of the leaves (O22) -/

theorem canon_countP_depth (counts : Vector Byte 16) (syms : Vector Byte 256) (i : Fin 16) :
    (canon counts syms).countP (fun e => e.bits.length == i.val + 1) = (counts[i]).toNat := by
  simpa [List.countP_eq_length_filter] using canon_filter_len counts syms i

/-- Some leaf is at depth `i + 1` exactly where that length is declared (R147). -/
theorem declared_iff_leaf (counts : Vector Byte 16) (syms : Vector Byte 256) (i : Fin 16) :
    0 < (counts[i]).toNat ↔ ∃ e ∈ canon counts syms, e.bits.length = i.val + 1 := by
  simp only [← canon_countP_depth counts syms, List.countP_pos_iff, beq_iff_eq]

theorem canon_depth_declared {counts : Vector Byte 16} {syms : Vector Byte 256} {e : CodeEntry}
    (he : e ∈ canon counts syms) : ∃ i : Fin 16, e.bits.length = i.val + 1 ∧ 0 < (counts[i]).toNat := by
  obtain ⟨hlo, hhi⟩ := canon_len_bounds he
  have hdepth : e.bits.length = e.len - 1 + 1 := by rw [e.length_bits]; omega
  exact ⟨⟨e.len - 1, by omega⟩, hdepth, (declared_iff_leaf counts syms _).2 ⟨e, he, hdepth⟩⟩

/-- Settles O22: every leaf's depth is a declared length, so none is deeper than the greatest. -/
theorem leavesLieAtDeclaredDepths : Obligations.LeavesLieAtDeclaredDepths := by
  intro counts syms _
  refine ⟨fun e => canon_depth_declared, canon_countP_depth counts syms, fun i hi hmax => ⟨fun e he => ?_, ?_⟩⟩
  · obtain ⟨j, hj, hpos⟩ := canon_depth_declared he
    have hji : ¬ i < j := fun hlt => hpos.ne' (hmax j hlt)
    omega
  · exact (declared_iff_leaf counts syms i).1 hi

/-! #### HT_BUILD (O23) -/

theorem execHtBuild_wellFormed {slot : Fin 8} {s : State} (h : malformedTable s.htc[slot] = false) :
    execHtBuild slot s = .next (setHtv slot true s) := by
  rw [execHtBuild, if_neg (ne_true_of_eq_false h)]

theorem execHtBuild_malformed {slot : Fin 8} {s : State} (h : malformedTable s.htc[slot] = true) :
    execHtBuild slot s = .next (raise .malformedTable s.bs.pos (setHtv slot false s)) := by
  rw [execHtBuild, if_pos h]

/-- Settles O23: the test of the command is R142's, and MalformedTable is the first fault. -/
theorem htBuildChecksAndCommits : Obligations.HtBuildChecksAndCommits := by
  intro slot s hf
  refine ⟨(decodeInvertsEncode _ _).2 ⟨rfl, rfl⟩, ?_⟩
  simp only [← malformedTable_iff]
  cases hm : malformedTable s.htc[slot] with
  | true =>
    rw [if_pos rfl, exec, execHtBuild_malformed hm, raise_first _ _ (s := setHtv slot false s) hf]
    rfl
  | false =>
    rw [if_neg Bool.false_ne_true, exec, execHtBuild_wellFormed hm]
    rfl

/-! #### HUF_DECODE (O24) -/

/-- The codes of a well-formed slot are what the stream's walks need (R142, R144). -/
theorem canon_good {counts : Vector Byte 16} (h : malformedTable counts = false) (syms : Vector Byte 256) :
    GoodTable (canon counts syms) where
  fit e he := ⟨canon_fits (kraft_le_of_wellFormed h) e he, (canon_len_bounds he).2⟩
  pos _ he := (canon_len_bounds he).1
  pf e he e' he' hp := by
    obtain ⟨j, hj⟩ := List.mem_iff_getElem?.1 he
    obtain ⟨k, hk⟩ := List.mem_iff_getElem?.1 he'
    obtain rfl := codesArePrefixFree counts syms h j k e e' hj hk hp
    exact Option.some.inj (hj.symm.trans hk)

section
variable {m : Memory} {table : List CodeEntry} {b : BitSource}

/-- No two codes of such a table stand at the head of the same bits. -/
theorem GoodTable.eq_of_prefix (ht : GoodTable table) {e e' : CodeEntry} (he : e ∈ table) (he' : e' ∈ table)
    {bits : List Bool} (hp : e.bits <+: bits) (hp' : e'.bits <+: bits) : e = e' := by
  rcases List.prefix_or_prefix_of_prefix hp hp' with h | h
  · exact ht.pf e he e' he' h
  · exact (ht.pf e' he' e he h).symm

/-- The walk answers the code at the head of the data (R145). -/
theorem hufWalk_of_code (ht : GoodTable table) (h : b.Good m) {e : CodeEntry} (he : e ∈ table)
    (hp : e.bits <+: unreadBits m b) : ∃ b', hufWalk m table b = .ok (e.sym, b') ∧
      unreadBits m b' = (unreadBits m b).drop e.len ∧ b.After m b' e.len := by
  rcases hufWalk_spec ht.fit ht.pos b h with ⟨e', he', hp', hwalk⟩ | ⟨hno, -⟩ | ⟨hno, -⟩
  · exact ht.eq_of_prefix he he' hp hp' ▸ hwalk
  · exact absurd hp (hno e he)
  · exact absurd hp (hno e he)

/-- Where no code is at the head and the data end within a code, or at once, the walk ends in Truncated (R145). -/
theorem hufWalk_truncated (ht : GoodTable table) (h : b.Good m) (hno : ∀ e ∈ table, ¬ e.bits <+: unreadBits m b)
    (hend : unreadBits m b = [] ∨ ∃ e ∈ table, unreadBits m b <+: e.bits) :
    hufWalk m table b = .error (.raise .truncated) := by
  rcases hufWalk_spec ht.fit ht.pos b h with ⟨e, he, hp, -⟩ | ⟨-, -, hwalk⟩ | ⟨-, hne, hleave, -⟩
  · exact absurd hp (hno e he)
  · exact hwalk
  · rcases hend with hnil | ⟨e, he, hp⟩
    · exact absurd hnil hne
    · exact absurd hp (hleave e he)

/-- Where the data leave the tree, the walk ends in MalformedBitStream (R145). -/
theorem hufWalk_malformed (ht : GoodTable table) (h : b.Good m) (hno : ∀ e ∈ table, ¬ e.bits <+: unreadBits m b)
    (hne : unreadBits m b ≠ []) (hleave : ∀ e ∈ table, ¬ unreadBits m b <+: e.bits) :
    hufWalk m table b = .error (.raise .malformedBitStream) := by
  rcases hufWalk_spec ht.fit ht.pos b h with ⟨e, he, hp, -⟩ | ⟨-, hnil | ⟨e, he, hp⟩, -⟩ | ⟨-, -, -, hwalk⟩
  · exact absurd hp (hno e he)
  · exact absurd hnil hne
  · exact absurd hp (hleave e he)
  · exact hwalk

end

theorem execHufDecode_missing {slot : Fin 8} {s : State} (hv : s.htv[slot] = false) :
    execHufDecode slot s = .next (raise .tableMissing s.bs.pos s) := by
  rw [execHufDecode, if_pos hv]

theorem execHufDecode_of_walk {slot : Fin 8} {s : State} {sym : Byte} {b : BitSource} (hv : s.htv[slot] = true)
    (h : hufWalk s.ecs (slotCode s slot) s.bs = .ok (sym, b)) :
    execHufDecode slot s = .next { s with bs := b, result := sym.setWidth 32 } := by
  rw [execHufDecode, if_neg (ne_false_of_eq_true hv), h]

theorem execHufDecode_of_fault {slot : Fin 8} {s : State} {k : FaultKind} (hv : s.htv[slot] = true)
    (h : hufWalk s.ecs (slotCode s slot) s.bs = .error (.raise k)) : execHufDecode slot s = .next (streamFault k s) := by
  rw [execHufDecode, if_neg (ne_false_of_eq_true hv), h]
  rfl

/-- Settles O24: a valid slot is well-formed (the invariant), so the walk answers by the code at the head of the data, and
the command adds its frame. -/
theorem hufDecodeReadsOneSymbol : Obligations.HufDecodeReadsOneSymbol := by
  intro slot s hinv hf
  refine ⟨(decodeInvertsEncode _ _).2 ⟨rfl, rfl⟩, fun hv => ?_, fun hv => ?_⟩
  · rw [exec, execHufDecode_missing hv, raise_first _ _ hf]
    rfl
  · have hbs := hinv.good hf
    have ht : GoodTable (slotCode s slot) := canon_good (hinv.builtTables slot hv) _
    refine ⟨fun e he hp => ?_, fun hno hend => ?_, fun hno hne hleave => ?_⟩
    · obtain ⟨b, hwalk, hunread, hafter⟩ := hufWalk_of_code ht hbs he hp
      exact ⟨_, execHufDecode_of_walk hv hwalk, rfl, hunread, hafter.delivered, rfl⟩
    · exact ⟨_, execHufDecode_of_fault hv (hufWalk_truncated ht hbs hno hend), streamFaulted_streamFault .truncated hf⟩
    · exact ⟨_, execHufDecode_of_fault hv (hufWalk_malformed ht hbs hno hne hleave),
        streamFaulted_streamFault .malformedBitStream hf⟩

end Sys2Proof.Machine

/-! ### O25 to O28: quantization and the zig-zag order

A product of a coefficient and an entry fits its word (`toInt_scaled`, R164). ZZ undoes NAT (`zz_natIndex`, R161), so in
zig-zag order BLK holds the products of like positions, and dividing by an entry that is not 0 gives the coefficient back
(R165). -/

namespace Sys2Proof.Machine

/-! #### The zig-zag tables (O25) -/

@[simp] theorem zz_natIndex (k : Fin 64) : zz (natIndex k) = k := by revert k; decide

@[simp] theorem natIndex_zz (n : Fin 64) : natIndex (zz n) = n := by revert n; decide

/-- Settles O25: the tables are finite, and so is the check of each. -/
theorem zigzagTablesAreInverse : Obligations.ZigzagTablesAreInverse :=
  ⟨by decide, by decide, zz_natIndex, natIndex_zz, by decide, by decide⟩

/-! #### QT_SET (O26) -/

theorem getElem_committed (prec : Precision) (q : Vector Half 64) (k : Fin 64) :
    (committed prec q)[k] = if prec = .eight then q[k] &&& 0xFF#16 else q[k] := by
  cases prec with
  | eight => simp [committed]
  | sixteen => rfl

/-- Settles O26: the word is the encoder's at either precision, and of QTE only the committed table is written. -/
theorem qtSetCommitsTable : Obligations.QtSetCommitsTable := by
  intro qt prec s
  have hword : encode (.qtSet qt prec) =
      BitVec.ofNat 32 (0x11 + qt.val * 2 ^ 8 + (if prec = .sixteen then 2 ^ 12 else 0)) := by cases prec <;> rfl
  refine ⟨(decodeInvertsEncode _ _).2 ⟨rfl, hword⟩, _, rfl, fun k => ?_, fun u hu => ?_, rfl⟩
  · simp only [Fin.getElem_fin, Vector.getElem_set_self]
    exact getElem_committed prec _ k
  · exact Vector.getElem_set_ne qt.isLt u.isLt fun h => hu (Fin.ext h.symm)

/-! #### DEQUANT (O27, O28) -/

/-- The product of a 16-bit coefficient and a 16-bit entry is below 2^31 in size, so the word holds it (R164). -/
theorem toInt_scaled (d q : Half) : (scaled d q).toInt = d.toInt * (q.toNat : Int) := by
  have hd : |d.toInt| ≤ 2 ^ 15 := abs_le.2 ⟨d.le_toInt, d.toInt_lt.le⟩
  have hq : |(q.toNat : Int)| ≤ 2 ^ 16 - 1 := by
    rw [Nat.abs_cast]
    exact Int.le_sub_one_of_lt (by exact_mod_cast q.isLt)
  have hprod : |d.toInt * (q.toNat : Int)| ≤ 2 ^ 15 * (2 ^ 16 - 1) := by
    rw [abs_mul]
    exact mul_le_mul hd hq (abs_nonneg _) (by decide)
  obtain ⟨hlo, hhi⟩ := abs_le.1 hprod
  exact BitVec.toInt_ofInt_eq_self (by decide) (le_trans (by decide) hlo) (lt_of_le_of_lt hhi (by decide))

theorem toInt_getElem_dequantized (du q : Vector Half 64) (n : Fin 64) :
    ((dequantized du q)[n]).toInt = (du[zz n]).toInt * ((q[zz n]).toNat : Int) := by
  rw [dequantized, Fin.getElem_fin, Vector.getElem_ofFn]
  exact toInt_scaled _ _

/-- Read in zig-zag order the block holds the products of like positions (R165). -/
theorem toInt_dequantized_natIndex (du q : Vector Half 64) (k : Fin 64) :
    ((dequantized du q)[natIndex k]).toInt = (du[k]).toInt * ((q[k]).toNat : Int) := by
  simpa only [zz_natIndex] using toInt_getElem_dequantized du q (natIndex k)

theorem execDequant_valid {qt : Fin 4} {s : State} (hv : s.qtv[qt] = true) :
    execDequant qt s = .next { s with blk := dequantized s.du s.qte[qt] } := by
  rw [execDequant, if_pos hv]

theorem execDequant_missing {qt : Fin 4} {s : State} (hv : s.qtv[qt] = false) :
    execDequant qt s = .next (raise .tableMissing s.bs.pos s) := by
  rw [execDequant, if_neg (ne_true_of_eq_false hv)]

/-- Settles O27: a valid table gives the exact products, and TableMissing is the first fault. -/
theorem dequantMultipliesExactly : Obligations.DequantMultipliesExactly := by
  intro qt s
  refine ⟨(decodeInvertsEncode _ _).2 ⟨rfl, rfl⟩, fun hv => ?_, fun hv hf => ?_⟩
  · exact ⟨_, execDequant_valid hv, rfl, toInt_getElem_dequantized _ _⟩
  · rw [exec, execDequant_missing hv, raise_first _ _ hf]
    rfl

/-- Settles O28: BLK[NAT[k]] is DU[k] · QTE[T][k], exactly, because ZZ[NAT[k]] = k. -/
theorem dequantIsRecoveredByDivision : Obligations.DequantIsRecoveredByDivision := by
  intro qt s t hv hx k
  cases (execDequant_valid hv).symm.trans hx
  have hblk := toInt_dequantized_natIndex s.du s.qte[qt] k
  refine ⟨fun hpos => ?_, fun hzero => ?_⟩
  · rw [hblk]
    exact Int.mul_ediv_cancel _ (Int.natCast_pos.2 hpos).ne'
  · refine BitVec.eq_of_toInt_eq ?_
    rw [hblk, hzero]
    exact mul_zero _

end Sys2Proof.Machine

/-! ### O29 to O32: the inverse DCT

IDCT_REF is computed as the floor of a surd. The surd's value is the real sum of R182 (`idctSum_toReal`); that sum stays in
the range of `floorSurd8`, so IDCT_REF is the rounded sum (`idctRef_eq_floor`), from which the double sum of R182, the DC
block and the bounds of IDCT_CORE follow. -/

namespace Sys2Proof.Machine

/-! #### IDCT_REF as a rounded real sum -/

/-- The term of R182's double sum at the natural index `i`, with C and its cosine as one cosine (`basisAngle_cos`). -/
noncomputable def idctRealTerm (f : Vector Word 64) (y x : Nat) (i : Fin 64) : ℝ :=
  (f[i]).toInt * Real.cos (basisAngle x (i.val % 8) * (Real.pi / 16)) *
    Real.cos (basisAngle y (i.val / 8) * (Real.pi / 16))

/-- s(y, x) of R182, its double sum written as one over the natural indices. -/
noncomputable def idctReal (f : Vector Word 64) (y x : Nat) : ℝ := 1 / 4 * ∑ i, idctRealTerm f y x i

/-- The surd of IDCT_REF has the value 16·s(y, x). -/
theorem idctSum_toReal_block (f : Vector Word 64) (y x : Nat) :
    (idctSum y x 0 f.toList).toReal = 16 * idctReal f y x := by
  have hsum : (idctSum y x 0 f.toList).toReal = ∑ i : Fin 64, 4 * idctRealTerm f y x i := by
    rw [idctSum_toReal]
    exact Fintype.sum_equiv (finCongr f.length_toList) _ _ fun i => by simp [idctTerm_toReal, idctRealTerm]
  rw [hsum, ← Finset.mul_sum, idctReal]
  ring

/-- A 32-bit word times two cosines is at most 2^31 in size. -/
theorem abs_idctRealTerm_le (f : Vector Word 64) (y x : Nat) (i : Fin 64) : |idctRealTerm f y x i| ≤ 2 ^ 31 := by
  have hf : |((f[i]).toInt : ℝ)| ≤ 2 ^ 31 := by
    exact_mod_cast abs_le.2 ⟨(f[i]).le_toInt, (f[i]).toInt_lt.le⟩
  rw [idctRealTerm, abs_mul, abs_mul]
  calc |((f[i]).toInt : ℝ)| * |Real.cos _| * |Real.cos _|
      ≤ |((f[i]).toInt : ℝ)| * 1 * 1 := by gcongr <;> exact Real.abs_cos_le_one _
    _ ≤ 2 ^ 31 := by rwa [mul_one, mul_one]

theorem abs_idctReal_le (f : Vector Word 64) (y x : Nat) : |idctReal f y x| ≤ 2 ^ 35 := by
  have hsum : |∑ i, idctRealTerm f y x i| ≤ 64 * 2 ^ 31 :=
    calc |∑ i, idctRealTerm f y x i|
        ≤ ∑ i, |idctRealTerm f y x i| := Finset.abs_sum_le_sum_abs _ _
      _ ≤ ∑ _i : Fin 64, (2 : ℝ) ^ 31 := Finset.sum_le_sum fun i _ => abs_idctRealTerm_le f y x i
      _ = 64 * 2 ^ 31 := by simp
  rw [idctReal, abs_mul, abs_of_pos (by norm_num)]
  linarith

/-- IDCT_REF is s(y, x) rounded half up: the sum is far inside the range of `floorSurd8` (R182). -/
theorem idctRef_eq_floor (f : Vector Word 64) (n : Nat) : idctRef f n = ⌊idctReal f (n / 8) (n % 8) + 1 / 2⌋ := by
  obtain ⟨hlo, hhi⟩ := abs_le.1 (abs_idctReal_le f (n / 8) (n % 8))
  have hvalue : (addSurd8 (idctSum (n / 8) (n % 8) 0 f.toList) (intSurd8 8)).toReal =
      16 * idctReal f (n / 8) (n % 8) + 8 := by
    rw [addSurd8_toReal, intSurd8_toReal, idctSum_toReal_block, Int.cast_ofNat]
  rw [idctRef, floorSurd8_spec _ (by rw [hvalue]; linarith) (by rw [hvalue]; linarith), hvalue]
  have hdiv := Int.floor_div_natCast (16 * idctReal f (n / 8) (n % 8) + 8) 16
  rw [Nat.cast_ofNat, Nat.cast_ofNat] at hdiv
  rw [← hdiv]
  congr 1
  ring

/-! #### The double sum of R182 (O31) -/

/-- A sum over the natural indices is one over the columns and the rows of the block. -/
theorem sum_block (g : Fin 64 → ℝ) : ∑ i, g i = ∑ u : Fin 8, ∑ v : Fin 8, g ⟨8 * v.val + u.val, by omega⟩ := by
  rw [← (finProdFinEquiv (m := 8) (n := 8)).sum_comp g, Fintype.sum_prod_type_right]
  refine Finset.sum_congr rfl fun u _ => Finset.sum_congr rfl fun v _ => congrArg g (Fin.ext ?_)
  exact Nat.add_comm _ _

/-- Settles O31: the sum of `idctReal` by columns and rows, where a basis angle stands for C and its cosine. -/
theorem idctRefIsTheExactTransform : Obligations.IdctRefIsTheExactTransform := by
  intro f y x c s
  have hn (a b : Fin 8) : (8 * a.val + b.val) / 8 = a.val ∧ (8 * a.val + b.val) % 8 = b.val := by omega
  have hbasis (a u : Fin 8) : Real.cos (basisAngle a.val u.val * (Real.pi / 16)) =
      c u * Real.cos ((2 * (a.val : ℝ) + 1) * (u.val : ℝ) * Real.pi / 16) := by
    simp only [basisAngle_cos, c, Fin.ext_iff, Fin.val_zero]
  have hs : idctReal f y.val x.val = s := by
    rw [idctReal, sum_block]
    refine congrArg (1 / 4 * ·) (Finset.sum_congr rfl fun u _ => Finset.sum_congr rfl fun v _ => ?_)
    simp only [idctRealTerm, hn, hbasis, Fin.getElem_fin]
    ring
  rw [idctRef_eq_floor, (hn y x).1, (hn y x).2, hs]

/-! #### The DC block (O32) -/

/-- Both factors of the DC term are C(0) = 1/√2, so it is a half of D, and s is D/8 (R184). -/
theorem idctReal_dc (d : Word) (y x : Nat) : idctReal ((Vector.replicate 64 0#32).set 0 d) y x = d.toInt / 8 := by
  have hcos (a : Nat) : Real.cos (basisAngle a 0 * (Real.pi / 16)) = 1 / Real.sqrt 2 := by simp [basisAngle_cos]
  have hsq : 1 / Real.sqrt 2 * (1 / Real.sqrt 2) = 1 / 2 := by
    rw [div_mul_div_comm, Real.mul_self_sqrt (by norm_num), one_mul]
  rw [idctReal, Fintype.sum_eq_single 0]
  · simp only [idctRealTerm, Fin.getElem_fin, Fin.val_zero, Vector.getElem_set_self, Nat.zero_mod, Nat.zero_div, hcos]
    linear_combination (d.toInt / 4 : ℝ) * hsq
  · intro i hi
    have hne : 0 ≠ i.val := fun h => hi (Fin.ext h.symm)
    simp [idctRealTerm, Vector.getElem_set_ne _ _ hne]

/-- Settles O32: s is D/8, and the floor of D/8 + 1/2 = (D + 4)/8 is the integer quotient. -/
theorem idctRefOfDcBlock : Obligations.IdctRefOfDcBlock := by
  intro d n
  have hhalf : (d.toInt / 8 + 1 / 2 : ℝ) = ((d.toInt + 4 : Int) : ℝ) / ((8 : Nat) : ℝ) := by push_cast; ring
  rw [idctRef_eq_floor, idctReal_dc, hhalf, Int.floor_div_natCast, Int.floor_intCast]
  rfl

/-! #### The bounds of IDCT_CORE (O30) -/

theorem idctCore_zero (n : Nat) : idctCore (Vector.replicate 64 0#32) n = 0 := by
  rw [idctCore, if_pos (by decide)]

theorem withinAccuracy_of_abs_le {f : Vector Word 64} (h : ∀ i : Fin 64, |(f[i]).toInt| ≤ 1024) :
    withinAccuracy f = true := by
  rw [withinAccuracy, List.all_eq_true]
  intro v hv
  obtain ⟨i, hi, rfl⟩ := Vector.mem_iff_getElem.1 (Vector.mem_toList_iff.1 hv)
  simpa using abs_le.1 (h ⟨i, hi⟩)

theorem clampInt_bounds {lo hi : Int} (h : lo ≤ hi) (v : Int) : lo ≤ clampInt v lo hi ∧ clampInt v lo hi ≤ hi :=
  ⟨le_min (le_max_right _ _) h, min_le_right _ _⟩

theorem eq_zero_block {f : Vector Word 64} (h : f.toList.all (· == 0#32) = true) : f = Vector.replicate 64 0#32 := by
  refine Vector.eq_replicate_iff.2 fun v hv => ?_
  simpa using List.all_eq_true.1 h v (Vector.mem_toList_iff.2 hv)

/-- Settles O30: the zero block is the DC block with D = 0, and on the other blocks in range the free part is clipped. -/
theorem idctCoreMeetsItsBounds : Obligations.IdctCoreMeetsItsBounds := by
  refine ⟨idctCore_zero, fun f n hf => ?_⟩
  by_cases hzero : f.toList.all (· == 0#32) = true
  · have href : idctRef (Vector.replicate 64 0#32) n.val = 0 := idctRefOfDcBlock 0#32 n
    rw [eq_zero_block hzero, idctCore_zero, href]
    decide
  · rw [idctCore, if_neg hzero, if_pos (withinAccuracy_of_abs_le hf), add_sub_cancel_left]
    exact abs_le.2 (clampInt_bounds (by decide) _)

/-! #### IDCT (O29) -/

/-- The clamped value fits the byte of a sample (R183). -/
theorem toNat_sampleOf (y : Int) : ((sampleOf y).toNat : Int) = min (max (y + 128) 0) 255 := by
  obtain ⟨hlo, hhi⟩ := clampInt_bounds (by decide : (0 : Int) ≤ 255) (y + 128)
  rw [sampleOf, BitVec.toNat_ofInt, Int.toNat_of_nonneg (Int.emod_nonneg _ (by decide)),
    Int.emod_eq_of_lt hlo (Int.lt_of_le_of_lt hhi (by decide))]
  rfl

/-- Settles O29: SAMPLE is the one field `execIdct` writes, and `sampleOf 0` is 128. -/
theorem idctShiftsAndClamps : Obligations.IdctShiftsAndClamps := by
  refine ⟨(decodeInvertsEncode _ _).2 ⟨rfl, rfl⟩, fun s => ⟨_, rfl, rfl, fun n => ?_, fun hblk => ?_⟩⟩
  · simp only [Fin.getElem_fin, Vector.getElem_ofFn, toNat_sampleOf]
  · simp only [hblk, idctCore_zero]
    decide

end Sys2Proof.Machine

/-! ### O33 to O40: data units, predictors and restart

DU_DECODE goes through the bits still to be delivered: `unitAhead` is R192 on those bits, and `execDuDecode_decoded`,
`execDuDecode_faulted` and `execDuDecode_missing` say once what the command does with its answer (O34, O35, O38). EXTEND,
the steps of path (b) and the DC-only form have equations of their own (O33, O36, O37). BS_RESTART answers by what scanAt
finds, which is O13's by the shape of the window (O40). -/

namespace Sys2Proof.Machine

/-! #### EXTEND (O33) -/

theorem extend_of_lt {v s : Nat} (hs : s ≠ 0) (h : v < 2 ^ (s - 1)) : extend v s = (v : Int) - (2 ^ s - 1) := by
  rw [extend, if_neg hs, if_neg (by omega)]

theorem extend_of_ge {v s : Nat} (hs : s ≠ 0) (h : 2 ^ (s - 1) ≤ v) : extend v s = v := by
  rw [extend, if_neg hs, if_pos h]

/-- Each half of the range of `v` gives the values of one sign (45_scan_decode.md R190). -/
theorem extend_bounds {v s : Nat} (hs : s ≠ 0) (hv : v < 2 ^ s) :
    (v < 2 ^ (s - 1) → -(2 ^ s - 1) ≤ extend v s ∧ extend v s ≤ -(2 ^ (s - 1) : Int)) ∧
    (2 ^ (s - 1) ≤ v → (2 ^ (s - 1) : Int) ≤ extend v s ∧ extend v s ≤ 2 ^ s - 1) := by
  obtain ⟨n, rfl⟩ := Nat.exists_eq_succ_of_ne_zero hs
  have hdouble : (2 : Int) ^ (n + 1) = 2 * 2 ^ n := pow_succ' 2 n
  have hcast : ((2 ^ n : Nat) : Int) = 2 ^ n := Nat.cast_pow 2 n
  rw [pow_succ'] at hv
  refine ⟨fun hlo => ?_, fun hhi => ?_⟩
  · rw [extend_of_lt hs hlo]
    simp only [Nat.succ_eq_add_one, Nat.add_sub_cancel] at hlo ⊢
    omega
  · rw [extend_of_ge hs hhi]
    simp only [Nat.succ_eq_add_one, Nat.add_sub_cancel] at hhi ⊢
    omega

/-- Settles O33: by the halves of the range; both bounds are below 2^15. -/
theorem extendGivesSignedValue : Obligations.ExtendGivesSignedValue := by
  refine ⟨rfl, fun s v h1 h15 hv => ?_⟩
  have hs : s ≠ 0 := by omega
  obtain ⟨hneg, hpos⟩ := extend_bounds hs hv
  have hhalf : (0 : Int) < 2 ^ (s - 1) := by positivity
  have hfull : (2 : Int) ^ s ≤ 2 ^ 15 := pow_le_pow_right₀ (by decide) h15
  have hrange : extend v s ≠ 0 ∧ -2 ^ 15 ≤ extend v s ∧ extend v s < 2 ^ 15 := by
    rcases Nat.lt_or_ge v (2 ^ (s - 1)) with hlo | hhi
    · have := hneg hlo
      omega
    · have := hpos hhi
      omega
  obtain ⟨hne, hmin, hmax⟩ := hrange
  exact ⟨fun hlo => ⟨extend_of_lt hs hlo, hneg hlo⟩, fun hhi => ⟨extend_of_ge hs hhi, hpos hhi⟩, hne,
    BitVec.toInt_ofInt_eq_self (by decide) hmin hmax⟩

/-! #### DU_DECODE on the bits still to be delivered (O34) -/

/-- R192's paths on the bits still to be delivered, with the tables and the predictor of the state. -/
def unitAhead (s : State) (pred dct act : Fin 4) (dcOnly : Bool) : Except FaultKind (Half × Vector Half 64 × List Bool) :=
  readUnit (slotCode s (dcSlot dct)) (slotCode s (acSlot act)) s.ext s.pred[pred] dcOnly (unreadBits s.ecs s.bs)

theorem tablesReady_eq_true {s : State} {dct act : Fin 4} {dcOnly : Bool} :
    tablesReady s dct act dcOnly = true ↔ s.htv[dcSlot dct] = true ∧ (dcOnly = true ∨ s.htv[acSlot act] = true) := by
  rw [tablesReady, Bool.and_eq_true, Bool.or_eq_true]

theorem tablesReady_eq_false {s : State} {dct act : Fin 4} {dcOnly : Bool} :
    tablesReady s dct act dcOnly = false ↔
      s.htv[dcSlot dct] = false ∨ (dcOnly = false ∧ s.htv[acSlot act] = false) := by
  rw [tablesReady, Bool.and_eq_false_iff, Bool.or_eq_false_iff]

/-- A valid slot of a state that keeps the invariant is what the stream's walks need (42_huffman.md R143). -/
theorem slotCode_good {s : State} (h : s.Inv) {slot : Fin 8} (hv : s.htv[slot] = true) : GoodTable (slotCode s slot) :=
  canon_good (h.builtTables slot hv) _

/-- So are the tables that the command needs. -/
theorem tablesReady_good {s : State} {dct act : Fin 4} {dcOnly : Bool} (h : s.Inv)
    (hready : tablesReady s dct act dcOnly = true) :
    GoodTable (slotCode s (dcSlot dct)) ∧ (dcOnly = false → GoodTable (slotCode s (acSlot act))) := by
  obtain ⟨hdc, hac⟩ := tablesReady_eq_true.1 hready
  exact ⟨slotCode_good h hdc, fun hne => slotCode_good h (hac.resolve_left (ne_true_of_eq_false hne))⟩

/-- What a DU_DECODE leaves that decodes `p` and `du` from `n` bits and ends at the bit source `b` (R192). -/
def decodedState (s : State) (pred : Fin 4) (p : Half) (du : Vector Half 64) (b : BitSource) (n : Nat) : State :=
  { s with pred := s.pred.set pred.val p, du := du, bs := b, result := BitVec.ofNat 32 n }

section
variable {pred dct act : Fin 4} {dcOnly : Bool} {s : State}

theorem execDuDecode_missing (h : tablesReady s dct act dcOnly = false) :
    execDuDecode pred dct act dcOnly s = .next (raise .tableMissing s.bs.pos s) := by
  rw [execDuDecode, if_neg (ne_true_of_eq_false h)]

/-- DU_DECODE answers what the bits say, and ends at the bits after them (R192). -/
theorem execDuDecode_decoded (hinv : s.Inv) (hf : s.fault = false) (hready : tablesReady s dct act dcOnly = true)
    {p : Half} {du : Vector Half 64} {rest : List Bool} (h : unitAhead s pred dct act dcOnly = .ok (p, du, rest)) :
    ∃ b n, execDuDecode pred dct act dcOnly s = .next (decodedState s pred p du b n) ∧ unreadBits s.ecs b = rest ∧
      s.bs.After s.ecs b n ∧ (unreadBits s.ecs s.bs).length = rest.length + n := by
  obtain ⟨hdc, hac⟩ := tablesReady_good hinv hready
  have hspec := decodeUnit_spec s (hinv.good hf) pred dct act dcOnly hdc hac
  rw [← unitAhead, h] at hspec
  obtain ⟨b, n, hdecode, hrest, hafter, hlen⟩ := hspec
  have hcount : b.bitcnt - s.bs.bitcnt = BitVec.ofNat 32 n := by
    rw [hafter.count, BitVec.add_comm, BitVec.add_sub_cancel]
  refine ⟨b, n, ?_, hrest, hafter, hlen⟩
  rw [execDuDecode, if_pos hready, hdecode, decodedState, ← hcount]

/-- DU_DECODE raises the fault the bits say (R192, 60_exceptions.md R227). -/
theorem execDuDecode_faulted (hinv : s.Inv) (hf : s.fault = false) (hready : tablesReady s dct act dcOnly = true)
    {k : FaultKind} (h : unitAhead s pred dct act dcOnly = .error k) :
    execDuDecode pred dct act dcOnly s = .next (duFault k pred s) := by
  obtain ⟨hdc, hac⟩ := tablesReady_good hinv hready
  have hspec := decodeUnit_spec s (hinv.good hf) pred dct act dcOnly hdc hac
  rw [← unitAhead, h] at hspec
  rw [execDuDecode, if_pos hready, hspec]
  rfl

end

/-- What a fault of DU_DECODE leaves where none was recorded (60_exceptions.md R223, R227). -/
theorem unitFaulted_duFault (k : FaultKind) (p : Fin 4) {s : State} (hf : s.fault = false) :
    s.unitFaulted k p (duFault k p s) := by
  have hset (x : Half) : s.pred.set p.val (s.pred.set p.val x)[p] = s.pred.set p.val x := by simp
  rw [State.unitFaulted, duFault_pred, hset, duFault, streamFault, raise_first _ _ hf]
  rfl

/-- Settles O34: `unitAhead` is the rule's reading of the bits, whose answer the command writes. -/
theorem duDecodeDecodesOneUnit : Obligations.DuDecodeDecodesOneUnit := by
  intro pred dct act dcOnly s hinv hf
  refine ⟨(decodeInvertsEncode _ _).2 ⟨rfl, by cases dcOnly <;> rfl⟩, fun hmissing => ?_, fun hdc hac => ?_⟩
  · rw [exec, execDuDecode_missing (tablesReady_eq_false.2 hmissing), raise_first _ _ hf]
    rfl
  · have hready : tablesReady s dct act dcOnly = true := tablesReady_eq_true.2 ⟨hdc, hac⟩
    split
    · next p du rest h =>
      obtain ⟨b, n, hexec, hrest, hafter, hlen⟩ := execDuDecode_decoded hinv hf hready h
      have hn : (unreadBits s.ecs s.bs).length - rest.length = n := by omega
      rw [hn]
      exact ⟨_, hexec, rfl, rfl, readUnit_zero h, hrest, rfl, hafter.count, hafter.delivered, rfl⟩
    · next k h => exact ⟨_, execDuDecode_faulted hinv hf hready h, unitFaulted_duFault k pred hf⟩

/-! #### An EOB as the first AC symbol (O35) -/

/-- The bits of a code stand for its symbol (42_huffman.md R144, R145). -/
theorem readSymbol_append {table : List CodeEntry} (ht : GoodTable table) {e : CodeEntry} (he : e ∈ table)
    (rest : List Bool) : readSymbol table (e.bits ++ rest) = .ok (e.sym, rest) := by
  have hfind : table.find? (fun e' => e'.bits.isPrefixOf (e.bits ++ rest)) = some e := by
    cases hf : table.find? (fun e' => e'.bits.isPrefixOf (e.bits ++ rest)) with
    | none => simpa using List.find?_eq_none.1 hf e he
    | some e' =>
      have hp : e'.bits <+: e.bits ++ rest := by simpa using List.find?_some hf
      rw [ht.eq_of_prefix (List.mem_of_find?_eq_some hf) he hp (List.prefix_append _ _)]
  rw [readSymbol, hfind]
  simp only [← e.length_bits, List.drop_left]

/-- The bits of a number stand for it (41_bitsource.md R113). -/
theorem readNumber_append {n v : Nat} (hv : v < 2 ^ n) (rest : List Bool) :
    readNumber n (bitsOf n v ++ rest) = .ok (v, rest) := by
  have htake : (bitsOf n v ++ rest).take n = bitsOf n v := List.take_left' (length_bitsOf n v)
  have hdrop : (bitsOf n v ++ rest).drop n = rest := List.drop_left' (length_bitsOf n v)
  rw [readNumber, if_pos (by simp), htake, hdrop, valueOf_bitsOf hv]

/-- A code of the symbol 0x00 ends path (b) at any cursor (R193). -/
theorem readAcPath_eob {table : List CodeEntry} {lim fuel k : Nat} {du : Vector Half 64} {bits rest : List Bool}
    (hk : k < 64) (h : readSymbol table bits = .ok (0x00#8, rest)) :
    readAcPath table lim (fuel + 1) k du bits = .ok (du, rest) := by
  rw [readAcPath, if_neg (by omega), h]
  rfl

/-- A DC code of legal size, its magnitude and an EOB are a data unit with nothing but its DC coefficient (R194 B1). -/
theorem readUnit_eob {dcTable acTable : List CodeEntry} (hdc : GoodTable dcTable) (hac : GoodTable acTable) {ext : Bool}
    {pred : Half} {e e' : CodeEntry} (he : e ∈ dcTable) (hsize : e.sym.toNat ≤ dcLim ext) {v : Nat}
    (hv : v < 2 ^ e.sym.toNat) (he' : e' ∈ acTable) (heob : e'.sym = 0x00#8) (rest : List Bool) :
    readUnit dcTable acTable ext pred false (e.bits ++ bitsOf e.sym.toNat v ++ e'.bits ++ rest) =
      .ok (nextPred pred (extend v e.sym.toNat), dcUnit (nextPred pred (extend v e.sym.toNat)), rest) := by
  have hread := readSymbol_append hac he' rest
  rw [heob] at hread
  rw [readUnit, List.append_assoc, List.append_assoc, readSymbol_append hdc he]
  dsimp only
  rw [← dcLim, if_neg (Nat.not_lt.2 hsize), readNumber_append hv]
  simp only [Bool.false_eq_true, if_false]
  rw [readAcPath_eob (by decide) hread]
  rfl

@[simp] theorem dcUnit_zero (p : Half) : (dcUnit p)[0] = p := by simp [dcUnit]

theorem dcUnit_ac (p : Half) {k : Fin 64} (hk : k ≠ 0) : (dcUnit p)[k] = 0#16 := by
  have h0 : 0 ≠ k.val := fun h => hk (Fin.ext h.symm)
  simp [dcUnit, h0]

/-- Settles O35: the bits ahead are such a data unit, which the command answers. -/
theorem eobAfterDcLeavesZeros : Obligations.EobAfterDcLeavesZeros := by
  intro pred dct act s e e' v rest hinv hf hdc hac he hsize hv he' heob hbits
  have hunit := readUnit_eob (pred := s.pred[pred]) (slotCode_good hinv hdc) (slotCode_good hinv hac) he hsize hv he'
    heob rest
  rw [← hbits, ← unitAhead] at hunit
  have hready : tablesReady s dct act false = true := tablesReady_eq_true.2 ⟨hdc, .inr hac⟩
  obtain ⟨b, n, hexec, hrest, -⟩ := execDuDecode_decoded hinv hf hready hunit
  exact ⟨_, hexec, hf, fun k hk => dcUnit_ac _ hk, dcUnit_zero _, hrest⟩

/-! #### The steps of path (b) (O36) -/

theorem acAction_zrl (lim k : Nat) : acAction lim k 0xF0#8 = if 64 < k + 16 then .fail .overrun else .skipTo (k + 16) :=
  rfl

/-- A run and a legal size (R193). -/
theorem acAction_run {lim k : Nat} {rs : Byte} (h1 : 1 ≤ rs.toNat % 16) (hlim : rs.toNat % 16 ≤ lim) :
    acAction lim k rs = if h : k + rs.toNat / 16 < 64 then .coefficient ⟨k + rs.toNat / 16, h⟩ (rs.toNat % 16)
      else .fail .overrun := by
  have h0 : rs ≠ 0x00#8 := by rintro rfl; simp at h1
  have hF : rs ≠ 0xF0#8 := by rintro rfl; simp at h1
  rw [acAction, if_neg h0, if_neg hF, if_neg (by omega)]

section
variable {m : Memory} {table : List CodeEntry} {lim fuel k : Nat} {du : Vector Half 64} {b b1 : BitSource} {rs : Byte}

theorem acLoop_complete (hk : 64 ≤ k) : acLoop m table lim fuel k du b = .ok (du, b) := by
  cases fuel with
  | zero => rfl
  | succ fuel => rw [acLoop, if_pos hk]

theorem acLoop_skip (hk : k < 64) (hw : hufWalk m table b = .ok (rs, b1)) {k' : Nat}
    (ha : acAction lim k rs = .skipTo k') :
    acLoop m table lim (fuel + 1) k du b = acLoop m table lim fuel k' du b1 := by
  rw [acLoop, if_neg (by omega), hw]
  simp only [ha]

theorem acLoop_fail (hk : k < 64) (hw : hufWalk m table b = .ok (rs, b1)) {f : FaultKind}
    (ha : acAction lim k rs = .fail f) : acLoop m table lim (fuel + 1) k du b = .error (.raise f) := by
  rw [acLoop, if_neg (by omega), hw]
  simp only [ha]

theorem acLoop_coefficient (hk : k < 64) (hw : hufWalk m table b = .ok (rs, b1)) {j : Fin 64} {size : Nat}
    (ha : acAction lim k rs = .coefficient j size) {v : Nat} {b2 : BitSource} (hr : readBits m size b1 = .ok (v, b2)) :
    acLoop m table lim (fuel + 1) k du b =
      acLoop m table lim fuel (j.val + 1) (du.set j.val (BitVec.ofInt 16 (extend v size))) b2 := by
  rw [acLoop, if_neg (by omega), hw]
  simp only [ha, hr]

end

/-- Settles O36: both symbols move the cursor from 48 to 64, where the data unit is complete, and from 49 past it. -/
theorem acCursorBoundaries : Obligations.AcCursorBoundaries := by
  intro m table ext fuel du b b1 rs hw
  refine ⟨?_, fun hrun h1 hlim => ⟨?_, fun v b2 hr => ?_⟩⟩
  · rintro rfl
    refine ⟨?_, acLoop_fail (by decide) hw (acAction_zrl _ 49)⟩
    rw [acLoop_skip (by decide) hw (acAction_zrl _ 48)]
    exact acLoop_complete le_rfl
  · refine acLoop_fail (by decide) hw ?_
    rw [acAction_run h1 hlim, dif_neg (by omega)]
  · have hlast : acAction (acLim ext) 48 rs = .coefficient 63 (rs.toNat % 16) := by
      rw [acAction_run h1 hlim, dif_pos (by omega)]
      simp [hrun]
    rw [acLoop_coefficient (by decide) hw hlast hr]
    exact acLoop_complete le_rfl

/-! #### The DC-only form (O37) -/

/-- Path (a) alone decides the DC-only form (R195). -/
theorem decodeUnit_dcOnly (s : State) (pred dct act : Fin 4) : decodeUnit s pred dct act true =
    (dcPath s.ecs (slotCode s (dcSlot dct)) (dcLim s.ext) s.bs).map fun (diff, b) =>
      (nextPred s.pred[pred] diff, dcUnit (nextPred s.pred[pred] diff), b) := by
  rw [decodeUnit]
  split <;> next h => rw [h]; rfl

/-- Only the DC slot's validity bit counts for it (R195). -/
theorem tablesReady_dcOnly (s : State) (dct act : Fin 4) : tablesReady s dct act true = s.htv[dcSlot dct] := by
  simp [tablesReady]

theorem raise_withHtv (k : FaultKind) (s0 : Word) (s : State) (v : Vector Bool 8) :
    raise k s0 { s with htv := v } = { raise k s0 s with htv := v } := by
  unfold raise
  split <;> rfl

theorem duFault_withHtv (k : FaultKind) (p : Fin 4) (s : State) (v : Vector Bool 8) :
    duFault k p { s with htv := v } = { duFault k p s with htv := v } := by
  simp only [duFault, streamFault, raise_withHtv]

/-- Settles O37: ACT and the other validity bits are in neither the check nor the decoding. -/
theorem dcOnlyIgnoresAcPath : Obligations.DcOnlyIgnoresAcPath := by
  intro pred dct act act' s
  refine ⟨?_, fun v hv t ht => ?_, fun t hdc hf ht htf => ?_⟩
  · simp only [exec, execDuDecode, tablesReady_dcOnly, decodeUnit_dcOnly]
  · have hready : tablesReady { s with htv := v } dct act true = tablesReady s dct act true := by
      rw [tablesReady_dcOnly, tablesReady_dcOnly, hv]
    have hdecode : decodeUnit { s with htv := v } pred dct act true = decodeUnit s pred dct act true := rfl
    rw [exec] at ht ⊢
    rcases execDuDecode_cases ht with ⟨hr, rfl⟩ | ⟨hr, p, du, b, hd, rfl⟩ | ⟨hr, k, hd, rfl⟩
    · rw [execDuDecode_missing (hready.trans hr), raise_withHtv]
    · rw [execDuDecode, if_pos (hready.trans hr), hdecode, hd]
    · rw [execDuDecode, if_pos (hready.trans hr), hdecode, hd, ← duFault_withHtv]
      rfl
  · rcases execDuDecode_cases ht with ⟨-, rfl⟩ | ⟨-, p, du, b, hd, rfl⟩ | ⟨-, k, -, rfl⟩
    · simp at htf
    · obtain rfl : du = dcUnit p := by
        rw [decodeUnit_dcOnly] at hd
        cases hpath : dcPath s.ecs (slotCode s (dcSlot dct)) (dcLim s.ext) s.bs with
        | error f => rw [hpath] at hd; cases hd
        | ok path => rw [hpath] at hd; cases hd; rfl
      exact ⟨by simp, fun k hk => dcUnit_ac p hk⟩
    · simp at htf

/-! #### The bits of a data unit (O38) -/

/-- A symbol costs at most 16 bits (42_huffman.md R145). -/
theorem readSymbol_length {table : List CodeEntry} (ht : CodesFit table) {bits rest : List Bool} {sym : Byte}
    (h : readSymbol table bits = .ok (sym, rest)) : bits.length ≤ rest.length + 16 := by
  unfold readSymbol at h
  split at h
  · next e he =>
    cases h
    have hlen := (ht e (List.mem_of_find?_eq_some he)).2
    rw [List.length_drop]
    omega
  · split at h <;> cases h

theorem readNumber_length {n v : Nat} {bits rest : List Bool} (h : readNumber n bits = .ok (v, rest)) :
    bits.length = rest.length + n := by
  unfold readNumber at h
  split at h
  · cases h
    rw [List.length_drop]
    omega
  · cases h

/-- Each step of path (b) costs at most a symbol and a magnitude (R198). -/
theorem readAcPath_length {table : List CodeEntry} (ht : CodesFit table) {lim fuel k : Nat} {du du' : Vector Half 64}
    {bits rest : List Bool} (h : readAcPath table lim fuel k du bits = .ok (du', rest)) :
    bits.length ≤ rest.length + fuel * (16 + lim) := by
  induction fuel generalizing k du bits with
  | zero => cases h; omega
  | succ fuel ih =>
    rw [Nat.succ_mul]
    unfold readAcPath at h
    split at h
    · cases h; omega
    · split at h
      · cases h
      · next rs bits1 hsym =>
        have hcost := readSymbol_length ht hsym
        dsimp only at h
        split at h
        · -- EOB
          cases h; omega
        · split at h
          · -- ZRL
            split at h
            · cases h
            · have hlater := ih h
              omega
          · split at h
            · cases h
            · split at h
              · cases h
              · -- a run and a size, which is at most `lim`
                split at h
                · cases h
                · next hnum =>
                  have hmag := readNumber_length hnum
                  have hlater := ih h
                  omega

/-- A data unit costs a symbol and a magnitude for DC, and 63 steps of path (b) (R198). -/
theorem readUnit_length {dcTable acTable : List CodeEntry} (hdc : CodesFit dcTable) {ext dcOnly : Bool}
    (hac : dcOnly = false → CodesFit acTable) {pred p : Half} {du : Vector Half 64} {bits rest : List Bool}
    (h : readUnit dcTable acTable ext pred dcOnly bits = .ok (p, du, rest)) :
    bits.length ≤ rest.length + ((16 + dcLim ext) + 63 * (16 + acLim ext)) := by
  unfold readUnit at h
  rw [← dcLim, ← acLim] at h
  split at h
  · cases h
  · next size bits1 hsym =>
    have hcost := readSymbol_length hdc hsym
    split at h
    · cases h
    · next hsize =>
      have hlim : size.toNat ≤ dcLim ext := Nat.not_lt.1 hsize
      split at h
      · cases h
      · next v bits2 hnum =>
        have hmag := readNumber_length hnum
        dsimp only at h
        split at h
        · cases h; omega
        · next hne =>
          split at h
          · cases h
          · next hpath =>
            cases h
            have hpath := readAcPath_length (hac (Bool.eq_false_of_not_eq_true hne)) hpath
            omega

/-- Settles O38: a DU_DECODE without a fault has decoded the bits ahead, and RESULT is their number. -/
theorem duDecodeBitBound : Obligations.DuDecodeBitBound := by
  intro pred dct act dcOnly s t hinv hf hx htf
  rw [exec] at hx
  cases hready : tablesReady s dct act dcOnly with
  | false =>
    rw [execDuDecode_missing hready] at hx
    cases hx
    simp at htf
  | true =>
    cases hunit : unitAhead s pred dct act dcOnly with
    | error k =>
      rw [execDuDecode_faulted hinv hf hready hunit] at hx
      cases hx
      simp at htf
    | ok unit =>
      obtain ⟨p, du, rest⟩ := unit
      obtain ⟨b, n, hexec, -, hafter, hlen⟩ := execDuDecode_decoded hinv hf hready hunit
      obtain ⟨hdc, hac⟩ := tablesReady_good hinv hready
      have hbound := readUnit_length hdc.fit (fun hne => (hac hne).fit) hunit
      have hlim : (16 + dcLim s.ext) + 63 * (16 + acLim s.ext) = if s.ext then 1921 else 1665 := by
        cases s.ext <;> rfl
      cases hexec.symm.trans hx
      refine ⟨?_, hafter.count⟩
      calc (BitVec.ofNat 32 n).toNat ≤ n := by rw [BitVec.toNat_ofNat]; exact Nat.mod_le _ _
        _ ≤ if s.ext then 1921 else 1665 := by omega

/-! #### PRED_RESET and BS_RESTART (O39, O40) -/

/-- Settles O39: `clearPreds` is the command. -/
theorem predResetClearsPredictors : Obligations.PredResetClearsPredictors :=
  ⟨by decide, fun s => ⟨clearPreds s, rfl, rfl, fun _ => by simp⟩⟩

theorem execBsRestart_of_scan {s : State} {r : Scan} (h : scanAtPos s.ecs (aligned s).bs = .ok r) :
    execBsRestart s = .next (restartOn r (aligned s)) := by
  rw [aligned] at h
  rw [execBsRestart, h, aligned]

/-- The alignment leaves the bytes ahead. -/
theorem windowBytes_aligned (s : State) : windowBytes s.ecs (aligned s).bs = windowBytes s.ecs s.bs := rfl

theorem toNat_expectedRst (k : Word) : (expectedRst k).toNat = 0xD0 + k.toNat % 8 := by
  rw [expectedRst, BitVec.toNat_ofNat]
  omega

/-- SEQWARN's test is one of the markers as numbers (R197, 10_state.md R33). -/
theorem bne_expectedRst (x : Byte) (k : Word) : (x != expectedRst k) = decide (x.toNat ≠ 0xD0 + k.toNat % 8) := by
  rw [← toNat_expectedRst, Bool.eq_iff_iff, bne_iff_ne, decide_eq_true_iff, ne_eq, ne_eq, BitVec.toNat_inj]

theorem restartOn_rst {x : Byte} {p q : Nat} (h : 0xD0 ≤ x.toNat ∧ x.toNat ≤ 0xD7) (s : State) :
    restartOn (.marker x p q) s = { clearPreds s with
      seqwarn := s.seqwarn || decide (x.toNat ≠ 0xD0 + s.rstK.toNat % 8), bs := { s.bs with pos := BitVec.ofNat 32 q },
      rstK := s.rstK + 1#32, result := 0x100#32 ||| x.setWidth 32 } := by
  rw [← bne_expectedRst]
  exact if_pos h

theorem restartOn_other {x : Byte} {p q : Nat} (h : ¬ (0xD0 ≤ x.toNat ∧ x.toNat ≤ 0xD7)) (s : State) :
    restartOn (.marker x p q) s = { s with eos := true, result := 0x100#32 ||| x.setWidth 32 } :=
  if_neg h

theorem restartOn_data (b : Byte) (q : Nat) {s : State} (hf : s.fault = false) :
    restartOn (.data b q) s = s.recorded .missingRestart :=
  raise_first _ _ hf

/-- Settles O40: the command answers by what scanAt finds after the alignment, which is O13's by the shape of the
window. -/
theorem bsRestartConsumesMarker : Obligations.BsRestartConsumesMarker := by
  refine ⟨by decide, fun s hw hf => ?_⟩
  have hfa : (aligned s).fault = false := hf
  obtain ⟨hdata, hstuffed, hmarker, hend⟩ := scanAtClassifiesInput s.ecs (aligned s).bs hw
  rw [windowBytes_aligned] at hdata hstuffed hmarker hend
  refine ⟨fun k x rest hlo hhi h => ?_, fun k x rest h0 hF hx h => ?_, fun k h => execBsRestart_of_scan (hend k h),
    fun x rest hx h => ?_, fun k rest h => ?_⟩ <;> rw [exec]
  · have h0 : x ≠ 0x00#8 := by rintro rfl; simp at hlo
    have hF : x ≠ 0xFF#8 := by rintro rfl; simp at hhi
    rw [execBsRestart_of_scan (hmarker k x rest h0 hF h), restartOn_rst ⟨hlo, hhi⟩, Nat.add_assoc, BitVec.ofNat_add,
      BitVec.ofNat_toNat, BitVec.setWidth_eq]
    rfl
  · rw [execBsRestart_of_scan (hmarker k x rest h0 hF h), restartOn_other hx]
    rfl
  · rw [execBsRestart_of_scan (hdata x rest hx h), restartOn_data _ _ hfa]
    rfl
  · rw [execBsRestart_of_scan (hstuffed k rest h), restartOn_data _ _ hfa]
    rfl

end Sys2Proof.Machine

/-! ### O41 to O45, O51: faults and warnings

O43 and O44 need which faults a stream function can raise (`RaisesOnly`); with them each command that can fault has one
rule for the fault and the state it leaves. O45 and O51 go over the steps: what a host write, the engine's other turns
and the other commands leave of the fault record and of the warnings. -/

namespace Sys2Proof.Machine

/-! #### The record of a fault (O41, O42) -/

/-- Settles O41: FINFO is OPC of the latched word, its bits 7:0. -/
theorem raiseKeepsFirstFault : Obligations.RaiseKeepsFirstFault := by
  intro k s0 s
  rw [raise, opcodeOf, BitVec.setWidth_eq_extractLsb' (by decide)]

/-- Settles O42: the codes are closed values. -/
theorem faultCodesAreTheTable : Obligations.FaultCodesAreTheTable :=
  ⟨rfl, rfl, rfl, rfl, rfl, rfl, rfl, rfl, rfl⟩

/-! #### Which faults a stream function raises -/

/-- A stream function that ends early raises one of the faults `ks`, or the model stops outside the buffer. -/
def RaisesOnly {α : Type} (ks : List FaultKind) (r : Except StreamStop α) : Prop :=
  ∀ k, r = .error (.raise k) → k ∈ ks

/-- The faults of hufWalk (42_huffman.md R145). -/
def walkFaults : List FaultKind := [.truncated, .malformedBitStream]

/-- The faults of a data unit's two paths (45_scan_decode.md R192). -/
def unitFaults : List FaultKind := [.truncated, .malformedBitStream, .invalidSize, .overrun]

theorem truncated_subset : [.truncated] ⊆ walkFaults := by simp [walkFaults]

theorem walkFaults_subset : walkFaults ⊆ unitFaults := by simp [walkFaults, unitFaults]

/-- scanAt raises nothing (41_bitsource.md R111). -/
theorem scanFrom_raises (m : Memory) (left p : Nat) : RaisesOnly [] (scanFrom m left p) := by
  have hread {a : Nat} {e : StreamStop} (h : memRead m a = .error e) : e = .outside := by
    unfold memRead at h
    split at h <;> cases h
    rfl
  intro k hk
  induction left generalizing p with
  | zero => cases hk
  | succ left ih =>
    unfold scanFrom at hk
    split at hk
    · next hb => cases hk; cases hread hb
    · split at hk
      · cases hk
      · split at hk
        · cases hk
        · split at hk
          · next hb => cases hk; cases hread hb
          · split at hk
            · cases hk
            · split at hk
              · exact ih _ hk
              · cases hk

theorem scanAtPos_not_raises (m : Memory) (b : BitSource) (k : FaultKind) : scanAtPos m b ≠ .error (.raise k) :=
  fun h => List.not_mem_nil (scanFrom_raises m _ _ k h)

theorem readBit_raises (m : Memory) (b : BitSource) : RaisesOnly [.truncated] (readBit m b) := by
  intro k hk
  unfold readBit at hk
  split at hk
  · next hf =>
    cases hk
    unfold fetchByte at hf
    split at hf
    · cases hf
    · split at hf
      · next hs => cases hf; exact absurd hs (scanAtPos_not_raises m b k)
      · cases hf
      · cases hf; exact List.mem_singleton_self _
      · cases hf; exact List.mem_singleton_self _
  · cases hk

theorem readBits_raises (m : Memory) (n : Nat) (b : BitSource) : RaisesOnly [.truncated] (readBits m n b) := by
  suffices h : ∀ v, RaisesOnly [.truncated] (readBitsFrom m n v b) from h 0
  intro v k hk
  induction n generalizing v b with
  | zero => cases hk
  | succ n ih =>
    unfold readBitsFrom at hk
    split at hk
    · next hb => cases hk; exact readBit_raises m b k hb
    · exact ih _ _ hk

theorem hufWalk_raises (m : Memory) (table : List CodeEntry) (b : BitSource) :
    RaisesOnly walkFaults (hufWalk m table b) := by
  suffices h : ∀ fuel l c, RaisesOnly walkFaults (walkFrom m table fuel l c b) from h 16 0 0
  intro fuel l c k hk
  induction fuel generalizing l c b with
  | zero => cases hk; simp [walkFaults]
  | succ fuel ih =>
    unfold walkFrom at hk
    split at hk
    · next hb => cases hk; exact truncated_subset (readBit_raises m b k hb)
    · split at hk
      · cases hk
      · split at hk
        · exact ih _ _ _ hk
        · cases hk; simp [walkFaults]

theorem dcPath_raises (m : Memory) (table : List CodeEntry) (lim : Nat) (b : BitSource) :
    RaisesOnly unitFaults (dcPath m table lim b) := by
  intro k hk
  unfold dcPath at hk
  split at hk
  · next hw => cases hk; exact walkFaults_subset (hufWalk_raises m table b k hw)
  · split at hk
    · cases hk; simp [unitFaults]
    · split at hk
      · next hm =>
        cases hk
        unfold readMagnitude at hm
        split at hm
        · cases hm
        · exact walkFaults_subset (truncated_subset (readBits_raises m _ _ k hm))
      · cases hk

theorem acAction_fail {lim k : Nat} {rs : Byte} {f : FaultKind} (h : acAction lim k rs = .fail f) : f ∈ unitFaults := by
  unfold acAction at h
  split_ifs at h <;> cases h <;> simp [unitFaults]

theorem acLoop_raises (m : Memory) (table : List CodeEntry) (lim fuel k : Nat) (du : Vector Half 64) (b : BitSource) :
    RaisesOnly unitFaults (acLoop m table lim fuel k du b) := by
  intro f hf
  induction fuel generalizing k du b with
  | zero => cases hf
  | succ fuel ih =>
    unfold acLoop at hf
    split at hf
    · cases hf
    · split at hf
      · next hw => cases hf; exact walkFaults_subset (hufWalk_raises m table b f hw)
      · split at hf
        · cases hf
        · exact ih _ _ _ hf
        · next ha => cases hf; exact acAction_fail ha
        · split at hf
          · next hb => cases hf; exact walkFaults_subset (truncated_subset (readBits_raises m _ _ f hb))
          · exact ih _ _ _ hf

theorem decodeUnit_raises (s : State) (pred dct act : Fin 4) (dcOnly : Bool) :
    RaisesOnly unitFaults (decodeUnit s pred dct act dcOnly) := by
  intro k hk
  unfold decodeUnit at hk
  split at hk
  · next hd => cases hk; exact dcPath_raises _ _ _ _ k hd
  · dsimp only at hk
    split at hk
    · cases hk
    · split at hk
      · next hac => cases hk; exact acLoop_raises _ _ _ _ _ _ _ k hac
      · cases hk

/-! #### The fault and the state that each command can leave -/

theorem State.streamFaulted.fcode {s t : State} {k : FaultKind} (h : s.streamFaulted k t) : t.fcode = k.code :=
  congrArg State.fcode h

theorem State.unitFaulted.fcode {s t : State} {k : FaultKind} {p : Fin 4} (h : s.unitFaulted k p t) :
    t.fcode = k.code :=
  congrArg State.fcode h

/-- Six commands leave FAULT as it is (60_exceptions.md R222). -/
theorem exec_fault {i : Instr} {s t : State} (hx : exec i s = .next t) :
    match i with
    | .nop | .qtSet _ _ | .bsAlign | .bsPeek | .predReset | .idct => t.fault = s.fault
    | _ => True := by
  cases i with
  | nop | qtSet _ _ | bsAlign | predReset | idct => cases hx; rfl
  | bsPeek =>
    rcases execBsPeek_cases hx with ⟨r, -, rfl⟩ | ⟨k, hs, -⟩
    · rfl
    · exact absurd hs (scanAtPos_not_raises _ _ k)
  | _ => trivial

section
variable {s t : State} (hf : s.fault = false) (ht : t.fault = true)
include hf ht

theorem execHtBuild_fault_leaves {slot : Fin 8} (hx : execHtBuild slot s = .next t) :
    t = { s.recorded .malformedTable with htv := s.htv.set slot.val false } := by
  cases hm : malformedTable s.htc[slot] with
  | true =>
    rw [execHtBuild_malformed hm, raise_first _ _ (s := setHtv slot false s) hf] at hx
    cases hx
    rfl
  | false =>
    cases (execHtBuild_wellFormed hm).symm.trans hx
    cases hf.symm.trans ht

theorem execBsRead_fault_leaves {n : Fin 32} (h1 : 1 ≤ n.val ∧ n.val ≤ 16) (hx : execBsRead n s = .next t) :
    s.streamFaulted .truncated t := by
  rcases execBsRead_cases hx with ⟨v, b, -, rfl⟩ | ⟨k, hr, rfl⟩ | ⟨hn, -⟩
  · cases hf.symm.trans ht
  · obtain rfl := List.mem_singleton.1 (readBits_raises _ _ _ k hr)
    exact streamFaulted_streamFault _ hf
  · exact absurd h1 hn

theorem execHufDecode_fault_leaves {slot : Fin 8} (hx : execHufDecode slot s = .next t) :
    t = s.recorded .tableMissing ∨ ∃ k ∈ walkFaults, s.streamFaulted k t := by
  rcases execHufDecode_cases hx with ⟨-, rfl⟩ | ⟨-, sym, b, -, rfl⟩ | ⟨-, k, hw, rfl⟩
  · exact .inl (raise_first _ _ hf)
  · cases hf.symm.trans ht
  · exact .inr ⟨k, hufWalk_raises _ _ _ k hw, streamFaulted_streamFault k hf⟩

theorem execDuDecode_fault_leaves {pred dct act : Fin 4} {dcOnly : Bool}
    (hx : execDuDecode pred dct act dcOnly s = .next t) :
    t = s.recorded .tableMissing ∨ ∃ k ∈ unitFaults, s.unitFaulted k pred t := by
  rcases execDuDecode_cases hx with ⟨-, rfl⟩ | ⟨-, p, du, b, -, rfl⟩ | ⟨-, k, hd, rfl⟩
  · exact .inl (raise_first _ _ hf)
  · cases hf.symm.trans ht
  · exact .inr ⟨k, decodeUnit_raises _ _ _ _ _ k hd, unitFaulted_duFault k pred hf⟩

theorem execBsRestart_fault_leaves (hx : execBsRestart s = .next t) :
    t = { s.recorded .missingRestart with bs := { s.bs with nbits := 0#4 } } := by
  rcases execBsRestart_cases hx with ⟨r, -, rfl⟩ | ⟨k, hs, -⟩
  · rcases restartOn_cases r (aligned s) with e | ⟨w, e⟩ | ⟨x, q, e⟩
    · rw [e, raise_first _ _ (s := aligned s) hf]
      rfl
    · cases hf.symm.trans ((congrArg State.fault e).symm.trans ht)
    · cases hf.symm.trans ((congrArg State.fault e).symm.trans ht)
  · exact absurd hs (scanAtPos_not_raises _ _ k)

theorem execDequant_fault_leaves {qt : Fin 4} (hx : execDequant qt s = .next t) : t = s.recorded .tableMissing := by
  cases hv : s.qtv[qt] with
  | true =>
    cases (execDequant_valid hv).symm.trans hx
    cases hf.symm.trans ht
  | false =>
    cases (execDequant_missing hv).symm.trans hx
    exact raise_first _ _ hf

end

/-- BS_INIT clears the record first, so the fault it leaves is its own (R114). -/
theorem execBsInit_fault_leaves {s t : State} (ht : t.fault = true) (hx : execBsInit s = .next t) :
    t = { s.recorded .badWindow with
      seqwarn := false, eos := false, rstK := 0#32, pred := Vector.replicate 4 0#16,
      bs := ⟨0#32, 0#32, 0#8, 0#4, 0#32⟩ } := by
  cases hx
  split at ht
  · cases ht
  · next hw => rw [if_neg hw, raise_first _ _ rfl]; rfl

/-- Settles O43: by the command; FCODE is the code of the one fault kind each rule above gives. -/
theorem commandsRaiseOnlyTheirFaults : Obligations.CommandsRaiseOnlyTheirFaults := by
  intro i s t hwf hf hx ht
  cases i with
  | nop | qtSet _ _ | bsAlign | bsPeek | predReset | idct =>
    exact absurd ((exec_fault hx).symm.trans ht) (ne_true_of_eq_false hf)
  | htBuild slot => rw [execHtBuild_fault_leaves hf ht hx]; exact List.mem_singleton_self _
  | bsInit => rw [execBsInit_fault_leaves ht hx]; exact List.mem_singleton_self _
  | bsRead n =>
    rw [(execBsRead_fault_leaves hf ht (by simpa [Instr.wellFormed] using hwf) hx).fcode]
    exact List.mem_singleton_self _
  | hufDecode slot =>
    rcases execHufDecode_fault_leaves hf ht hx with rfl | ⟨k, hk, h⟩
    · exact List.mem_cons_self
    · rw [h.fcode]
      exact List.mem_cons_of_mem _ (List.mem_map_of_mem (f := FaultKind.code) hk)
  | duDecode pred dct act dcOnly =>
    rcases execDuDecode_fault_leaves hf ht hx with rfl | ⟨k, hk, h⟩
    · exact List.mem_cons_self
    · rw [h.fcode]
      exact List.mem_cons_of_mem _ (List.mem_map_of_mem (f := FaultKind.code) hk)
  | bsRestart => rw [execBsRestart_fault_leaves hf ht hx]; exact List.mem_singleton_self _
  | dequant qt => rw [execDequant_fault_leaves hf ht hx]; exact List.mem_singleton_self _

/-- Settles O44: by the command; no fault of the stream is TableMissing, so that fault leaves the record alone. -/
theorem faultLeavesStateOfTable : Obligations.FaultLeavesStateOfTable := by
  intro i s t hwf hf hx ht
  have hmissing {k : FaultKind} (hk : k ∈ unitFaults) : k ≠ .tableMissing := by rintro rfl; simp [unitFaults] at hk
  cases i with
  | nop | qtSet _ _ | bsAlign | bsPeek | predReset | idct =>
    exact absurd ((exec_fault hx).symm.trans ht) (ne_true_of_eq_false hf)
  | htBuild slot => exact ⟨_, execHtBuild_fault_leaves hf ht hx⟩
  | bsInit => exact ⟨_, execBsInit_fault_leaves ht hx⟩
  | bsRead n => exact ⟨_, execBsRead_fault_leaves hf ht (by simpa [Instr.wellFormed] using hwf) hx⟩
  | hufDecode slot =>
    rcases execHufDecode_fault_leaves hf ht hx with h | ⟨k, hk, h⟩
    · exact ⟨_, (if_pos rfl).mpr h⟩
    · exact ⟨k, (if_neg (hmissing (walkFaults_subset hk))).mpr h⟩
  | duDecode pred dct act dcOnly =>
    rcases execDuDecode_fault_leaves hf ht hx with h | ⟨k, hk, h⟩
    · exact ⟨_, (if_pos rfl).mpr h⟩
    · exact ⟨k, (if_neg (hmissing hk)).mpr h⟩
  | bsRestart => exact ⟨_, execBsRestart_fault_leaves hf ht hx⟩
  | dequant qt => exact ⟨_, execDequant_fault_leaves hf ht hx⟩

/-! #### Who clears a fault (O45) -/

/-- SEQWARN and EOS (10_state.md R24). -/
def State.warnings (s : State) : Bool × Bool := (s.seqwarn, s.eos)

/-- No host write reaches the fault record or a warning (20_memory.md R66). -/
theorem windowWrite_status (s : State) (off : Nat) (v : Word) :
    ((windowWrite s off v).fault = s.fault ∧ (windowWrite s off v).fcode = s.fcode ∧
      (windowWrite s off v).finfo = s.finfo ∧ (windowWrite s off v).fpos = s.fpos) ∧
    (windowWrite s off v).warnings = s.warnings := by
  rcases windowWrite_cases s off v with e | ⟨-, e⟩ | ⟨-, e⟩ | ⟨-, e⟩ | ⟨-, e⟩ | ⟨-, -, e⟩ | ⟨-, -, e⟩ | ⟨-, -, e⟩ |
    ⟨-, -, e⟩ | ⟨-, -, e⟩ | ⟨-, e⟩ <;> rw [e] <;> exact ⟨⟨rfl, rfl, rfl, rfl⟩, rfl⟩

/-- Settles O45: by whose turn it is; with a fault recorded `raise` changes nothing, and of the commands only NOP and
BS_INIT run (`runs_cases`). -/
theorem onlyBsInitOrResetClearsFault : Obligations.OnlyBsInitOrResetClearsFault := by
  intro s t hf hs
  rcases step_cases hs with ⟨_, _, rest, -, hr⟩ | ⟨_, off, v, rest, -, hw⟩ | ⟨rest, hp, -⟩ | ⟨rest, hn, he⟩
  · obtain ⟨-, -, -, ⟨-, rfl⟩ | ⟨-, rfl⟩⟩ := hostRead_cases hr <;> exact .inl ⟨hf, rfl, rfl, rfl⟩
  · obtain ⟨-, -, -, -, rfl⟩ := hostWrite_cases hw
    obtain ⟨⟨hfault, hrecord⟩, -⟩ := windowWrite_status { s with pending := rest } off v
    exact .inl ⟨hfault.trans hf, hrecord⟩
  · exact .inr (.inl ⟨rest, hp⟩)
  · rcases engineTurn_cases he with ⟨-, rfl⟩ | ⟨-, -, rfl⟩ | ⟨-, -, -, rfl⟩ | ⟨hb, hk, i, u, hd, hx, rfl⟩
    · exact .inl ⟨hf, rfl, rfl, rfl⟩
    · exact .inl ⟨hf, rfl, rfl, rfl⟩
    · rw [raise_kept _ _ (s := { s with pending := rest }) hf]
      exact .inl ⟨hf, rfl, rfl, rfl⟩
    · rcases runs_cases hk hd with hfree | rfl | rfl
      · exact absurd hf (ne_true_of_eq_false hfree)
      · cases hx
        exact .inl ⟨hf, rfl, rfl, rfl⟩
      · exact .inr (.inr ⟨rest, hn, hb, decode_bsInit hd⟩)

/-! #### The warnings (O51) -/

@[simp] theorem raise_warnings (k : FaultKind) (s0 : Word) (s : State) : (raise k s0 s).warnings = s.warnings := by
  simp [State.warnings]

@[simp] theorem streamFault_warnings (k : FaultKind) (s : State) : (streamFault k s).warnings = s.warnings := by
  simp [State.warnings]

@[simp] theorem duFault_warnings (k : FaultKind) (p : Fin 4) (s : State) : (duFault k p s).warnings = s.warnings := by
  simp [State.warnings]

theorem unrecorded_warnings : Unrecorded State.warnings where
  pending _ _ := rfl
  reply _ _ _ := rfl
  complete _ := rfl
  raise := raise_warnings

/-- BS_INIT clears both warnings, whether its window fits or not (41_bitsource.md R114). -/
theorem execBsInit_warnings {s t : State} (hx : execBsInit s = .next t) : t.seqwarn = false ∧ t.eos = false := by
  cases hx
  split
  · exact ⟨rfl, rfl⟩
  · simp [initialised]

/-- BS_RESTART clears neither warning (45_scan_decode.md R197). -/
theorem execBsRestart_warnings {s t : State} (hx : execBsRestart s = .next t) :
    (s.seqwarn = true → t.seqwarn = true) ∧ (s.eos = true → t.eos = true) := by
  rcases execBsRestart_cases hx with ⟨r, -, rfl⟩ | ⟨k, -, rfl⟩
  · rcases restartOn_cases r (aligned s) with e | ⟨w, e⟩ | ⟨x, q, e⟩ <;> rw [e]
    · simp [aligned]
    · exact ⟨id, fun _ => rfl⟩
    · exact ⟨fun h => by simp [aligned, h], id⟩
  · simp

/-- The other eleven commands leave the warnings, faults included. -/
theorem exec_warnings {i : Instr} {s t : State} (hx : exec i s = .next t) :
    match i with
    | .bsInit | .bsRestart => True
    | _ => t.warnings = s.warnings := by
  cases i with
  | bsInit | bsRestart => trivial
  | nop | qtSet _ _ | bsAlign | predReset | idct => cases hx; simp only [State.warnings, clearPreds]
  | htBuild slot => cases hx; dsimp only; split <;> simp [State.warnings]
  | dequant qt => cases hx; dsimp only; split <;> simp [State.warnings]
  | bsRead n =>
    rcases execBsRead_cases hx with ⟨v, b, -, rfl⟩ | ⟨k, -, rfl⟩ | ⟨-, rfl⟩
    · rfl
    · exact streamFault_warnings k s
    · exact raise_warnings _ _ s
  | bsPeek =>
    rcases execBsPeek_cases hx with ⟨r, -, rfl⟩ | ⟨k, -, rfl⟩
    · rfl
    · exact streamFault_warnings k s
  | hufDecode slot =>
    rcases execHufDecode_cases hx with ⟨-, rfl⟩ | ⟨-, sym, b, -, rfl⟩ | ⟨-, k, -, rfl⟩
    · exact raise_warnings _ _ s
    · rfl
    · exact streamFault_warnings k s
  | duDecode pred dct act dcOnly =>
    rcases execDuDecode_cases hx with ⟨-, rfl⟩ | ⟨-, p, du, b, -, rfl⟩ | ⟨-, k, -, rfl⟩
    · exact raise_warnings _ _ s
    · rfl
    · exact duFault_warnings k pred s

/-- Settles O51: of the steps that can change a warning, a host write does not, and of the commands only BS_INIT and
BS_RESTART do. -/
theorem warningsAreSticky : Obligations.WarningsAreSticky := by
  intro s t hs hne
  replace hne : t.warnings ≠ s.warnings := by rwa [State.warnings, State.warnings, ne_eq, Prod.mk.injEq, not_and_or]
  rcases step_changes unrecorded_warnings hs hne with ⟨rest, hp, rfl⟩ | ⟨off, v, rest, -, rfl⟩ |
    ⟨i, u, rest, hn, hb, hd, -, hx, rfl⟩
  · exact .inl ⟨rest, hp, rfl, rfl⟩
  · obtain ⟨-, hw⟩ := windowWrite_status { s with pending := rest } off v
    exact absurd hw hne
  · cases i with
    | bsInit =>
      have hw := execBsInit_warnings hx
      exact .inr (.inl ⟨rest, hn, hb, decode_bsInit hd, hw⟩)
    | bsRestart =>
      obtain ⟨-, hword⟩ := (decodeInvertsEncode _ _).1 hd
      have hw := execBsRestart_warnings hx
      exact .inr (.inr ⟨rest, hn, hb, hword.symm, hw⟩)
    | _ => exact absurd (exec_warnings hx) hne

end Sys2Proof.Machine
